-- ==== Sys2Proof/Word.lean ====
section
/-! DEFINITION. The data widths of the machine: the 32-bit word of rule R7 (every address, instruction and
general register is one), and the byte, half-word and double-word of the memory and the floating-point unit. -/

namespace Sys2Proof

/-- Rule R7: an unsigned 32-bit value; all addresses, instructions and register values are words. -/
abbrev Word := BitVec 32

/-- Rule R60: memory is byte-addressable. -/
abbrev Byte := BitVec 8

/-- A 16-bit value (rule R64, the half-word accesses). -/
abbrev Half := BitVec 16

/-- A 64-bit value: a double held in an even/odd register pair (rule R29). -/
abbrev DWord := BitVec 64

end Sys2Proof
end

