-- ==== Sys2Proof/Config.lean ====
section
/-! DEFINITION. The open parameters of the specification (rule R6) and the free inputs of a step (rules R15, R39),
as constants with no body: nothing can be proved about their values, so a claim holds whatever they are.
The parameters that carry a stated range (PAGE_BITS, RAM_BUDGET, BOOT_ADDR, STR_MAX) are plain data in
`Sys2Proof.Machine.Params` (Machine/State.lean), so that statements about every state hold for every value of them; the
one of them without a default, STR_MAX, has its value at reset from here. -/

namespace Sys2Proof

/-- Rule R255: the two floating-point formats, binary32 and binary64. -/
inductive Fmt where
  | S
  | D
deriving DecidableEq, Repr

/-- The operations of rules R259 and R262 that can deliver a NaN: the four arithmetic operators, and the
float-to-float conversions CVT.S.D and CVT.D.S. -/
inductive FpOp where
  | add
  | sub
  | mul
  | div
  | cvt
deriving DecidableEq, Repr

namespace Config

/-- FP_NAN (rules R6, R259): the source of the sign and fraction of a NaN result, uninterpreted, by destination
format, operation and operands. `Machine.nanBits` turns it into a NaN pattern, and every NaN is reachable. -/
opaque fpNan : Fmt → FpOp → DWord → DWord → DWord

/-- CVT_W_INVALID (rules R6, R291): the word an invalid CVT.W delivers, one value for every invalid input. -/
opaque cvtWInvalid : Word

/-- STR_MAX - 1 (rules R6, R321, U13): the bound on the length of a C string, of which only STR_MAX >= 1 is known (log 1). -/
opaque strRoom : Nat

/-- SC_MISMATCH (rules R6, R246): whether an SC to another address than the reserved one succeeds. -/
opaque scMismatch : Nat → Bool

/-- Rule R86: whether a swap transfer completes, a free input of the access that needs it. -/
opaque swapCompletes : Nat → Bool

/-- Rules R15, R337: a word the host answers (an integer, a float pattern, a descriptor, a count). -/
opaque hostWord : Nat → Word

/-- Rules R15, R328: a double pattern the host answers. -/
opaque hostDouble : Nat → DWord

/-- Rules R15, R329, R333: the bytes a host read delivers, before the interface bound is applied. -/
opaque hostBytes : Nat → List Byte

/-- Rule R86: a byte that a host read of memory delivers once the memory has failed. -/
opaque failedByte : Nat → Byte

end Config

end Sys2Proof
end

