-- ==== Sys2Proof/Syntax.lean ====
section
/-! DEFINITION. The instructions as syntax: one constructor per row of spec/opcode_table.json (rule R121), the aliases
LUI and NOP among them (rule R123), operands in the order of each rule's "Syntax" line (rule R128). -/

namespace Sys2Proof

/-- Rule R21: a general register number, 0..31. -/
abbrev Reg := Fin 32

/-- Rule R28: a floating-point register number, 0..31. -/
abbrev FReg := Fin 32

/-- Rule R113: a 16-bit immediate or offset field, before extension. -/
abbrev Imm16 := BitVec 16

/-- Rule R113: the 5-bit shift amount field. -/
abbrev Shamt := BitVec 5

/-- Rule R121: the instruction list. -/
inductive Instr where
  | add (rd rs rt : Reg)  -- ADD, rule R152
  | addu (rd rs rt : Reg)  -- ADDU, rule R153
  | sub (rd rs rt : Reg)  -- SUB, rule R154
  | subu (rd rs rt : Reg)  -- SUBU, rule R155
  | addi (rt rs : Reg) (imm : Imm16)  -- ADDI, rule R156
  | addiu (rt rs : Reg) (imm : Imm16)  -- ADDIU, rule R157
  | mul (rd rs rt : Reg)  -- MUL, rule R158
  | muh (rd rs rt : Reg)  -- MUH, rule R159
  | mulu (rd rs rt : Reg)  -- MULU, rule R160
  | muhu (rd rs rt : Reg)  -- MUHU, rule R161
  | div (rd rs rt : Reg)  -- DIV, rule R162
  | mod (rd rs rt : Reg)  -- MOD, rule R163
  | divu (rd rs rt : Reg)  -- DIVU, rule R164
  | modu (rd rs rt : Reg)  -- MODU, rule R165
  | and (rd rs rt : Reg)  -- AND, rule R171
  | or (rd rs rt : Reg)  -- OR, rule R172
  | xor (rd rs rt : Reg)  -- XOR, rule R173
  | nor (rd rs rt : Reg)  -- NOR, rule R174
  | andi (rt rs : Reg) (imm : Imm16)  -- ANDI, rule R175
  | ori (rt rs : Reg) (imm : Imm16)  -- ORI, rule R176
  | xori (rt rs : Reg) (imm : Imm16)  -- XORI, rule R177
  | aui (rt rs : Reg) (imm : Imm16)  -- AUI, rule R178
  | lui (rt : Reg) (imm : Imm16)  -- LUI, rule R179
  | sll (rd rt : Reg) (shamt : Shamt)  -- SLL, rule R186
  | srl (rd rt : Reg) (shamt : Shamt)  -- SRL, rule R187
  | sra (rd rt : Reg) (shamt : Shamt)  -- SRA, rule R188
  | sllv (rd rt rs : Reg)  -- SLLV, rule R189
  | srlv (rd rt rs : Reg)  -- SRLV, rule R190
  | srav (rd rt rs : Reg)  -- SRAV, rule R191
  | slt (rd rs rt : Reg)  -- SLT, rule R196
  | sltu (rd rs rt : Reg)  -- SLTU, rule R197
  | slti (rt rs : Reg) (imm : Imm16)  -- SLTI, rule R198
  | sltiu (rt rs : Reg) (imm : Imm16)  -- SLTIU, rule R199
  | beq (rs rt : Reg) (offset : Imm16)  -- BEQ, rule R208
  | bne (rs rt : Reg) (offset : Imm16)  -- BNE, rule R209
  | blez (rs : Reg) (offset : Imm16)  -- BLEZ, rule R210
  | bgtz (rs : Reg) (offset : Imm16)  -- BGTZ, rule R211
  | bltz (rs : Reg) (offset : Imm16)  -- BLTZ, rule R212
  | bgez (rs : Reg) (offset : Imm16)  -- BGEZ, rule R213
  | bltzal (rs : Reg) (offset : Imm16)  -- BLTZAL, rule R214
  | bgezal (rs : Reg) (offset : Imm16)  -- BGEZAL, rule R215
  | j (target : BitVec 26)  -- J, rule R221
  | jal (target : BitVec 26)  -- JAL, rule R222
  | jr (rs : Reg)  -- JR, rule R223
  | jalr (rd rs : Reg)  -- JALR, rule R224
  | jalx (target : BitVec 26)  -- JALX, rule R225
  | lb (rt base : Reg) (offset : Imm16)  -- LB, rule R237
  | lbu (rt base : Reg) (offset : Imm16)  -- LBU, rule R238
  | lh (rt base : Reg) (offset : Imm16)  -- LH, rule R239
  | lhu (rt base : Reg) (offset : Imm16)  -- LHU, rule R240
  | lw (rt base : Reg) (offset : Imm16)  -- LW, rule R241
  | sb (rt base : Reg) (offset : Imm16)  -- SB, rule R242
  | sh (rt base : Reg) (offset : Imm16)  -- SH, rule R243
  | sw (rt base : Reg) (offset : Imm16)  -- SW, rule R244
  | ll (rt base : Reg) (offset : Imm16)  -- LL, rule R245
  | sc (rt base : Reg) (offset : Imm16)  -- SC, rule R246
  | addS (fd fs ft : FReg)  -- ADD.S, rule R263
  | addD (fd fs ft : FReg)  -- ADD.D, rule R264
  | subS (fd fs ft : FReg)  -- SUB.S, rule R265
  | subD (fd fs ft : FReg)  -- SUB.D, rule R266
  | mulS (fd fs ft : FReg)  -- MUL.S, rule R267
  | mulD (fd fs ft : FReg)  -- MUL.D, rule R268
  | divS (fd fs ft : FReg)  -- DIV.S, rule R269
  | divD (fd fs ft : FReg)  -- DIV.D, rule R270
  | absS (fd fs : FReg)  -- ABS.S, rule R271
  | absD (fd fs : FReg)  -- ABS.D, rule R272
  | negS (fd fs : FReg)  -- NEG.S, rule R273
  | negD (fd fs : FReg)  -- NEG.D, rule R274
  | cvtSW (fd fs : FReg)  -- CVT.S.W, rule R275
  | cvtDS (fd fs : FReg)  -- CVT.D.S, rule R276
  | cvtSD (fd fs : FReg)  -- CVT.S.D, rule R277
  | cvtWS (fd fs : FReg)  -- CVT.W.S, rule R278
  | cvtWD (fd fs : FReg)  -- CVT.W.D, rule R279
  | cCondS (cond : BitVec 4) (fs ft : FReg)  -- C.cond.S, rule R281
  | cCondD (cond : BitVec 4) (fs ft : FReg)  -- C.cond.D, rule R282
  | bc1f (offset : Imm16)  -- BC1F, rule R283
  | bc1t (offset : Imm16)  -- BC1T, rule R284
  | mfc1 (rt : Reg) (fs : FReg)  -- MFC1, rule R285
  | mtc1 (rt : Reg) (fs : FReg)  -- MTC1, rule R286
  | lwc1 (ft : FReg) (base : Reg) (offset : Imm16)  -- LWC1, rule R287
  | ldc1 (ft : FReg) (base : Reg) (offset : Imm16)  -- LDC1, rule R288
  | swc1 (ft : FReg) (base : Reg) (offset : Imm16)  -- SWC1, rule R289
  | sdc1 (ft : FReg) (base : Reg) (offset : Imm16)  -- SDC1, rule R290
  | syscall (code : BitVec 20)  -- SYSCALL, rule R310
  | brk (code : BitVec 20)  -- BREAK, rule R311
  | mfhi (rd : Reg)  -- MFHI, rule R312
  | mthi (rs : Reg)  -- MTHI, rule R313
  | mflo (rd : Reg)  -- MFLO, rule R314
  | mtlo (rs : Reg)  -- MTLO, rule R315
  | nop  -- NOP, rule R316
deriving DecidableEq, Repr

/-- The mnemonic of an instruction, as spec/opcode_table.json has it. -/
def Instr.mnemonic : Instr → String
  | .add .. => "ADD"
  | .addu .. => "ADDU"
  | .sub .. => "SUB"
  | .subu .. => "SUBU"
  | .addi .. => "ADDI"
  | .addiu .. => "ADDIU"
  | .mul .. => "MUL"
  | .muh .. => "MUH"
  | .mulu .. => "MULU"
  | .muhu .. => "MUHU"
  | .div .. => "DIV"
  | .mod .. => "MOD"
  | .divu .. => "DIVU"
  | .modu .. => "MODU"
  | .and .. => "AND"
  | .or .. => "OR"
  | .xor .. => "XOR"
  | .nor .. => "NOR"
  | .andi .. => "ANDI"
  | .ori .. => "ORI"
  | .xori .. => "XORI"
  | .aui .. => "AUI"
  | .lui .. => "LUI"
  | .sll .. => "SLL"
  | .srl .. => "SRL"
  | .sra .. => "SRA"
  | .sllv .. => "SLLV"
  | .srlv .. => "SRLV"
  | .srav .. => "SRAV"
  | .slt .. => "SLT"
  | .sltu .. => "SLTU"
  | .slti .. => "SLTI"
  | .sltiu .. => "SLTIU"
  | .beq .. => "BEQ"
  | .bne .. => "BNE"
  | .blez .. => "BLEZ"
  | .bgtz .. => "BGTZ"
  | .bltz .. => "BLTZ"
  | .bgez .. => "BGEZ"
  | .bltzal .. => "BLTZAL"
  | .bgezal .. => "BGEZAL"
  | .j .. => "J"
  | .jal .. => "JAL"
  | .jr .. => "JR"
  | .jalr .. => "JALR"
  | .jalx .. => "JALX"
  | .lb .. => "LB"
  | .lbu .. => "LBU"
  | .lh .. => "LH"
  | .lhu .. => "LHU"
  | .lw .. => "LW"
  | .sb .. => "SB"
  | .sh .. => "SH"
  | .sw .. => "SW"
  | .ll .. => "LL"
  | .sc .. => "SC"
  | .addS .. => "ADD.S"
  | .addD .. => "ADD.D"
  | .subS .. => "SUB.S"
  | .subD .. => "SUB.D"
  | .mulS .. => "MUL.S"
  | .mulD .. => "MUL.D"
  | .divS .. => "DIV.S"
  | .divD .. => "DIV.D"
  | .absS .. => "ABS.S"
  | .absD .. => "ABS.D"
  | .negS .. => "NEG.S"
  | .negD .. => "NEG.D"
  | .cvtSW .. => "CVT.S.W"
  | .cvtDS .. => "CVT.D.S"
  | .cvtSD .. => "CVT.S.D"
  | .cvtWS .. => "CVT.W.S"
  | .cvtWD .. => "CVT.W.D"
  | .cCondS .. => "C.cond.S"
  | .cCondD .. => "C.cond.D"
  | .bc1f .. => "BC1F"
  | .bc1t .. => "BC1T"
  | .mfc1 .. => "MFC1"
  | .mtc1 .. => "MTC1"
  | .lwc1 .. => "LWC1"
  | .ldc1 .. => "LDC1"
  | .swc1 .. => "SWC1"
  | .sdc1 .. => "SDC1"
  | .syscall .. => "SYSCALL"
  | .brk .. => "BREAK"
  | .mfhi .. => "MFHI"
  | .mthi .. => "MTHI"
  | .mflo .. => "MFLO"
  | .mtlo .. => "MTLO"
  | .nop => "NOP"

end Sys2Proof
end

