-- ==== Sys2Proof/WellFormed.lean ====
section
/-! DEFINITION. Which terms of `Instr` are the spelling of a word. Every field is as wide as its encoding, so any
operand value encodes; only the two aliases of rule R123 give one word two spellings, and the alias is then the
spelling (log 10). -/

namespace Sys2Proof

/-- Rule R123: a term is well formed unless an alias spells the same word: `SLL r0, r0, 0` is spelled NOP (a), and
AUI with rs = 0 is spelled LUI (b). Every other instruction is well formed with every operand. -/
def Instr.wellFormed : Instr → Bool
  | .sll rd rt shamt => !(rd == 0 && rt == 0 && shamt == 0)
  | .aui _ rs _ => !(rs == 0)
  | _ => true

/-- The well-formedness check as a proposition. -/
abbrev Instr.WellFormed (i : Instr) : Prop := i.wellFormed = true

/-- Rule R123: the instruction an alias stands for; every other instruction stands for itself. -/
def Instr.core : Instr → Instr
  | .nop => .sll 0 0 0
  | .lui rt imm => .aui rt 0 imm
  | i => i

end Sys2Proof
end

