-- ==== Sys2Proof/Decode.lean ====
section
/-! DEFINITION. Decoding, total on any word and any bytes, with a name for every rejection, by the opcode maps of rules
R114 to R119; and after it the encoder, written from the same maps. -/

namespace Sys2Proof

/-- Why a word decodes to no instruction (rule R125: every such word raises ReservedInstruction), by the map that
refuses it. -/
inductive Reject where
  /-- R114: a reserved primary opcode. -/
  | reservedOpcode
  /-- R115: a reserved funct of SPECIAL. -/
  | reservedFunct
  /-- R115: a multiply/divide funct with a shamt other than 2 and 3. -/
  | reservedSubFunction
  /-- R116: a reserved rt of REGIMM. -/
  | reservedRegimm
  /-- R117: a reserved rs of COP1. -/
  | reservedCop1
  /-- R118, R119: a reserved funct of COP1 with fmt S, D or W. -/
  | reservedCop1Funct
  /-- R122: a field that must be zero is not. -/
  | nonzeroField
  /-- R110: fewer than the four bytes of a word. -/
  | tooShort
deriving DecidableEq, Repr

/-! ## The fields of a word (rules R111, R112) -/

/-- `op`, bits 31:26. -/
def opOf (w : Word) : BitVec 6 := w.extractLsb' 26 6
/-- `rs`, bits 25:21; `base` in loads and stores, `fmt` in COP1. -/
def rsOf (w : Word) : BitVec 5 := w.extractLsb' 21 5
/-- `rt`, bits 20:16; `ft` in COP1. -/
def rtOf (w : Word) : BitVec 5 := w.extractLsb' 16 5
/-- `rd`, bits 15:11; `fs` in COP1. -/
def rdOf (w : Word) : BitVec 5 := w.extractLsb' 11 5
/-- `shamt`, bits 10:6; `fd` in COP1. -/
def shamtOf (w : Word) : BitVec 5 := w.extractLsb' 6 5
/-- `funct`, bits 5:0. -/
def functOf (w : Word) : BitVec 6 := w.extractLsb' 0 6
/-- `imm` or `offset`, bits 15:0. -/
def immOf (w : Word) : Imm16 := w.extractLsb' 0 16
/-- `target`, bits 25:0. -/
def targetOf (w : Word) : BitVec 26 := w.extractLsb' 0 26
/-- `code`, bits 25:6. -/
def codeOf (w : Word) : BitVec 20 := w.extractLsb' 6 20
/-- `cond`, bits 3:0 of C.cond.fmt. -/
def condOf (w : Word) : BitVec 4 := w.extractLsb' 0 4
/-- Bits 5:4, 0b11 in C.cond.fmt. -/
def condMarkOf (w : Word) : BitVec 2 := w.extractLsb' 4 2
/-- A register field as a register number. -/
def reg (b : BitVec 5) : Reg := b.toFin
/-- A register number as a field. -/
def regBits (r : Reg) : BitVec 5 := BitVec.ofFin r

/-- Rule R122: the instruction, if its must-be-zero fields are zero. -/
def whenZero (zero : Bool) (i : Instr) : Except Reject Instr :=
  if zero then .ok i else .error .nonzeroField

/-! ## The opcode maps -/

/-- Rule R115, the rows where shamt selects between two instructions. -/
def bySubFunction (w : Word) (two three : Instr) : Except Reject Instr :=
  match shamtOf w with
  | 0x02#5 => .ok two
  | 0x03#5 => .ok three
  | _ => .error .reservedSubFunction

/-- Rule R115: the SPECIAL map, by funct. -/
def decodeSpecial (w : Word) : Except Reject Instr :=
  match functOf w with
  | 0x00#6 => whenZero (rsOf w == 0) (.sll (reg (rdOf w)) (reg (rtOf w)) (shamtOf w))
  | 0x02#6 => whenZero (rsOf w == 0) (.srl (reg (rdOf w)) (reg (rtOf w)) (shamtOf w))
  | 0x03#6 => whenZero (rsOf w == 0) (.sra (reg (rdOf w)) (reg (rtOf w)) (shamtOf w))
  | 0x04#6 => whenZero (shamtOf w == 0) (.sllv (reg (rdOf w)) (reg (rtOf w)) (reg (rsOf w)))
  | 0x06#6 => whenZero (shamtOf w == 0) (.srlv (reg (rdOf w)) (reg (rtOf w)) (reg (rsOf w)))
  | 0x07#6 => whenZero (shamtOf w == 0) (.srav (reg (rdOf w)) (reg (rtOf w)) (reg (rsOf w)))
  | 0x08#6 => whenZero (rtOf w == 0 && rdOf w == 0 && shamtOf w == 0) (.jr (reg (rsOf w)))
  | 0x09#6 => whenZero (rtOf w == 0 && shamtOf w == 0) (.jalr (reg (rdOf w)) (reg (rsOf w)))
  | 0x0C#6 => .ok (.syscall (codeOf w))
  | 0x0D#6 => .ok (.brk (codeOf w))
  | 0x10#6 => whenZero (rsOf w == 0 && rtOf w == 0 && shamtOf w == 0) (.mfhi (reg (rdOf w)))
  | 0x11#6 => whenZero (rtOf w == 0 && rdOf w == 0 && shamtOf w == 0) (.mthi (reg (rsOf w)))
  | 0x12#6 => whenZero (rsOf w == 0 && rtOf w == 0 && shamtOf w == 0) (.mflo (reg (rdOf w)))
  | 0x13#6 => whenZero (rtOf w == 0 && rdOf w == 0 && shamtOf w == 0) (.mtlo (reg (rsOf w)))
  | 0x18#6 => bySubFunction w (.mul (reg (rdOf w)) (reg (rsOf w)) (reg (rtOf w)))
      (.muh (reg (rdOf w)) (reg (rsOf w)) (reg (rtOf w)))
  | 0x19#6 => bySubFunction w (.mulu (reg (rdOf w)) (reg (rsOf w)) (reg (rtOf w)))
      (.muhu (reg (rdOf w)) (reg (rsOf w)) (reg (rtOf w)))
  | 0x1A#6 => bySubFunction w (.div (reg (rdOf w)) (reg (rsOf w)) (reg (rtOf w)))
      (.mod (reg (rdOf w)) (reg (rsOf w)) (reg (rtOf w)))
  | 0x1B#6 => bySubFunction w (.divu (reg (rdOf w)) (reg (rsOf w)) (reg (rtOf w)))
      (.modu (reg (rdOf w)) (reg (rsOf w)) (reg (rtOf w)))
  | 0x20#6 => whenZero (shamtOf w == 0) (.add (reg (rdOf w)) (reg (rsOf w)) (reg (rtOf w)))
  | 0x21#6 => whenZero (shamtOf w == 0) (.addu (reg (rdOf w)) (reg (rsOf w)) (reg (rtOf w)))
  | 0x22#6 => whenZero (shamtOf w == 0) (.sub (reg (rdOf w)) (reg (rsOf w)) (reg (rtOf w)))
  | 0x23#6 => whenZero (shamtOf w == 0) (.subu (reg (rdOf w)) (reg (rsOf w)) (reg (rtOf w)))
  | 0x24#6 => whenZero (shamtOf w == 0) (.and (reg (rdOf w)) (reg (rsOf w)) (reg (rtOf w)))
  | 0x25#6 => whenZero (shamtOf w == 0) (.or (reg (rdOf w)) (reg (rsOf w)) (reg (rtOf w)))
  | 0x26#6 => whenZero (shamtOf w == 0) (.xor (reg (rdOf w)) (reg (rsOf w)) (reg (rtOf w)))
  | 0x27#6 => whenZero (shamtOf w == 0) (.nor (reg (rdOf w)) (reg (rsOf w)) (reg (rtOf w)))
  | 0x2A#6 => whenZero (shamtOf w == 0) (.slt (reg (rdOf w)) (reg (rsOf w)) (reg (rtOf w)))
  | 0x2B#6 => whenZero (shamtOf w == 0) (.sltu (reg (rdOf w)) (reg (rsOf w)) (reg (rtOf w)))
  | _ => .error .reservedFunct

/-- Rule R116: the REGIMM map, by rt (the conflict C6 of spec/90_conflicts.md is decided for rt). -/
def decodeRegimm (w : Word) : Except Reject Instr :=
  match rtOf w with
  | 0x00#5 => .ok (.bltz (reg (rsOf w)) (immOf w))
  | 0x01#5 => .ok (.bgez (reg (rsOf w)) (immOf w))
  | 0x10#5 => .ok (.bltzal (reg (rsOf w)) (immOf w))
  | 0x11#5 => .ok (.bgezal (reg (rsOf w)) (immOf w))
  | _ => .error .reservedRegimm

/-- Rule R118: the COP1 function map for fmt S. -/
def decodeFmtS (w : Word) : Except Reject Instr :=
  match functOf w with
  | 0x00#6 => .ok (.addS (reg (shamtOf w)) (reg (rdOf w)) (reg (rtOf w)))
  | 0x01#6 => .ok (.subS (reg (shamtOf w)) (reg (rdOf w)) (reg (rtOf w)))
  | 0x02#6 => .ok (.mulS (reg (shamtOf w)) (reg (rdOf w)) (reg (rtOf w)))
  | 0x03#6 => .ok (.divS (reg (shamtOf w)) (reg (rdOf w)) (reg (rtOf w)))
  | 0x05#6 => whenZero (rtOf w == 0) (.absS (reg (shamtOf w)) (reg (rdOf w)))
  | 0x07#6 => whenZero (rtOf w == 0) (.negS (reg (shamtOf w)) (reg (rdOf w)))
  | 0x21#6 => whenZero (rtOf w == 0) (.cvtDS (reg (shamtOf w)) (reg (rdOf w)))
  | 0x24#6 => whenZero (rtOf w == 0) (.cvtWS (reg (shamtOf w)) (reg (rdOf w)))
  | _ =>
    if condMarkOf w = 0b11#2 then whenZero (shamtOf w == 0) (.cCondS (condOf w) (reg (rdOf w)) (reg (rtOf w)))
    else .error .reservedCop1Funct

/-- Rule R118: the COP1 function map for fmt D. -/
def decodeFmtD (w : Word) : Except Reject Instr :=
  match functOf w with
  | 0x00#6 => .ok (.addD (reg (shamtOf w)) (reg (rdOf w)) (reg (rtOf w)))
  | 0x01#6 => .ok (.subD (reg (shamtOf w)) (reg (rdOf w)) (reg (rtOf w)))
  | 0x02#6 => .ok (.mulD (reg (shamtOf w)) (reg (rdOf w)) (reg (rtOf w)))
  | 0x03#6 => .ok (.divD (reg (shamtOf w)) (reg (rdOf w)) (reg (rtOf w)))
  | 0x05#6 => whenZero (rtOf w == 0) (.absD (reg (shamtOf w)) (reg (rdOf w)))
  | 0x07#6 => whenZero (rtOf w == 0) (.negD (reg (shamtOf w)) (reg (rdOf w)))
  | 0x20#6 => whenZero (rtOf w == 0) (.cvtSD (reg (shamtOf w)) (reg (rdOf w)))
  | 0x24#6 => whenZero (rtOf w == 0) (.cvtWD (reg (shamtOf w)) (reg (rdOf w)))
  | _ =>
    if condMarkOf w = 0b11#2 then whenZero (shamtOf w == 0) (.cCondD (condOf w) (reg (rdOf w)) (reg (rtOf w)))
    else .error .reservedCop1Funct

/-- Rule R119: the COP1 function map for fmt W. -/
def decodeFmtW (w : Word) : Except Reject Instr :=
  match functOf w with
  | 0x20#6 => whenZero (rtOf w == 0) (.cvtSW (reg (shamtOf w)) (reg (rdOf w)))
  | _ => .error .reservedCop1Funct

/-- Rule R117, row BC1: the rt field selects BC1F or BC1T, and a nonzero cc or nd is reserved. -/
def decodeBc1 (w : Word) : Except Reject Instr :=
  match rtOf w with
  | 0x00#5 => .ok (.bc1f (immOf w))
  | 0x01#5 => .ok (.bc1t (immOf w))
  | _ => .error .nonzeroField

/-- Rule R117: the COP1 map, by rs. -/
def decodeCop1 (w : Word) : Except Reject Instr :=
  match rsOf w with
  | 0x00#5 => whenZero (shamtOf w == 0 && functOf w == 0) (.mfc1 (reg (rtOf w)) (reg (rdOf w)))
  | 0x04#5 => whenZero (shamtOf w == 0 && functOf w == 0) (.mtc1 (reg (rtOf w)) (reg (rdOf w)))
  | 0x08#5 => decodeBc1 w
  | 0x10#5 => decodeFmtS w
  | 0x11#5 => decodeFmtD w
  | 0x14#5 => decodeFmtW w
  | _ => .error .reservedCop1

/-- Rule R114: the primary opcode map. This is the decode function of rule R120, which knows no alias. -/
def decodeRow (w : Word) : Except Reject Instr :=
  match opOf w with
  | 0x00#6 => decodeSpecial w
  | 0x01#6 => decodeRegimm w
  | 0x02#6 => .ok (.j (targetOf w))
  | 0x03#6 => .ok (.jal (targetOf w))
  | 0x04#6 => .ok (.beq (reg (rsOf w)) (reg (rtOf w)) (immOf w))
  | 0x05#6 => .ok (.bne (reg (rsOf w)) (reg (rtOf w)) (immOf w))
  | 0x06#6 => whenZero (rtOf w == 0) (.blez (reg (rsOf w)) (immOf w))
  | 0x07#6 => whenZero (rtOf w == 0) (.bgtz (reg (rsOf w)) (immOf w))
  | 0x08#6 => .ok (.addi (reg (rtOf w)) (reg (rsOf w)) (immOf w))
  | 0x09#6 => .ok (.addiu (reg (rtOf w)) (reg (rsOf w)) (immOf w))
  | 0x0A#6 => .ok (.slti (reg (rtOf w)) (reg (rsOf w)) (immOf w))
  | 0x0B#6 => .ok (.sltiu (reg (rtOf w)) (reg (rsOf w)) (immOf w))
  | 0x0C#6 => .ok (.andi (reg (rtOf w)) (reg (rsOf w)) (immOf w))
  | 0x0D#6 => .ok (.ori (reg (rtOf w)) (reg (rsOf w)) (immOf w))
  | 0x0E#6 => .ok (.xori (reg (rtOf w)) (reg (rsOf w)) (immOf w))
  | 0x0F#6 => .ok (.aui (reg (rtOf w)) (reg (rsOf w)) (immOf w))
  | 0x11#6 => decodeCop1 w
  | 0x1D#6 => .ok (.jalx (targetOf w))
  | 0x20#6 => .ok (.lb (reg (rtOf w)) (reg (rsOf w)) (immOf w))
  | 0x21#6 => .ok (.lh (reg (rtOf w)) (reg (rsOf w)) (immOf w))
  | 0x23#6 => .ok (.lw (reg (rtOf w)) (reg (rsOf w)) (immOf w))
  | 0x24#6 => .ok (.lbu (reg (rtOf w)) (reg (rsOf w)) (immOf w))
  | 0x25#6 => .ok (.lhu (reg (rtOf w)) (reg (rsOf w)) (immOf w))
  | 0x28#6 => .ok (.sb (reg (rtOf w)) (reg (rsOf w)) (immOf w))
  | 0x29#6 => .ok (.sh (reg (rtOf w)) (reg (rsOf w)) (immOf w))
  | 0x2B#6 => .ok (.sw (reg (rtOf w)) (reg (rsOf w)) (immOf w))
  | 0x30#6 => .ok (.ll (reg (rtOf w)) (reg (rsOf w)) (immOf w))
  | 0x31#6 => .ok (.lwc1 (reg (rtOf w)) (reg (rsOf w)) (immOf w))
  | 0x35#6 => .ok (.ldc1 (reg (rtOf w)) (reg (rsOf w)) (immOf w))
  | 0x38#6 => .ok (.sc (reg (rtOf w)) (reg (rsOf w)) (immOf w))
  | 0x39#6 => .ok (.swc1 (reg (rtOf w)) (reg (rsOf w)) (immOf w))
  | 0x3D#6 => .ok (.sdc1 (reg (rtOf w)) (reg (rsOf w)) (immOf w))
  | _ => .error .reservedOpcode

/-- Rule R123: the alias that spells the instruction's word, where there is one (log 10). -/
def spell : Instr → Instr
  | .sll rd rt shamt => if rd = 0 ∧ rt = 0 ∧ shamt = 0 then .nop else .sll rd rt shamt
  | .aui rt rs imm => if rs = 0 then .lui rt imm else .aui rt rs imm
  | i => i

/-- Rule R120, with the alias as the spelling of its words: depends on the word alone, and is total. -/
def decode (w : Word) : Except Reject Instr :=
  (decodeRow w).map spell

/-- Rules R69, R110: the word whose least significant byte is the first byte; any bytes after it are not read. -/
def decodeBytes : List Byte → Except Reject Instr
  | b0 :: b1 :: b2 :: b3 :: _ => decode (b3 ++ b2 ++ b1 ++ b0)
  | _ => .error .tooShort

/-! ## The opcode table -/

/-- A row of spec/opcode_table.json: the word `w` is the row's instruction when `w &&& mask = value`. -/
structure Row where
  mnemonic : String
  mask : Word
  value : Word
deriving DecidableEq, Repr

/-- The rows of the group Arithmetic. -/
def rowsArithmetic : List Row :=
  [⟨"ADD", 0xFC0007FF, 0x00000020⟩,
   ⟨"ADDU", 0xFC0007FF, 0x00000021⟩,
   ⟨"SUB", 0xFC0007FF, 0x00000022⟩,
   ⟨"SUBU", 0xFC0007FF, 0x00000023⟩,
   ⟨"ADDI", 0xFC000000, 0x20000000⟩,
   ⟨"ADDIU", 0xFC000000, 0x24000000⟩,
   ⟨"MUL", 0xFC0007FF, 0x00000098⟩,
   ⟨"MUH", 0xFC0007FF, 0x000000D8⟩,
   ⟨"MULU", 0xFC0007FF, 0x00000099⟩,
   ⟨"MUHU", 0xFC0007FF, 0x000000D9⟩,
   ⟨"DIV", 0xFC0007FF, 0x0000009A⟩,
   ⟨"MOD", 0xFC0007FF, 0x000000DA⟩,
   ⟨"DIVU", 0xFC0007FF, 0x0000009B⟩,
   ⟨"MODU", 0xFC0007FF, 0x000000DB⟩]

/-- The rows of the group Logical. -/
def rowsLogical : List Row :=
  [⟨"AND", 0xFC0007FF, 0x00000024⟩,
   ⟨"OR", 0xFC0007FF, 0x00000025⟩,
   ⟨"XOR", 0xFC0007FF, 0x00000026⟩,
   ⟨"NOR", 0xFC0007FF, 0x00000027⟩,
   ⟨"ANDI", 0xFC000000, 0x30000000⟩,
   ⟨"ORI", 0xFC000000, 0x34000000⟩,
   ⟨"XORI", 0xFC000000, 0x38000000⟩,
   ⟨"AUI", 0xFC000000, 0x3C000000⟩]

/-- The rows of the group Shift. -/
def rowsShift : List Row :=
  [⟨"SLL", 0xFFE0003F, 0x00000000⟩,
   ⟨"SRL", 0xFFE0003F, 0x00000002⟩,
   ⟨"SRA", 0xFFE0003F, 0x00000003⟩,
   ⟨"SLLV", 0xFC0007FF, 0x00000004⟩,
   ⟨"SRLV", 0xFC0007FF, 0x00000006⟩,
   ⟨"SRAV", 0xFC0007FF, 0x00000007⟩]

/-- The rows of the group Compare. -/
def rowsCompare : List Row :=
  [⟨"SLT", 0xFC0007FF, 0x0000002A⟩,
   ⟨"SLTU", 0xFC0007FF, 0x0000002B⟩,
   ⟨"SLTI", 0xFC000000, 0x28000000⟩,
   ⟨"SLTIU", 0xFC000000, 0x2C000000⟩]

/-- The rows of the group Branch. -/
def rowsBranch : List Row :=
  [⟨"BEQ", 0xFC000000, 0x10000000⟩,
   ⟨"BNE", 0xFC000000, 0x14000000⟩,
   ⟨"BLEZ", 0xFC1F0000, 0x18000000⟩,
   ⟨"BGTZ", 0xFC1F0000, 0x1C000000⟩,
   ⟨"BLTZ", 0xFC1F0000, 0x04000000⟩,
   ⟨"BGEZ", 0xFC1F0000, 0x04010000⟩,
   ⟨"BLTZAL", 0xFC1F0000, 0x04100000⟩,
   ⟨"BGEZAL", 0xFC1F0000, 0x04110000⟩]

/-- The rows of the group Jump. -/
def rowsJump : List Row :=
  [⟨"J", 0xFC000000, 0x08000000⟩,
   ⟨"JAL", 0xFC000000, 0x0C000000⟩,
   ⟨"JR", 0xFC1FFFFF, 0x00000008⟩,
   ⟨"JALR", 0xFC1F07FF, 0x00000009⟩,
   ⟨"JALX", 0xFC000000, 0x74000000⟩]

/-- The rows of the group Memory. -/
def rowsMemory : List Row :=
  [⟨"LB", 0xFC000000, 0x80000000⟩,
   ⟨"LBU", 0xFC000000, 0x90000000⟩,
   ⟨"LH", 0xFC000000, 0x84000000⟩,
   ⟨"LHU", 0xFC000000, 0x94000000⟩,
   ⟨"LW", 0xFC000000, 0x8C000000⟩,
   ⟨"SB", 0xFC000000, 0xA0000000⟩,
   ⟨"SH", 0xFC000000, 0xA4000000⟩,
   ⟨"SW", 0xFC000000, 0xAC000000⟩,
   ⟨"LL", 0xFC000000, 0xC0000000⟩,
   ⟨"SC", 0xFC000000, 0xE0000000⟩]

/-- The rows of the group Fpu. -/
def rowsFpu : List Row :=
  [⟨"ADD.S", 0xFFE0003F, 0x46000000⟩,
   ⟨"ADD.D", 0xFFE0003F, 0x46200000⟩,
   ⟨"SUB.S", 0xFFE0003F, 0x46000001⟩,
   ⟨"SUB.D", 0xFFE0003F, 0x46200001⟩,
   ⟨"MUL.S", 0xFFE0003F, 0x46000002⟩,
   ⟨"MUL.D", 0xFFE0003F, 0x46200002⟩,
   ⟨"DIV.S", 0xFFE0003F, 0x46000003⟩,
   ⟨"DIV.D", 0xFFE0003F, 0x46200003⟩,
   ⟨"ABS.S", 0xFFFF003F, 0x46000005⟩,
   ⟨"ABS.D", 0xFFFF003F, 0x46200005⟩,
   ⟨"NEG.S", 0xFFFF003F, 0x46000007⟩,
   ⟨"NEG.D", 0xFFFF003F, 0x46200007⟩,
   ⟨"CVT.S.W", 0xFFFF003F, 0x46800020⟩,
   ⟨"CVT.D.S", 0xFFFF003F, 0x46000021⟩,
   ⟨"CVT.S.D", 0xFFFF003F, 0x46200020⟩,
   ⟨"CVT.W.S", 0xFFFF003F, 0x46000024⟩,
   ⟨"CVT.W.D", 0xFFFF003F, 0x46200024⟩,
   ⟨"C.cond.S", 0xFFE007F0, 0x46000030⟩,
   ⟨"C.cond.D", 0xFFE007F0, 0x46200030⟩,
   ⟨"BC1F", 0xFFFF0000, 0x45000000⟩,
   ⟨"BC1T", 0xFFFF0000, 0x45010000⟩,
   ⟨"MFC1", 0xFFE007FF, 0x44000000⟩,
   ⟨"MTC1", 0xFFE007FF, 0x44800000⟩,
   ⟨"LWC1", 0xFC000000, 0xC4000000⟩,
   ⟨"LDC1", 0xFC000000, 0xD4000000⟩,
   ⟨"SWC1", 0xFC000000, 0xE4000000⟩,
   ⟨"SDC1", 0xFC000000, 0xF4000000⟩]

/-- The rows of the group System. -/
def rowsSystem : List Row :=
  [⟨"SYSCALL", 0xFC00003F, 0x0000000C⟩,
   ⟨"BREAK", 0xFC00003F, 0x0000000D⟩,
   ⟨"MFHI", 0xFFFF07FF, 0x00000010⟩,
   ⟨"MTHI", 0xFC1FFFFF, 0x00000011⟩,
   ⟨"MFLO", 0xFFFF07FF, 0x00000012⟩,
   ⟨"MTLO", 0xFC1FFFFF, 0x00000013⟩]

/-- Rule R120: the 88 rows of spec/opcode_table.json that are no alias. -/
def opcodeRows : List Row :=
  rowsArithmetic ++ rowsLogical ++ rowsShift ++ rowsCompare ++ rowsBranch ++ rowsJump ++ rowsMemory ++ rowsFpu ++ rowsSystem

/-! ## The encoder -/

/-- Rule R111: the R format. -/
def rWord (op : BitVec 6) (rs rt rd shamt : BitVec 5) (funct : BitVec 6) : Word :=
  op ++ rs ++ rt ++ rd ++ shamt ++ funct

/-- Rule R111: the I format. -/
def iWord (op : BitVec 6) (rs rt : BitVec 5) (imm : Imm16) : Word :=
  op ++ rs ++ rt ++ imm

/-- Rule R111: the J format. -/
def jWord (op : BitVec 6) (target : BitVec 26) : Word :=
  op ++ target

/-- Rules R310, R311: the shape of SYSCALL and BREAK, a free 20-bit code between op and funct. -/
def codeWord (op : BitVec 6) (code : BitVec 20) (funct : BitVec 6) : Word :=
  op ++ code ++ funct

/-- The word of an instruction, by the "Encoding" line of its rule. -/
def encode : Instr → Word
  | .add rd rs rt => rWord 0x00 (regBits rs) (regBits rt) (regBits rd) 0 0x20
  | .addu rd rs rt => rWord 0x00 (regBits rs) (regBits rt) (regBits rd) 0 0x21
  | .sub rd rs rt => rWord 0x00 (regBits rs) (regBits rt) (regBits rd) 0 0x22
  | .subu rd rs rt => rWord 0x00 (regBits rs) (regBits rt) (regBits rd) 0 0x23
  | .addi rt rs imm => iWord 0x08 (regBits rs) (regBits rt) imm
  | .addiu rt rs imm => iWord 0x09 (regBits rs) (regBits rt) imm
  | .mul rd rs rt => rWord 0x00 (regBits rs) (regBits rt) (regBits rd) 0x02 0x18
  | .muh rd rs rt => rWord 0x00 (regBits rs) (regBits rt) (regBits rd) 0x03 0x18
  | .mulu rd rs rt => rWord 0x00 (regBits rs) (regBits rt) (regBits rd) 0x02 0x19
  | .muhu rd rs rt => rWord 0x00 (regBits rs) (regBits rt) (regBits rd) 0x03 0x19
  | .div rd rs rt => rWord 0x00 (regBits rs) (regBits rt) (regBits rd) 0x02 0x1A
  | .mod rd rs rt => rWord 0x00 (regBits rs) (regBits rt) (regBits rd) 0x03 0x1A
  | .divu rd rs rt => rWord 0x00 (regBits rs) (regBits rt) (regBits rd) 0x02 0x1B
  | .modu rd rs rt => rWord 0x00 (regBits rs) (regBits rt) (regBits rd) 0x03 0x1B
  | .and rd rs rt => rWord 0x00 (regBits rs) (regBits rt) (regBits rd) 0 0x24
  | .or rd rs rt => rWord 0x00 (regBits rs) (regBits rt) (regBits rd) 0 0x25
  | .xor rd rs rt => rWord 0x00 (regBits rs) (regBits rt) (regBits rd) 0 0x26
  | .nor rd rs rt => rWord 0x00 (regBits rs) (regBits rt) (regBits rd) 0 0x27
  | .andi rt rs imm => iWord 0x0C (regBits rs) (regBits rt) imm
  | .ori rt rs imm => iWord 0x0D (regBits rs) (regBits rt) imm
  | .xori rt rs imm => iWord 0x0E (regBits rs) (regBits rt) imm
  | .aui rt rs imm => iWord 0x0F (regBits rs) (regBits rt) imm
  | .lui rt imm => iWord 0x0F 0 (regBits rt) imm
  | .sll rd rt shamt => rWord 0x00 0 (regBits rt) (regBits rd) shamt 0x00
  | .srl rd rt shamt => rWord 0x00 0 (regBits rt) (regBits rd) shamt 0x02
  | .sra rd rt shamt => rWord 0x00 0 (regBits rt) (regBits rd) shamt 0x03
  | .sllv rd rt rs => rWord 0x00 (regBits rs) (regBits rt) (regBits rd) 0 0x04
  | .srlv rd rt rs => rWord 0x00 (regBits rs) (regBits rt) (regBits rd) 0 0x06
  | .srav rd rt rs => rWord 0x00 (regBits rs) (regBits rt) (regBits rd) 0 0x07
  | .slt rd rs rt => rWord 0x00 (regBits rs) (regBits rt) (regBits rd) 0 0x2A
  | .sltu rd rs rt => rWord 0x00 (regBits rs) (regBits rt) (regBits rd) 0 0x2B
  | .slti rt rs imm => iWord 0x0A (regBits rs) (regBits rt) imm
  | .sltiu rt rs imm => iWord 0x0B (regBits rs) (regBits rt) imm
  | .beq rs rt offset => iWord 0x04 (regBits rs) (regBits rt) offset
  | .bne rs rt offset => iWord 0x05 (regBits rs) (regBits rt) offset
  | .blez rs offset => iWord 0x06 (regBits rs) 0x00 offset
  | .bgtz rs offset => iWord 0x07 (regBits rs) 0x00 offset
  | .bltz rs offset => iWord 0x01 (regBits rs) 0x00 offset
  | .bgez rs offset => iWord 0x01 (regBits rs) 0x01 offset
  | .bltzal rs offset => iWord 0x01 (regBits rs) 0x10 offset
  | .bgezal rs offset => iWord 0x01 (regBits rs) 0x11 offset
  | .j target => jWord 0x02 target
  | .jal target => jWord 0x03 target
  | .jr rs => rWord 0x00 (regBits rs) 0 0 0 0x08
  | .jalr rd rs => rWord 0x00 (regBits rs) 0 (regBits rd) 0 0x09
  | .jalx target => jWord 0x1D target
  | .lb rt base offset => iWord 0x20 (regBits base) (regBits rt) offset
  | .lbu rt base offset => iWord 0x24 (regBits base) (regBits rt) offset
  | .lh rt base offset => iWord 0x21 (regBits base) (regBits rt) offset
  | .lhu rt base offset => iWord 0x25 (regBits base) (regBits rt) offset
  | .lw rt base offset => iWord 0x23 (regBits base) (regBits rt) offset
  | .sb rt base offset => iWord 0x28 (regBits base) (regBits rt) offset
  | .sh rt base offset => iWord 0x29 (regBits base) (regBits rt) offset
  | .sw rt base offset => iWord 0x2B (regBits base) (regBits rt) offset
  | .ll rt base offset => iWord 0x30 (regBits base) (regBits rt) offset
  | .sc rt base offset => iWord 0x38 (regBits base) (regBits rt) offset
  | .addS fd fs ft => rWord 0x11 0x10 (regBits ft) (regBits fs) (regBits fd) 0x00
  | .addD fd fs ft => rWord 0x11 0x11 (regBits ft) (regBits fs) (regBits fd) 0x00
  | .subS fd fs ft => rWord 0x11 0x10 (regBits ft) (regBits fs) (regBits fd) 0x01
  | .subD fd fs ft => rWord 0x11 0x11 (regBits ft) (regBits fs) (regBits fd) 0x01
  | .mulS fd fs ft => rWord 0x11 0x10 (regBits ft) (regBits fs) (regBits fd) 0x02
  | .mulD fd fs ft => rWord 0x11 0x11 (regBits ft) (regBits fs) (regBits fd) 0x02
  | .divS fd fs ft => rWord 0x11 0x10 (regBits ft) (regBits fs) (regBits fd) 0x03
  | .divD fd fs ft => rWord 0x11 0x11 (regBits ft) (regBits fs) (regBits fd) 0x03
  | .absS fd fs => rWord 0x11 0x10 0 (regBits fs) (regBits fd) 0x05
  | .absD fd fs => rWord 0x11 0x11 0 (regBits fs) (regBits fd) 0x05
  | .negS fd fs => rWord 0x11 0x10 0 (regBits fs) (regBits fd) 0x07
  | .negD fd fs => rWord 0x11 0x11 0 (regBits fs) (regBits fd) 0x07
  | .cvtSW fd fs => rWord 0x11 0x14 0 (regBits fs) (regBits fd) 0x20
  | .cvtDS fd fs => rWord 0x11 0x10 0 (regBits fs) (regBits fd) 0x21
  | .cvtSD fd fs => rWord 0x11 0x11 0 (regBits fs) (regBits fd) 0x20
  | .cvtWS fd fs => rWord 0x11 0x10 0 (regBits fs) (regBits fd) 0x24
  | .cvtWD fd fs => rWord 0x11 0x11 0 (regBits fs) (regBits fd) 0x24
  | .cCondS cond fs ft => rWord 0x11 0x10 (regBits ft) (regBits fs) 0 (0b11#2 ++ cond)
  | .cCondD cond fs ft => rWord 0x11 0x11 (regBits ft) (regBits fs) 0 (0b11#2 ++ cond)
  | .bc1f offset => iWord 0x11 0x08 0x00 offset
  | .bc1t offset => iWord 0x11 0x08 0x01 offset
  | .mfc1 rt fs => rWord 0x11 0x00 (regBits rt) (regBits fs) 0 0x00
  | .mtc1 rt fs => rWord 0x11 0x04 (regBits rt) (regBits fs) 0 0x00
  | .lwc1 ft base offset => iWord 0x31 (regBits base) (regBits ft) offset
  | .ldc1 ft base offset => iWord 0x35 (regBits base) (regBits ft) offset
  | .swc1 ft base offset => iWord 0x39 (regBits base) (regBits ft) offset
  | .sdc1 ft base offset => iWord 0x3D (regBits base) (regBits ft) offset
  | .syscall code => codeWord 0x00 code 0x0C
  | .brk code => codeWord 0x00 code 0x0D
  | .mfhi rd => rWord 0x00 0 0 (regBits rd) 0 0x10
  | .mthi rs => rWord 0x00 (regBits rs) 0 0 0 0x11
  | .mflo rd => rWord 0x00 0 0 (regBits rd) 0 0x12
  | .mtlo rs => rWord 0x00 (regBits rs) 0 0 0 0x13
  | .nop => 0x00000000

/-- Rule R62: the four bytes of a word, least significant first. -/
def wordBytes (w : Word) : List Byte :=
  [w.extractLsb' 0 8, w.extractLsb' 8 8, w.extractLsb' 16 8, w.extractLsb' 24 8]

/-- The instruction the decoder reads from the `nbits` low bits of `w` (bit 0 the least significant bit of the word, as
spec/opcode_table.json numbers them), laid out as the hardware stores them. -/
def decodeTableWord (nbits w : Nat) : Option Instr :=
  (decodeBytes (wordBytes (BitVec.ofNat 32 (w % 2 ^ nbits)))).toOption

end Sys2Proof
end

