-- ==== Sys2Proof/Machine/State.lean ====
section
/-! DEFINITION. The state of the machine as plain data (rule R20), the state after reset (rules R390, R392), and the
reasons a request or a step can stop. -/

namespace Sys2Proof.Machine

/-! ## Enumerations -/

/-- Rule R33: why the most recent run stopped. -/
inductive ExitCode where
  | none
  | manualStop
  | interrupt
  | exception
  | exit
deriving DecidableEq, Repr

/-- Rules R350, R353: the exception kinds, in the source's order, with `none` for "nothing recorded". -/
inductive ExcKind where
  | none
  | addressErrorFetch
  | addressErrorData
  | arithmeticOverflow
  | reservedInstruction
  | breakpoint
  | syscall
  | machineError
deriving DecidableEq, Repr

/-- Rule R34: the exception record. -/
structure ExcRecord where
  kind : ExcKind
  pc : Word
  bd : Bool
  payload : Word
deriving DecidableEq, Repr

/-! ## The paged memory (rules R75 to R80) -/

/-- Rules R76 to R79: a resident page. `data` is the slot's bytes by offset, in the canonical form of `Cells.wf`: an
offset that is not listed holds 0. -/
structure Slot where
  page : Nat
  slot : Nat
  dirty : Bool
  data : List Host.Cell
deriving DecidableEq, Repr

/-- Rules R76, R80: a record of the swap store. The record number is the page index (log 14). -/
structure SwapRecord where
  page : Nat
  data : List Host.Cell
deriving DecidableEq, Repr

/-- Rules R76 to R80: the resident pages in LRU order, least recently used first, and the swap records by rising page
index. A page in neither list is absent. -/
structure Memory where
  resident : List Slot
  swap : List SwapRecord
deriving DecidableEq, Repr

/-! ## Parameters (rule R6) -/

/-- Rule R6: the parameters with a stated range, fixed at construction. `pageShift` is PAGE_BITS - 12, `spareSlots` is
N_SLOTS - 1 and `strRoom` is STR_MAX - 1, so that no value outside a range can be written down (log 1). -/
structure Params where
  pageShift : Fin 5
  spareSlots : Nat
  bootAddr : Word
  strRoom : Nat
deriving DecidableEq, Repr

/-- PAGE_BITS, in 12..16. -/
def Params.pageBits (p : Params) : Nat := 12 + p.pageShift.val
/-- PAGE_SIZE = 2^PAGE_BITS. -/
def Params.pageSize (p : Params) : Nat := 2 ^ p.pageBits
/-- N_SLOTS, at least 1. -/
def Params.nSlots (p : Params) : Nat := p.spareSlots + 1
/-- RAM_BUDGET = N_SLOTS * PAGE_SIZE, a positive multiple of the page size. -/
def Params.ramBudget (p : Params) : Nat := p.nSlots * p.pageSize
/-- STR_MAX, at least 1. -/
def Params.strMax (p : Params) : Nat := p.strRoom + 1

/-- Rule R6: the defaults and the example (PAGE_BITS 12, RAM_BUDGET 536870912, BOOT_ADDR 0x80000000). STR_MAX, which has
no default, is a constant without a body (log 1). -/
def Params.default : Params :=
  { pageShift := 0, spareSlots := 131071, bootAddr := 0x80000000, strRoom := Config.strRoom }

/-! ## The host-service interface (rules R15, R337) -/

/-- Rule R337: a host-service call with its arguments. -/
inductive HostCall where
  | printInteger (value : Word)
  | printFloat (pattern : Word)
  | printDouble (pattern : DWord)
  | printString (bytes : List Byte)
  | readInteger
  | readFloat
  | readDouble
  | readString (maxCount : Word)
  | openFile (name flags : List Byte)
  | readFile (fd count : Word)
  | writeFile (fd : Word) (bytes : List Byte) (count : Word)
  | closeFile (fd : Word)
deriving DecidableEq, Repr

/-- Rule R15: a value a host call returns. -/
inductive HostAnswer where
  | word (value : Word)
  | double (pattern : DWord)
  | bytes (bytes : List Byte)
deriving DecidableEq, Repr

/-- The model's own field for the free inputs (rule R39): values supplied from outside, taken in order, and the counter
that the constants of `Sys2Proof.Config` are applied to when none is supplied (log 5, 6, 8). -/
structure Env where
  answers : List HostAnswer
  swapOutcomes : List Bool
  tick : Nat
deriving DecidableEq, Repr

/-! ## The state -/

/-- Rule R20: the state of the block. The fields from `params` on are not in rule R20: the parameters of rule R6, the
host calls made so far (log 7) and the free inputs. -/
structure State where
  /-- R21: x[0..31]. -/
  gprs : Vector Word 32
  /-- R23. -/
  hi : Word
  /-- R23. -/
  lo : Word
  /-- R24: the address of the current instruction. -/
  pc : Word
  /-- R25: the address of the instruction after the current one. -/
  npc : Word
  /-- R26: the current instruction is in a delay slot. -/
  ds : Bool
  /-- R28: f[0..31]. -/
  fprs : Vector Word 32
  /-- R30: RM in bits 1:0, CC in bit 23. -/
  fcsr : Word
  /-- R31: the reservation is held. -/
  llBit : Bool
  /-- R31: the reserved address. -/
  llAddr : Word
  /-- R33. -/
  exitCode : ExitCode
  /-- R34: EXC_KIND, EXC_PC, EXC_BD, EXC_PAYLOAD. -/
  exc : ExcRecord
  /-- R35. -/
  stopReq : Bool
  /-- R35. -/
  running : Bool
  /-- R35, R86. -/
  memFailed : Bool
  /-- R60, R75 to R80. -/
  mem : Memory
  /-- R6. -/
  params : Params
  /-- R337: the host-service calls so far, in program order. -/
  calls : List HostCall
  /-- R39: the free inputs. -/
  env : Env
deriving DecidableEq, Repr

/-- Rules R390, R392: the state after construction, which is the state after reset with MEM_FAILED = 0. -/
def State.initial (p : Params) : State :=
  { gprs := Vector.replicate 32 0
    hi := 0
    lo := 0
    pc := p.bootAddr
    npc := p.bootAddr + 4
    ds := false
    fprs := Vector.replicate 32 0
    fcsr := 0
    llBit := false
    llAddr := 0
    exitCode := .none
    exc := { kind := .none, pc := 0, bd := false, payload := 0 }
    stopReq := false
    running := false
    memFailed := false
    mem := { resident := [], swap := [] }
    params := p
    calls := []
    env := { answers := [], swapOutcomes := [], tick := 0 } }

/-- The machine right after reset, with the default parameters. -/
def State.reset : State := State.initial Params.default

/-! ## Reasons to stop -/

/-- No step of this machine stops with a fault: every word and every access has a defined next state, and the
exceptions of rule R350 are next states (rule R356). -/
inductive Fault where
deriving DecidableEq, Repr

/-- Why the machine gives a request no meaning. No instruction and no step is refused. -/
inductive Refusal where
  /-- An instruction without a meaning: none (safe). -/
  | notModelled (mnemonic : String)
  /-- R369, U9: a control or inspection request other than `stop` while the core is running. Raised by
  `Machine.request` and the read requests of Machine/Control.lean (safe). -/
  | requestWhileRunning
  /-- R89, R392, U10: construction with parameters outside the space of rule R6. Raised by `Machine.construct`
  (safe). -/
  | badParameters
deriving DecidableEq, Repr

/-- What an instruction, a step or a request ends in. -/
abbrev Result := Host.Outcome State Fault Refusal

end Sys2Proof.Machine
end

