-- ==== Sys2Proof/Machine/Paging.lean ====
section
/-! DEFINITION. The bytes of a page, and the paged memory manager (rules R75 to R87) over them. -/

namespace Sys2Proof.Machine

/-! ## The bytes of one page (rule R79) -/

/-- The canonical form of a page's bytes: offsets strictly rising, and no byte that is 0, which is what an offset that
is not listed holds (rule R60: untouched memory reads as zero). -/
abbrev Cells.wf (size : Nat) (cells : List Host.Cell) : Prop :=
  cells.Pairwise (fun a b => a.1 < b.1) ∧ ∀ c ∈ cells, c.1 < size ∧ c.2 ≠ 0

/-- The byte at an offset. -/
def Cells.get : List Host.Cell → Nat → Byte
  | [], _ => 0
  | c :: rest, o => if c.1 = o then c.2 else Cells.get rest o

/-- Store a nonzero byte at an offset, keeping the offsets rising. -/
def Cells.insert (o : Nat) (b : Byte) : List Host.Cell → List Host.Cell
  | [] => [(o, b)]
  | c :: rest =>
    if o < c.1 then (o, b) :: c :: rest
    else if o = c.1 then (o, b) :: rest
    else c :: Cells.insert o b rest

/-- Store a byte at an offset. Storing 0 removes the entry. -/
def Cells.set (cells : List Host.Cell) (o : Nat) (b : Byte) : List Host.Cell :=
  if b = 0 then cells.filter (fun c => c.1 ≠ o) else Cells.insert o b cells

/-! ## Looking pages up (rules R76, R77, R79) -/

/-- The resident page with index `p`, if slot(p) is not none. -/
def Memory.slotOf (m : Memory) (p : Nat) : Option Slot :=
  m.resident.find? (fun s => s.page == p)

/-- The swap record of page `p`, if swaprec(p) is not none. -/
def Memory.recordOf (m : Memory) (p : Nat) : Option SwapRecord :=
  m.swap.find? (fun r => r.page == p)

/-- Rule R79: the bytes of page `p` that programs see. -/
def Memory.pageData (m : Memory) (p : Nat) : List Host.Cell :=
  match m.slotOf p with
  | some s => s.data
  | none =>
    match m.recordOf p with
    | some r => r.data
    | none => []

/-- Rule R79, the abstraction function: the byte M[a], with PAGE_BITS = `bits` (rule R75). -/
def Memory.byteAt (m : Memory) (bits a : Nat) : Byte :=
  Cells.get (m.pageData (a / 2 ^ bits)) (a % 2 ^ bits)

/-! ## Residency (rules R78, R80, R81, R83) -/

/-- Rule R78: move page `p` to the most recently used end. -/
def Memory.touch (m : Memory) (p : Nat) : Memory :=
  match m.slotOf p with
  | some s => { m with resident := m.resident.filter (fun t => t.page != p) ++ [s] }
  | none => m

/-- Rule R80, `swap_write`: the record of page `p` holds `data`; it is created if there is none. -/
def SwapRecord.put (p : Nat) (data : List Host.Cell) : List SwapRecord → List SwapRecord
  | [] => [{ page := p, data := data }]
  | r :: rest =>
    if p < r.page then { page := p, data := data } :: r :: rest
    else if p = r.page then { page := p, data := data } :: rest
    else r :: SwapRecord.put p data rest

/-- Rule R83, U18: a slot number not in use; the lowest one (log 14). -/
def Memory.freeSlot (m : Memory) : Nat :=
  ((List.range (m.resident.length + 1)).find? (fun n => !(m.resident.any (fun s => s.slot == n)))).getD 0

/-- Rule R86: the outcome of one swap transfer, a free input: the next one supplied from outside, else an uninterpreted
one (log 5). `true` is a transfer that completes. -/
def Env.drawSwap (e : Env) : Bool × Env :=
  match e.swapOutcomes with
  | ok :: rest => (ok, { e with swapOutcomes := rest })
  | [] => (Config.swapCompletes e.tick, { e with tick := e.tick + 1 })

/-- Rule R83: obtain a slot, evicting the least recently used page when none is free. `none` is a swap-out that
failed. -/
def Memory.obtainSlot (m : Memory) (nSlots : Nat) (e : Env) : Option (Nat × Memory) × Env :=
  if m.resident.length < nSlots then (some (m.freeSlot, m), e)
  else
    match m.resident with
    | [] => (some (m.freeSlot, m), e)
    | q :: rest =>
      if q.dirty then
        match e.drawSwap with
        | (true, e) => (some (q.slot, { resident := rest, swap := SwapRecord.put q.page q.data m.swap }), e)
        | (false, e) => (none, e)
      else (some (q.slot, { m with resident := rest }), e)

/-- Rule R81, the part that makes a page resident: a hit moves the page to the MRU end; a miss on a swapped page swaps
it in; a write miss on an absent page takes a zero-filled slot, dirty at once because the write follows; a read miss on an
absent page changes nothing (rule R82). `none` is a swap transfer that failed (rule R86). -/
def Memory.acquire (m : Memory) (nSlots p : Nat) (forWrite : Bool) (e : Env) : Option Memory × Env :=
  match m.slotOf p with
  | some _ => (some (m.touch p), e)
  | none =>
    match m.recordOf p with
    | some r =>
      match m.obtainSlot nSlots e with
      | (none, e) => (none, e)
      | (some (n, m'), e) =>
        match e.drawSwap with
        | (true, e) =>
          (some { m' with resident := m'.resident ++ [{ page := p, slot := n, dirty := false, data := r.data }] }, e)
        | (false, e) => (none, e)
    | none =>
      if forWrite then
        match m.obtainSlot nSlots e with
        | (none, e) => (none, e)
        | (some (n, m'), e) =>
          (some { m' with resident := m'.resident ++ [{ page := p, slot := n, dirty := true, data := [] }] }, e)
      else (some m, e)

/-- Rule R81, the write of one byte to a resident page: slotdata(slot(p))[o] <- value, dirty(p) <- 1. -/
def Memory.poke (m : Memory) (bits a : Nat) (b : Byte) : Memory :=
  { m with
    resident := m.resident.map fun s =>
      if s.page = a / 2 ^ bits then { s with dirty := true, data := Cells.set s.data (a % 2 ^ bits) b } else s }

/-! ## The invariant of the manager (rules R76, R77, R83, R84) -/

/-- The form of the memory: every page resident at most once, in a slot of its own below N_SLOTS; the swap records by
rising page index; every page index below 2^(32 - PAGE_BITS); every page's bytes in canonical form; and every clean
resident page has a swap record with the same bytes (rule R83: "an evicted page always keeps or gains a copy"). -/
abbrev Memory.wf (m : Memory) (bits nSlots : Nat) : Prop :=
  (m.resident.map (·.page)).Nodup ∧ (m.resident.map (·.slot)).Nodup ∧ m.resident.length ≤ nSlots ∧
  (∀ s ∈ m.resident, s.slot < nSlots ∧ s.page < 2 ^ (32 - bits) ∧ Cells.wf (2 ^ bits) s.data ∧
    (s.dirty = false → (m.recordOf s.page).map (·.data) = some s.data)) ∧
  m.swap.Pairwise (fun a b => a.page < b.page) ∧
  (∀ r ∈ m.swap, r.page < 2 ^ (32 - bits) ∧ Cells.wf (2 ^ bits) r.data)

end Sys2Proof.Machine
end

