-- ==== Sys2Proof/Machine/Ops.lean ====
section
/-! DEFINITION. The named operations over registers, the program counter and memory (rule R8), taking an exception (rule
R356), and an access to memory that can raise one (rules R66, R67, R81, R86). -/

namespace Sys2Proof.Machine

/-! ## Registers -/

/-- Rule R21: read a general register. R0 reads as zero. -/
def State.gpr (s : State) (r : Reg) : Word :=
  if r = 0 then 0 else s.gprs[r]

/-- Rule R21: write a general register. A write to R0 is discarded. -/
def State.setGpr (s : State) (r : Reg) (v : Word) : State :=
  if r = 0 then s else { s with gprs := s.gprs.set r v }

/-- Rule R28: read a floating-point register. -/
def State.fpr (s : State) (r : FReg) : Word := s.fprs[r]

/-- Rule R28: write a floating-point register. -/
def State.setFpr (s : State) (r : FReg) (v : Word) : State :=
  { s with fprs := s.fprs.set r v }

/-- Rule R29: the double in the pair of the even register `r`, whose odd register holds bits 63:32. The meanings use it
on even `r` only (rule R257). -/
def State.fd64 (s : State) (r : FReg) : DWord := s.fpr (r + 1) ++ s.fpr r

/-- Rule R29: write both halves of the pair of the even register `r`. -/
def State.setFd64 (s : State) (r : FReg) (v : DWord) : State :=
  (s.setFpr r (v.extractLsb' 0 32)).setFpr (r + 1) (v.extractLsb' 32 32)

/-! ## The program counter (rules R24 to R27, R36) -/

/-- Rule R36 step 5 after an instruction that is no control transfer. -/
def State.advance (s : State) : State :=
  { s with pc := s.npc, npc := s.npc + 4, ds := false }

/-- Rule R36 step 5 after a control transfer: `target` is the T of `pc <- T`, none for a branch that is not taken. -/
def State.advanceCti (s : State) (target : Option Word) : State :=
  { s with pc := s.npc, npc := target.getD (s.npc + 4), ds := true }

/-- Rule R27: a write of the program counter by the host. It is the only way on from an exception other than running
the same instruction again (rules R358, R360). -/
def State.writePc (s : State) (v : Word) : State :=
  { s with pc := v, npc := v + 4, ds := false }

/-! ## Taking an exception -/

/-- Rule R356: exception entry, for every kind but Syscall. In a delay slot the recorded address is the branch's.
Nothing else changes, so the state holds the instruction that raised (rule R357). -/
def State.raise (s : State) (kind : ExcKind) (payload : Word) : State :=
  { s with
    exc := { kind := kind, pc := if s.ds then s.pc - 4 else s.pc, bd := s.ds, payload := payload }
    llBit := false
    exitCode := .exception }

/-- What a part of an instruction that can raise ends in: a value and the state to go on from, or the state after
exception entry. -/
inductive Access (α : Type) where
  | done (value : α) (s : State)
  | raised (s : State)
deriving DecidableEq, Repr

/-- Go on with the value, or end with the exception. -/
def Access.andThen {α β : Type} (x : Access α) (k : α → State → Access β) : Access β :=
  match x with
  | .done v s => k v s
  | .raised s => .raised s

/-- The end of an instruction: what follows the value, or the exception. -/
def Access.finish {α : Type} (x : Access α) (k : α → State → State) : Result :=
  match x with
  | .done v s => .next (k v s)
  | .raised s => .next s

/-! ## Memory (rules R60 to R68) -/

/-- Rule R79: the byte M[a]. -/
def State.byteAt (s : State) (a : Word) : Byte :=
  s.mem.byteAt s.params.pageBits a.toNat

/-- Rule R62: the half-word at `a`, least significant byte first. -/
def State.halfAt (s : State) (a : Word) : Half :=
  s.byteAt (a + 1) ++ s.byteAt a

/-- Rule R62: the word at `a`, least significant byte first. -/
def State.wordAt (s : State) (a : Word) : Word :=
  s.byteAt (a + 3) ++ s.byteAt (a + 2) ++ s.byteAt (a + 1) ++ s.byteAt a

/-- Rule R75: the page of an address. -/
def State.pageOf (s : State) (a : Word) : Nat :=
  a.toNat / 2 ^ s.params.pageBits

/-- Rules R66, R67, R81, R86: the manager's part of an access to `a`, which raises MachineError when the memory has
failed or fails now. A failed access leaves the manager as it was before it (log 12); an aligned access of several
bytes is one access to its page (rule R81, log 13). -/
def State.access (s : State) (a : Word) (forWrite : Bool) : Access Unit :=
  if s.memFailed then .raised (s.raise .machineError a)
  else
    match s.mem.acquire s.params.nSlots (s.pageOf a) forWrite s.env with
    | (some m, e) => .done () { s with mem := m, env := e }
    | (none, e) => .raised ({ s with memFailed := true, env := e }.raise .machineError a)

/-- Rule R66 with n = 1. -/
def State.readByte (s : State) (a : Word) : Access Byte :=
  (s.access a false).andThen fun _ s => .done (s.byteAt a) s

/-- Rule R66 with n = 2. -/
def State.readHalf (s : State) (a : Word) : Access Half :=
  (s.access a false).andThen fun _ s => .done (s.halfAt a) s

/-- Rule R66 with n = 4. -/
def State.readWord (s : State) (a : Word) : Access Word :=
  (s.access a false).andThen fun _ s => .done (s.wordAt a) s

/-- Rule R66 with n = 8: two word reads, the low word first. -/
def State.readDouble (s : State) (a : Word) : Access DWord :=
  (s.readWord a).andThen fun lo s => (s.readWord (a + 4)).andThen fun hi s => .done (hi ++ lo) s

/-- Store one byte in the page that an access for writing has made resident. -/
def State.poke (s : State) (a : Word) (b : Byte) : State :=
  { s with mem := s.mem.poke s.params.pageBits a.toNat b }

/-- Store a word's bytes, least significant first. -/
def State.pokeWord (s : State) (a : Word) (v : Word) : State :=
  (((s.poke a (v.extractLsb' 0 8)).poke (a + 1) (v.extractLsb' 8 8)).poke (a + 2) (v.extractLsb' 16 8)).poke (a + 3)
    (v.extractLsb' 24 8)

/-- Rule R67 with n = 1. -/
def State.writeByte (s : State) (a : Word) (b : Byte) : Access Unit :=
  (s.access a true).andThen fun _ s => .done () (s.poke a b)

/-- Rule R67 with n = 2. -/
def State.writeHalf (s : State) (a : Word) (v : Half) : Access Unit :=
  (s.access a true).andThen fun _ s =>
    .done () ((s.poke a (v.extractLsb' 0 8)).poke (a + 1) (v.extractLsb' 8 8))

/-- Rule R67 with n = 4. -/
def State.writeWord (s : State) (a : Word) (v : Word) : Access Unit :=
  (s.access a true).andThen fun _ s => .done () (s.pokeWord a v)

/-- Rule R67 with n = 8: two word writes, the low word first. When the second raises, the first has been made (rules
R290, R357). -/
def State.writeDouble (s : State) (a : Word) (v : DWord) : Access Unit :=
  (s.writeWord a (v.extractLsb' 0 32)).andThen fun _ s => s.writeWord (a + 4) (v.extractLsb' 32 32)

/-- Rule R63: the address is a multiple of `n`, or AddressError_data is raised before memory is touched. -/
def State.aligned (s : State) (a : Word) (n : Nat) : Access Unit :=
  if a.toNat % n = 0 then .done () s else .raised (s.raise .addressErrorData a)

/-! ## Bulk transfers and strings (rules R68, R321) -/

/-- Rule R68: read `n` bytes from `a` on, one by one, addresses modulo 2^32. -/
def State.readBytes (s : State) (a : Word) : Nat → Access (List Byte)
  | 0 => .done [] s
  | n + 1 =>
    (s.readByte a).andThen fun b s =>
      (s.readBytes (a + 1) n).andThen fun bs s => .done (b :: bs) s

/-- Rules R68, R321 (`put_bytes`): write bytes from `a` on, one by one, addresses modulo 2^32. -/
def State.putBytes (s : State) (a : Word) : List Byte → Access Unit
  | [] => .done () s
  | b :: bs => (s.writeByte a b).andThen fun _ s => s.putBytes (a + 1) bs

/-- Rule R321 (`cstring`): the bytes from `a` on up to a NUL, which is not part of the string, and at most `room`
bytes. The byte after a truncated string is not read. -/
def State.cstring (s : State) (a : Word) : Nat → Access (List Byte)
  | 0 => .done [] s
  | room + 1 =>
    (s.readByte a).andThen fun b s =>
      if b = 0 then .done [] s
      else (s.cstring (a + 1) room).andThen fun bs s => .done (b :: bs) s

/-! ## The host's answers (rules R15, R337) -/

/-- A word the host answers: the next one supplied from outside, else an uninterpreted one (log 6). -/
def Env.drawWord (e : Env) : Word × Env :=
  match e.answers with
  | .word w :: rest => (w, { e with answers := rest })
  | _ => (Config.hostWord e.tick, { e with tick := e.tick + 1 })

/-- A double the host answers. -/
def Env.drawDouble (e : Env) : DWord × Env :=
  match e.answers with
  | .double d :: rest => (d, { e with answers := rest })
  | _ => (Config.hostDouble e.tick, { e with tick := e.tick + 1 })

/-- Bytes the host answers, at most `bound` of them: the bound of rules R329 and R333 on the free input. -/
def Env.drawBytes (e : Env) (bound : Nat) : List Byte × Env :=
  match e.answers with
  | .bytes bs :: rest => (bs.take bound, { e with answers := rest })
  | _ => ((Config.hostBytes e.tick).take bound, { e with tick := e.tick + 1 })

/-- Rule R337: a call of the host-service interface becomes part of the observable output. -/
def State.call (s : State) (c : HostCall) : State :=
  { s with calls := s.calls ++ [c] }

end Sys2Proof.Machine
end

