-- ==== Sys2Proof/Machine/Flags.lean ====
section
/-! DEFINITION. The overflow test of the trapping instructions (rule R151), the fields of FCSR (rule R30), and the
condition of a floating-point compare (rule R280). The machine has no other flag (rule R32). -/

namespace Sys2Proof.Machine

/-- Rule R151: a mathematical integer that is a signed 32-bit value. -/
def fitsWord (v : Int) : Bool := decide (-2 ^ 31 ≤ v) && decide (v ≤ 2 ^ 31 - 1)

/-! ## FCSR -/

/-- Rule R258: the four rounding modes. -/
inductive RoundMode where
  | nearestEven
  | towardZero
  | towardPlus
  | towardMinus
deriving DecidableEq, Repr

/-- Rule R30: the mode that a value of RM stands for. -/
def RoundMode.ofBits (b : BitVec 2) : RoundMode :=
  match b with
  | 0b00#2 => .nearestEven
  | 0b01#2 => .towardZero
  | 0b10#2 => .towardPlus
  | _ => .towardMinus

/-- FCSR.RM, bits 1:0. -/
def State.rm (s : State) : RoundMode := RoundMode.ofBits (s.fcsr.extractLsb' 0 2)

/-- FCSR.CC, bit 23. -/
def State.cc (s : State) : Bool := s.fcsr.getLsbD 23

/-- Write FCSR.CC and no other bit. -/
def State.setCc (s : State) (c : Bool) : State :=
  { s with fcsr := (s.fcsr &&& 0xFF7FFFFF) ||| (if c then 0x00800000 else 0) }

/-! ## Compare relations -/

/-- Rule R280: exactly one of the four relations holds. -/
inductive Relation where
  | less
  | equal
  | greater
  | unordered
deriving DecidableEq, Repr

/-- Rule R280: whether the condition holds. cond[3] has no effect. -/
def conditionHolds (cond : BitVec 4) (r : Relation) : Bool :=
  (cond.getLsbD 2 && decide (r = .less)) || (cond.getLsbD 1 && decide (r = .equal)) ||
    (cond.getLsbD 0 && decide (r = .unordered))

end Sys2Proof.Machine
end

