-- ==== Sys2Proof/Machine/Operands.lean ====
section
/-! DEFINITION. The operand forms: immediates (rule R113), the effective address (rule R235), the targets and the link
value of control transfers (rules R205, R206, R220), and the register fields of doubles (rule R257). -/

namespace Sys2Proof.Machine

/-- Rule R113: the sign-extended immediate of the arithmetic and compare instructions. -/
def signImm (imm : Imm16) : Word := imm.signExtend 32

/-- Rule R113: the zero-extended immediate of the logical instructions. -/
def zeroImm (imm : Imm16) : Word := imm.setWidth 32

/-- Rules R178, R179: the immediate in the upper half. -/
def upperImm (imm : Imm16) : Word := imm ++ 0#16

/-- Rule R235: base register plus sign-extended offset, modulo 2^32. -/
def State.effAddr (s : State) (base : Reg) (offset : Imm16) : Word :=
  s.gpr base + offset.signExtend 32

/-- Rule R205: the target of a branch. -/
def State.branchTarget (s : State) (offset : Imm16) : Word :=
  s.pc + 4 + (offset ++ 0b00#2).signExtend 32

/-- Rule R220: the target of a J-format jump, in the 256 MiB region of the delay slot. -/
def State.jumpTarget (s : State) (target : BitVec 26) : Word :=
  (s.pc + 4).extractLsb' 28 4 ++ target ++ 0b00#2

/-- Rule R206: the return address, after the delay slot. -/
def State.linkAddr (s : State) : Word := s.pc + 8

/-- Rule R185: the amount of a variable shift, the low five bits of the register. -/
def shiftAmount (v : Word) : Nat := (v.extractLsb' 0 5).toNat

/-- Rule R257: a register field that names a double must be even. -/
def evenReg (r : FReg) : Bool := r.val % 2 == 0

end Sys2Proof.Machine
end

