-- ==== Sys2Proof/Machine/Arithmetic.lean ====
section
/-! DEFINITION. The integer arithmetic instructions (rules R150 to R167). -/

namespace Sys2Proof.Machine

/-- Write a general register and go on: the end of every instruction that raises nothing (rule R36 step 5). -/
def State.put (s : State) (r : Reg) (v : Word) : Result :=
  .next (s.setGpr r v).advance

/-- Rule R151: write a mathematical integer, or raise ArithmeticOverflow, with payload 0 (rule R351), where it does not
fit. -/
def State.putSigned (s : State) (r : Reg) (v : Int) : Result :=
  if fitsWord v then s.put r (BitVec.ofInt 32 v) else .next (s.raise .arithmeticOverflow 0)

/-- Rule R166: write a result of a division, or nothing where the divisor is zero. -/
def State.putQuotient (s : State) (r : Reg) (divisor : Word) (v : Word) : Result :=
  if divisor = 0 then .next s.advance else s.put r v

/-- Rule R152. -/
def execAdd (rd rs rt : Reg) (s : State) : Result :=
  s.putSigned rd ((s.gpr rs).toInt + (s.gpr rt).toInt)

/-- Rule R153. -/
def execAddu (rd rs rt : Reg) (s : State) : Result :=
  s.put rd (s.gpr rs + s.gpr rt)

/-- Rule R154. -/
def execSub (rd rs rt : Reg) (s : State) : Result :=
  s.putSigned rd ((s.gpr rs).toInt - (s.gpr rt).toInt)

/-- Rule R155. -/
def execSubu (rd rs rt : Reg) (s : State) : Result :=
  s.put rd (s.gpr rs - s.gpr rt)

/-- Rule R156. -/
def execAddi (rt rs : Reg) (imm : Imm16) (s : State) : Result :=
  s.putSigned rt ((s.gpr rs).toInt + (signImm imm).toInt)

/-- Rule R157. -/
def execAddiu (rt rs : Reg) (imm : Imm16) (s : State) : Result :=
  s.put rt (s.gpr rs + signImm imm)

/-- Rule R158: the low word of the signed product. -/
def execMul (rd rs rt : Reg) (s : State) : Result :=
  s.put rd (BitVec.ofInt 32 ((s.gpr rs).toInt * (s.gpr rt).toInt))

/-- Rule R159: the high word of the signed product, rounded down. -/
def execMuh (rd rs rt : Reg) (s : State) : Result :=
  s.put rd (BitVec.ofInt 32 ((s.gpr rs).toInt * (s.gpr rt).toInt / 2 ^ 32))

/-- Rule R160: the low word of the unsigned product. -/
def execMulu (rd rs rt : Reg) (s : State) : Result :=
  s.put rd (BitVec.ofNat 32 ((s.gpr rs).toNat * (s.gpr rt).toNat))

/-- Rule R161: the high word of the unsigned product. -/
def execMuhu (rd rs rt : Reg) (s : State) : Result :=
  s.put rd (BitVec.ofNat 32 ((s.gpr rs).toNat * (s.gpr rt).toNat / 2 ^ 32))

/-- Rule R162: the quotient rounded toward zero; -2^31 / -1 wraps. -/
def execDiv (rd rs rt : Reg) (s : State) : Result :=
  s.putQuotient rd (s.gpr rt) (BitVec.ofInt 32 ((s.gpr rs).toInt.tdiv (s.gpr rt).toInt))

/-- Rule R163: the remainder, with the sign of the dividend. -/
def execMod (rd rs rt : Reg) (s : State) : Result :=
  s.putQuotient rd (s.gpr rt) (BitVec.ofInt 32 ((s.gpr rs).toInt.tmod (s.gpr rt).toInt))

/-- Rule R164. -/
def execDivu (rd rs rt : Reg) (s : State) : Result :=
  s.putQuotient rd (s.gpr rt) (BitVec.ofNat 32 ((s.gpr rs).toNat / (s.gpr rt).toNat))

/-- Rule R165. -/
def execModu (rd rs rt : Reg) (s : State) : Result :=
  s.putQuotient rd (s.gpr rt) (BitVec.ofNat 32 ((s.gpr rs).toNat % (s.gpr rt).toNat))

end Sys2Proof.Machine
end

