-- ==== Sys2Proof/Machine/Branches.lean ====
section
/-! DEFINITION. The conditional branches (rules R205 to R216). -/

namespace Sys2Proof.Machine

/-- Rule R207: a control transfer in a delay slot raises ReservedInstruction with its own word as payload; otherwise it
may write a link register (rule R206) and it hands its target, if it takes one, to the step. -/
def State.transfer (s : State) (i : Instr) (link : Option Reg) (target : Option Word) : Result :=
  if s.ds then .next (s.raise .reservedInstruction (encode i))
  else
    match link with
    | some r => .next ((s.setGpr r s.linkAddr).advanceCti target)
    | none => .next (s.advanceCti target)

/-- Rule R205: a branch with its condition. -/
def State.branch (s : State) (i : Instr) (link : Option Reg) (taken : Bool) (offset : Imm16) : Result :=
  s.transfer i link (if taken then some (s.branchTarget offset) else none)

/-- Rule R208. -/
def execBeq (rs rt : Reg) (offset : Imm16) (s : State) : Result :=
  s.branch (.beq rs rt offset) none (s.gpr rs == s.gpr rt) offset

/-- Rule R209. -/
def execBne (rs rt : Reg) (offset : Imm16) (s : State) : Result :=
  s.branch (.bne rs rt offset) none (s.gpr rs != s.gpr rt) offset

/-- Rule R210. -/
def execBlez (rs : Reg) (offset : Imm16) (s : State) : Result :=
  s.branch (.blez rs offset) none ((s.gpr rs).sle 0) offset

/-- Rule R211. -/
def execBgtz (rs : Reg) (offset : Imm16) (s : State) : Result :=
  s.branch (.bgtz rs offset) none ((0 : Word).slt (s.gpr rs)) offset

/-- Rule R212. -/
def execBltz (rs : Reg) (offset : Imm16) (s : State) : Result :=
  s.branch (.bltz rs offset) none ((s.gpr rs).slt 0) offset

/-- Rule R213. -/
def execBgez (rs : Reg) (offset : Imm16) (s : State) : Result :=
  s.branch (.bgez rs offset) none ((0 : Word).sle (s.gpr rs)) offset

/-- Rule R214: links whether or not it is taken; the condition is on the old register, also for rs = 31. -/
def execBltzal (rs : Reg) (offset : Imm16) (s : State) : Result :=
  s.branch (.bltzal rs offset) (some 31) ((s.gpr rs).slt 0) offset

/-- Rule R215. -/
def execBgezal (rs : Reg) (offset : Imm16) (s : State) : Result :=
  s.branch (.bgezal rs offset) (some 31) ((0 : Word).sle (s.gpr rs)) offset

end Sys2Proof.Machine
end

