-- ==== Sys2Proof/Machine/Compare.lean ====
section
/-! DEFINITION. The compare instructions (rules R195 to R199). -/

namespace Sys2Proof.Machine

/-- Rule R195: the word 1 or the word 0. -/
def boolWord (b : Bool) : Word := if b then 1 else 0

/-- Rule R196. -/
def execSlt (rd rs rt : Reg) (s : State) : Result :=
  s.put rd (boolWord ((s.gpr rs).slt (s.gpr rt)))

/-- Rule R197. -/
def execSltu (rd rs rt : Reg) (s : State) : Result :=
  s.put rd (boolWord ((s.gpr rs).ult (s.gpr rt)))

/-- Rule R198. -/
def execSlti (rt rs : Reg) (imm : Imm16) (s : State) : Result :=
  s.put rt (boolWord ((s.gpr rs).slt (signImm imm)))

/-- Rule R199: the immediate is sign-extended, then compared unsigned. -/
def execSltiu (rt rs : Reg) (imm : Imm16) (s : State) : Result :=
  s.put rt (boolWord ((s.gpr rs).ult (signImm imm)))

end Sys2Proof.Machine
end

