-- ==== Sys2Proof/Machine/Float.lean ====
section
/-! DEFINITION. IEEE 754 binary32 and binary64 as exact arithmetic on natural numbers with one rounding at the end
(rules R255 to R262, R280, R291). A finite value is a sign and a count of units, the unit being the least positive
subnormal of its format. -/

namespace Sys2Proof.Machine

/-! ## Formats (rule R255) -/

/-- The width of the exponent field. -/
def expBits : Fmt → Nat
  | .S => 8
  | .D => 11

/-- The width of the fraction field. -/
def fracBits : Fmt → Nat
  | .S => 23
  | .D => 52

/-- The exponent bias. -/
def bias : Fmt → Nat
  | .S => 127
  | .D => 1023

/-- One is `2 ^ unitBits` units, the least positive subnormal being `2 ^ -unitBits`. -/
def unitBits (F : Fmt) : Nat := bias F + fracBits F - 1

/-- The pattern of an infinity without its sign. -/
def infBits (F : Fmt) : Nat := (2 ^ expBits F - 1) * 2 ^ fracBits F

/-- A magnitude pattern with a sign. -/
def withSign (F : Fmt) (neg : Bool) (magnitude : Nat) : Nat :=
  if neg then 2 ^ (expBits F + fracBits F) + magnitude else magnitude

/-- What a pattern stands for. -/
inductive FloatVal where
  | nan
  | inf (neg : Bool)
  | fin (neg : Bool) (units : Nat)
deriving DecidableEq, Repr

/-- Rule R255: the value of a pattern. Subnormals have their exact value (rule R260). -/
def unpack (F : Fmt) (x : Nat) : FloatVal :=
  let neg := decide (x / 2 ^ (expBits F + fracBits F) % 2 = 1)
  let e := x / 2 ^ fracBits F % 2 ^ expBits F
  let f := x % 2 ^ fracBits F
  if e = 2 ^ expBits F - 1 then (if f = 0 then .inf neg else .nan)
  else if e = 0 then .fin neg f
  else .fin neg ((2 ^ fracBits F + f) * 2 ^ (e - 1))

/-! ## Rounding (rule R258) -/

/-- `num / den` rounded to a natural number, as the magnitude of a value of the given sign. -/
def roundQuot (rm : RoundMode) (neg : Bool) (num den : Nat) : Nat :=
  let q := num / den
  let r := num % den
  let up :=
    match rm with
    | .nearestEven => decide (den < 2 * r) || (decide (2 * r = den) && decide (q % 2 = 1))
    | .towardZero => false
    | .towardPlus => decide (r ≠ 0) && !neg
    | .towardMinus => decide (r ≠ 0) && neg
  if up then q + 1 else q

/-- What an overflow delivers, without its sign. -/
def overflowBits (F : Fmt) (rm : RoundMode) (neg : Bool) : Nat :=
  match rm with
  | .nearestEven => infBits F
  | .towardZero => infBits F - 1
  | .towardPlus => if neg then infBits F - 1 else infBits F
  | .towardMinus => if neg then infBits F else infBits F - 1

/-- The pattern of `num / den` units rounded once to the format, with the sign given. `shift` is the number of low
units that the format cannot hold at this magnitude. -/
def roundUnits (F : Fmt) (rm : RoundMode) (neg : Bool) (num den : Nat) : Nat :=
  let shift := Nat.log2 (num / den) - fracBits F
  let bits := shift * 2 ^ fracBits F + roundQuot rm neg num (den * 2 ^ shift)
  withSign F neg (if bits < infBits F then bits else overflowBits F rm neg)

/-- Rule R259, FP_NAN: a NaN of the format with the sign and the fraction of `raw`, whose fraction 0 is taken as 1, so
that every NaN is some `raw`'s. -/
def nanBits (F : Fmt) (raw : Nat) : Nat :=
  let f := raw % 2 ^ fracBits F
  withSign F (decide (raw / 2 ^ (expBits F + fracBits F) % 2 = 1)) (infBits F + (if f = 0 then 1 else f))

/-- The NaN an operation delivers. -/
def fpNan (F : Fmt) (op : FpOp) (a b : Nat) : Nat :=
  nanBits F (Config.fpNan F op (BitVec.ofNat 64 a) (BitVec.ofNat 64 b)).toNat

/-! ## Arithmetic (rules R260 to R262) -/

/-- A signed count of units. -/
def signedUnits (neg : Bool) (units : Nat) : Int := if neg then -(units : Int) else units

/-- Rule R260: the sign of an exact sum that is zero: both operands' when they agree, else minus in RM 3 only. -/
def zeroSumNeg (rm : RoundMode) (na nb : Bool) : Bool :=
  if na = nb then na else decide (rm = .towardMinus)

/-- The sum of two values: none where it is a NaN. -/
def addVals (F : Fmt) (rm : RoundMode) : FloatVal → FloatVal → Option Nat
  | .nan, _ => none
  | _, .nan => none
  | .inf na, .inf nb => if na = nb then some (withSign F na (infBits F)) else none
  | .inf na, .fin _ _ => some (withSign F na (infBits F))
  | .fin _ _, .inf nb => some (withSign F nb (infBits F))
  | .fin na a, .fin nb b =>
    let v := signedUnits na a + signedUnits nb b
    some (roundUnits F rm (if v = 0 then zeroSumNeg rm na nb else decide (v < 0)) v.natAbs 1)

/-- The value with the other sign. -/
def FloatVal.negate : FloatVal → FloatVal
  | .nan => .nan
  | .inf neg => .inf (!neg)
  | .fin neg units => .fin (!neg) units

/-- The product of two values: none where it is a NaN. -/
def mulVals (F : Fmt) (rm : RoundMode) : FloatVal → FloatVal → Option Nat
  | .nan, _ => none
  | _, .nan => none
  | .inf na, .inf nb => some (withSign F (na ^^ nb) (infBits F))
  | .inf na, .fin nb b => if b = 0 then none else some (withSign F (na ^^ nb) (infBits F))
  | .fin na a, .inf nb => if a = 0 then none else some (withSign F (na ^^ nb) (infBits F))
  | .fin na a, .fin nb b => some (roundUnits F rm (na ^^ nb) (a * b) (2 ^ unitBits F))

/-- The quotient of two values: none where it is a NaN. -/
def divVals (F : Fmt) (rm : RoundMode) : FloatVal → FloatVal → Option Nat
  | .nan, _ => none
  | _, .nan => none
  | .inf _, .inf _ => none
  | .inf na, .fin nb _ => some (withSign F (na ^^ nb) (infBits F))
  | .fin na _, .inf nb => some (withSign F (na ^^ nb) 0)
  | .fin na a, .fin nb b =>
    if b = 0 then (if a = 0 then none else some (withSign F (na ^^ nb) (infBits F)))
    else some (roundUnits F rm (na ^^ nb) (a * 2 ^ unitBits F) b)

/-- Rule R262: arith_F(op, a, b) on patterns. -/
def fpAdd (F : Fmt) (rm : RoundMode) (a b : Nat) : Nat :=
  (addVals F rm (unpack F a) (unpack F b)).getD (fpNan F .add a b)

/-- Rule R262 with op = -. -/
def fpSub (F : Fmt) (rm : RoundMode) (a b : Nat) : Nat :=
  (addVals F rm (unpack F a) (unpack F b).negate).getD (fpNan F .sub a b)

/-- Rule R262 with op = *. -/
def fpMul (F : Fmt) (rm : RoundMode) (a b : Nat) : Nat :=
  (mulVals F rm (unpack F a) (unpack F b)).getD (fpNan F .mul a b)

/-- Rule R262 with op = /. -/
def fpDiv (F : Fmt) (rm : RoundMode) (a b : Nat) : Nat :=
  (divVals F rm (unpack F a) (unpack F b)).getD (fpNan F .div a b)

/-! ## Conversions (rules R275 to R277, R291) -/

/-- Rule R275: a 32-bit integer as a binary32 pattern. -/
def intToSingle (rm : RoundMode) (v : Int) : Nat :=
  roundUnits .S rm (decide (v < 0)) (v.natAbs * 2 ^ unitBits .S) 1

/-- Rules R276, R277: a value of one format in the other; a NaN delivers FP_NAN, with the operand given twice. -/
def convert (F G : Fmt) (rm : RoundMode) (x : Nat) : Nat :=
  match unpack F x with
  | .nan => fpNan G .cvt x x
  | .inf neg => withSign G neg (infBits G)
  | .fin neg units => roundUnits G rm neg (units * 2 ^ unitBits G) (2 ^ unitBits F)

/-- Rule R291: to_w. -/
def toWord (F : Fmt) (rm : RoundMode) (x : Nat) : Word :=
  match unpack F x with
  | .nan => Config.cvtWInvalid
  | .inf _ => Config.cvtWInvalid
  | .fin neg units =>
    let n := signedUnits neg (roundQuot rm neg units (2 ^ unitBits F))
    if fitsWord n then BitVec.ofInt 32 n else Config.cvtWInvalid

/-! ## Comparison (rule R280) -/

/-- The relation of two values. The two zeros are equal. -/
def relate : FloatVal → FloatVal → Relation
  | .nan, _ => .unordered
  | _, .nan => .unordered
  | .inf na, .inf nb => if na = nb then .equal else if na then .less else .greater
  | .inf na, .fin _ _ => if na then .less else .greater
  | .fin _ _, .inf nb => if nb then .greater else .less
  | .fin na a, .fin nb b =>
    if signedUnits na a < signedUnits nb b then .less
    else if signedUnits na a = signedUnits nb b then .equal
    else .greater

end Sys2Proof.Machine
end

