-- ==== Sys2Proof/Machine/LoadStore.lean ====
section
/-! DEFINITION. The integer loads and stores, LL and SC (rules R235 to R247). -/

namespace Sys2Proof.Machine

/-- Rule R236: the alignment check, the read, then the write-back. -/
def State.load {α : Type} (s : State) (a : Word) (n : Nat) (read : State → Access α) (writeBack : α → State → State) :
    Result :=
  ((s.aligned a n).andThen fun _ s => read s).finish fun v s => (writeBack v s).advance

/-- Rule R236: the alignment check, then the write. -/
def State.store (s : State) (a : Word) (n : Nat) (write : State → Access Unit) : Result :=
  ((s.aligned a n).andThen fun _ s => write s).finish fun _ s => s.advance

/-- Rule R237. -/
def execLb (rt base : Reg) (offset : Imm16) (s : State) : Result :=
  let a := s.effAddr base offset
  s.load a 1 (·.readByte a) fun v s => s.setGpr rt (v.signExtend 32)

/-- Rule R238. -/
def execLbu (rt base : Reg) (offset : Imm16) (s : State) : Result :=
  let a := s.effAddr base offset
  s.load a 1 (·.readByte a) fun v s => s.setGpr rt (v.setWidth 32)

/-- Rule R239. -/
def execLh (rt base : Reg) (offset : Imm16) (s : State) : Result :=
  let a := s.effAddr base offset
  s.load a 2 (·.readHalf a) fun v s => s.setGpr rt (v.signExtend 32)

/-- Rule R240. -/
def execLhu (rt base : Reg) (offset : Imm16) (s : State) : Result :=
  let a := s.effAddr base offset
  s.load a 2 (·.readHalf a) fun v s => s.setGpr rt (v.setWidth 32)

/-- Rule R241. -/
def execLw (rt base : Reg) (offset : Imm16) (s : State) : Result :=
  let a := s.effAddr base offset
  s.load a 4 (·.readWord a) fun v s => s.setGpr rt v

/-- Rule R242. -/
def execSb (rt base : Reg) (offset : Imm16) (s : State) : Result :=
  let a := s.effAddr base offset
  s.store a 1 (·.writeByte a ((s.gpr rt).extractLsb' 0 8))

/-- Rule R243. -/
def execSh (rt base : Reg) (offset : Imm16) (s : State) : Result :=
  let a := s.effAddr base offset
  s.store a 2 (·.writeHalf a ((s.gpr rt).extractLsb' 0 16))

/-- Rule R244. -/
def execSw (rt base : Reg) (offset : Imm16) (s : State) : Result :=
  let a := s.effAddr base offset
  s.store a 4 (·.writeWord a (s.gpr rt))

/-- Rule R245. -/
def execLl (rt base : Reg) (offset : Imm16) (s : State) : Result :=
  let a := s.effAddr base offset
  s.load a 4 (·.readWord a) fun v s => { s.setGpr rt v with llBit := true, llAddr := a }

/-- Rule R246: SC whose store takes place. -/
def State.scSuccess (s : State) (rt : Reg) (a : Word) : Result :=
  (s.writeWord a (s.gpr rt)).finish fun _ s => State.advance { s.setGpr rt 1 with llBit := false }

/-- Rule R246: SC whose store does not take place. -/
def State.scFailure (s : State) (rt : Reg) : Result :=
  .next (State.advance { s.setGpr rt 0 with llBit := false })

/-- Rule R246, SC_MISMATCH: the open choice, drawn afresh at every use (log 4). -/
def State.scMismatch (s : State) : Bool × State :=
  (Config.scMismatch s.env.tick, { s with env := { s.env with tick := s.env.tick + 1 } })

/-- Rule R246. -/
def execSc (rt base : Reg) (offset : Imm16) (s : State) : Result :=
  let a := s.effAddr base offset
  match s.aligned a 4 with
  | .raised s => .next s
  | .done _ s =>
    if s.llBit then
      if a = s.llAddr then s.scSuccess rt a
      else
        match s.scMismatch with
        | (true, s) => s.scSuccess rt a
        | (false, s) => s.scFailure rt
    else s.scFailure rt

end Sys2Proof.Machine
end

