-- ==== Sys2Proof/Machine/Fpu.lean ====
section
/-! DEFINITION. The floating-point instructions (rules R255 to R291). -/

namespace Sys2Proof.Machine

/-! ## Shared shapes -/

/-- Write a 32-bit register from a pattern and go on. -/
def State.putSingle (s : State) (fd : FReg) (v : Word) : Result :=
  .next (s.setFpr fd v).advance

/-- Write a pair and go on. -/
def State.putDouble (s : State) (fd : FReg) (v : DWord) : Result :=
  .next (s.setFd64 fd v).advance

/-- Rule R257: an instruction whose register fields for doubles must all be even, checked before anything else. -/
def State.whenEven (s : State) (i : Instr) (doubles : List FReg) (run : State → Result) : Result :=
  if doubles.all evenReg then run s else .next (s.raise .reservedInstruction (encode i))

/-- An arithmetic operation of fmt S. -/
def State.arithS (s : State) (op : Fmt → RoundMode → Nat → Nat → Nat) (fd fs ft : FReg) : Result :=
  s.putSingle fd (BitVec.ofNat 32 (op .S s.rm (s.fpr fs).toNat (s.fpr ft).toNat))

/-- An arithmetic operation of fmt D. -/
def State.arithD (s : State) (i : Instr) (op : Fmt → RoundMode → Nat → Nat → Nat) (fd fs ft : FReg) : Result :=
  s.whenEven i [fd, fs, ft] fun s =>
    s.putDouble fd (BitVec.ofNat 64 (op .D s.rm (s.fd64 fs).toNat (s.fd64 ft).toNat))

/-! ## Arithmetic -/

/-- Rule R263. -/
def execAddS (fd fs ft : FReg) (s : State) : Result := s.arithS fpAdd fd fs ft

/-- Rule R264. -/
def execAddD (fd fs ft : FReg) (s : State) : Result := s.arithD (.addD fd fs ft) fpAdd fd fs ft

/-- Rule R265. -/
def execSubS (fd fs ft : FReg) (s : State) : Result := s.arithS fpSub fd fs ft

/-- Rule R266. -/
def execSubD (fd fs ft : FReg) (s : State) : Result := s.arithD (.subD fd fs ft) fpSub fd fs ft

/-- Rule R267. -/
def execMulS (fd fs ft : FReg) (s : State) : Result := s.arithS fpMul fd fs ft

/-- Rule R268. -/
def execMulD (fd fs ft : FReg) (s : State) : Result := s.arithD (.mulD fd fs ft) fpMul fd fs ft

/-- Rule R269. -/
def execDivS (fd fs ft : FReg) (s : State) : Result := s.arithS fpDiv fd fs ft

/-- Rule R270. -/
def execDivD (fd fs ft : FReg) (s : State) : Result := s.arithD (.divD fd fs ft) fpDiv fd fs ft

/-! ## Sign operations, on the bit pattern -/

/-- Rule R271. -/
def execAbsS (fd fs : FReg) (s : State) : Result :=
  s.putSingle fd (s.fpr fs &&& 0x7FFFFFFF)

/-- Rule R272. -/
def execAbsD (fd fs : FReg) (s : State) : Result :=
  s.whenEven (.absD fd fs) [fd, fs] fun s => s.putDouble fd (s.fd64 fs &&& 0x7FFFFFFFFFFFFFFF)

/-- Rule R273. -/
def execNegS (fd fs : FReg) (s : State) : Result :=
  s.putSingle fd (s.fpr fs ^^^ 0x80000000)

/-- Rule R274. -/
def execNegD (fd fs : FReg) (s : State) : Result :=
  s.whenEven (.negD fd fs) [fd, fs] fun s => s.putDouble fd (s.fd64 fs ^^^ 0x8000000000000000)

/-! ## Conversions -/

/-- Rule R275. -/
def execCvtSW (fd fs : FReg) (s : State) : Result :=
  s.putSingle fd (BitVec.ofNat 32 (intToSingle s.rm (s.fpr fs).toInt))

/-- Rule R276: fs may be odd. -/
def execCvtDS (fd fs : FReg) (s : State) : Result :=
  s.whenEven (.cvtDS fd fs) [fd] fun s =>
    s.putDouble fd (BitVec.ofNat 64 (convert .S .D s.rm (s.fpr fs).toNat))

/-- Rule R277: fd may be odd. -/
def execCvtSD (fd fs : FReg) (s : State) : Result :=
  s.whenEven (.cvtSD fd fs) [fs] fun s =>
    s.putSingle fd (BitVec.ofNat 32 (convert .D .S s.rm (s.fd64 fs).toNat))

/-- Rule R278. -/
def execCvtWS (fd fs : FReg) (s : State) : Result :=
  s.putSingle fd (toWord .S s.rm (s.fpr fs).toNat)

/-- Rule R279: fd may be odd. -/
def execCvtWD (fd fs : FReg) (s : State) : Result :=
  s.whenEven (.cvtWD fd fs) [fs] fun s => s.putSingle fd (toWord .D s.rm (s.fd64 fs).toNat)

/-! ## Compare and branch -/

/-- Rule R281. -/
def execCCondS (cond : BitVec 4) (fs ft : FReg) (s : State) : Result :=
  .next (s.setCc (conditionHolds cond
    (relate (unpack .S (s.fpr fs).toNat) (unpack .S (s.fpr ft).toNat)))).advance

/-- Rule R282. -/
def execCCondD (cond : BitVec 4) (fs ft : FReg) (s : State) : Result :=
  s.whenEven (.cCondD cond fs ft) [fs, ft] fun s =>
    .next (s.setCc (conditionHolds cond
      (relate (unpack .D (s.fd64 fs).toNat) (unpack .D (s.fd64 ft).toNat)))).advance

/-- Rule R283. -/
def execBc1f (offset : Imm16) (s : State) : Result :=
  s.branch (.bc1f offset) none (!s.cc) offset

/-- Rule R284. -/
def execBc1t (offset : Imm16) (s : State) : Result :=
  s.branch (.bc1t offset) none s.cc offset

/-! ## Moves -/

/-- Rule R285. -/
def execMfc1 (rt : Reg) (fs : FReg) (s : State) : Result :=
  .next (s.setGpr rt (s.fpr fs)).advance

/-- Rule R286. -/
def execMtc1 (rt : Reg) (fs : FReg) (s : State) : Result :=
  s.putSingle fs (s.gpr rt)

/-! ## Loads and stores -/

/-- Rule R287. -/
def execLwc1 (ft : FReg) (base : Reg) (offset : Imm16) (s : State) : Result :=
  let a := s.effAddr base offset
  s.load a 4 (·.readWord a) fun v s => s.setFpr ft v

/-- Rule R288. -/
def execLdc1 (ft : FReg) (base : Reg) (offset : Imm16) (s : State) : Result :=
  s.whenEven (.ldc1 ft base offset) [ft] fun s =>
    let a := s.effAddr base offset
    s.load a 8 (·.readDouble a) fun v s => s.setFd64 ft v

/-- Rule R289. -/
def execSwc1 (ft : FReg) (base : Reg) (offset : Imm16) (s : State) : Result :=
  let a := s.effAddr base offset
  s.store a 4 (·.writeWord a (s.fpr ft))

/-- Rule R290. -/
def execSdc1 (ft : FReg) (base : Reg) (offset : Imm16) (s : State) : Result :=
  s.whenEven (.sdc1 ft base offset) [ft] fun s =>
    let a := s.effAddr base offset
    s.store a 8 (·.writeDouble a (s.fd64 ft))

end Sys2Proof.Machine
end

