-- ==== Sys2Proof/Machine/Jumps.lean ====
section
/-! DEFINITION. The jumps (rules R220 to R227). -/

namespace Sys2Proof.Machine

/-- Rule R221. -/
def execJ (target : BitVec 26) (s : State) : Result :=
  s.transfer (.j target) none (some (s.jumpTarget target))

/-- Rule R222. -/
def execJal (target : BitVec 26) (s : State) : Result :=
  s.transfer (.jal target) (some 31) (some (s.jumpTarget target))

/-- Rules R223, R226: the target may be misaligned. -/
def execJr (rs : Reg) (s : State) : Result :=
  s.transfer (.jr rs) none (some (s.gpr rs))

/-- Rule R224: jumps to the old x[rs], also for rd = rs. -/
def execJalr (rd rs : Reg) (s : State) : Result :=
  s.transfer (.jalr rd rs) (some rd) (some (s.gpr rs))

/-- Rule R225: JAL under another opcode. -/
def execJalx (target : BitVec 26) (s : State) : Result :=
  s.transfer (.jalx target) (some 31) (some (s.jumpTarget target))

end Sys2Proof.Machine
end

