-- ==== Sys2Proof/Machine/Logical.lean ====
section
/-! DEFINITION. The logical instructions (rules R170 to R179). -/

namespace Sys2Proof.Machine

/-- Rule R171. -/
def execAnd (rd rs rt : Reg) (s : State) : Result :=
  s.put rd (s.gpr rs &&& s.gpr rt)

/-- Rule R172. -/
def execOr (rd rs rt : Reg) (s : State) : Result :=
  s.put rd (s.gpr rs ||| s.gpr rt)

/-- Rule R173. -/
def execXor (rd rs rt : Reg) (s : State) : Result :=
  s.put rd (s.gpr rs ^^^ s.gpr rt)

/-- Rule R174. -/
def execNor (rd rs rt : Reg) (s : State) : Result :=
  s.put rd (~~~(s.gpr rs ||| s.gpr rt))

/-- Rule R175. -/
def execAndi (rt rs : Reg) (imm : Imm16) (s : State) : Result :=
  s.put rt (s.gpr rs &&& zeroImm imm)

/-- Rule R176. -/
def execOri (rt rs : Reg) (imm : Imm16) (s : State) : Result :=
  s.put rt (s.gpr rs ||| zeroImm imm)

/-- Rule R177. -/
def execXori (rt rs : Reg) (imm : Imm16) (s : State) : Result :=
  s.put rt (s.gpr rs ^^^ zeroImm imm)

/-- Rule R178. -/
def execAui (rt rs : Reg) (imm : Imm16) (s : State) : Result :=
  s.put rt (s.gpr rs + upperImm imm)

/-- Rule R179. -/
def execLui (rt : Reg) (imm : Imm16) (s : State) : Result :=
  s.put rt (upperImm imm)

end Sys2Proof.Machine
end

