-- ==== Sys2Proof/Machine/Shifts.lean ====
section
/-! DEFINITION. The shift instructions (rules R185 to R191). The value shifted is rt's. -/

namespace Sys2Proof.Machine

/-- Rule R186. -/
def execSll (rd rt : Reg) (shamt : Shamt) (s : State) : Result :=
  s.put rd (s.gpr rt <<< shamt.toNat)

/-- Rule R187. -/
def execSrl (rd rt : Reg) (shamt : Shamt) (s : State) : Result :=
  s.put rd (s.gpr rt >>> shamt.toNat)

/-- Rule R188. -/
def execSra (rd rt : Reg) (shamt : Shamt) (s : State) : Result :=
  s.put rd ((s.gpr rt).sshiftRight shamt.toNat)

/-- Rule R189. -/
def execSllv (rd rt rs : Reg) (s : State) : Result :=
  s.put rd (s.gpr rt <<< shiftAmount (s.gpr rs))

/-- Rule R190. -/
def execSrlv (rd rt rs : Reg) (s : State) : Result :=
  s.put rd (s.gpr rt >>> shiftAmount (s.gpr rs))

/-- Rule R191. -/
def execSrav (rd rt rs : Reg) (s : State) : Result :=
  s.put rd ((s.gpr rt).sshiftRight (shiftAmount (s.gpr rs)))

end Sys2Proof.Machine
end

