-- ==== Sys2Proof/Machine/Services.lean ====
section
/-! DEFINITION. The fourteen services of SYSCALL (rules R320 to R337). A service takes its arguments from R4 to R6 and
the floating-point registers, and writes its result, if it has one, to R2, F0 or the pair F0/F1. -/

namespace Sys2Proof.Machine

/-- Rule R320: the services. -/
inductive Service where
  | printInt
  | printFloat
  | printDouble
  | printString
  | readInt
  | readFloat
  | readDouble
  | readString
  | sbrk
  | exit
  | fileOpen
  | fileRead
  | fileWrite
  | fileClose
deriving DecidableEq, Repr

/-- Rules R310, R320, R336: the service of a number; every other number is unknown. -/
def Service.ofNumber (n : Word) : Option Service :=
  match n.toNat with
  | 1 => some .printInt
  | 2 => some .printFloat
  | 3 => some .printDouble
  | 4 => some .printString
  | 5 => some .readInt
  | 6 => some .readFloat
  | 7 => some .readDouble
  | 8 => some .readString
  | 9 => some .sbrk
  | 10 => some .exit
  | 13 => some .fileOpen
  | 14 => some .fileRead
  | 15 => some .fileWrite
  | 16 => some .fileClose
  | _ => none

/-- Rule R322. -/
def servePrintInt (s : State) : Access Unit :=
  .done () (s.call (.printInteger (s.gpr 4)))

/-- Rule R323. -/
def servePrintFloat (s : State) : Access Unit :=
  .done () (s.call (.printFloat (s.fpr 12)))

/-- Rule R324. -/
def servePrintDouble (s : State) : Access Unit :=
  .done () (s.call (.printDouble (s.fd64 12)))

/-- Rule R325. -/
def servePrintString (s : State) : Access Unit :=
  (s.cstring (s.gpr 4) s.params.strMax).andThen fun bs s => .done () (s.call (.printString bs))

/-- Rule R326. -/
def serveReadInt (s : State) : Access Unit :=
  let (w, e) := s.env.drawWord
  .done () ({ s.call .readInteger with env := e }.setGpr 2 w)

/-- Rule R327. -/
def serveReadFloat (s : State) : Access Unit :=
  let (w, e) := s.env.drawWord
  .done () ({ s.call .readFloat with env := e }.setFpr 0 w)

/-- Rule R328. -/
def serveReadDouble (s : State) : Access Unit :=
  let (d, e) := s.env.drawDouble
  .done () ({ s.call .readDouble with env := e }.setFd64 0 d)

/-- Rule R329. -/
def serveReadString (s : State) : Access Unit :=
  let (bs, e) := s.env.drawBytes (s.gpr 5).toNat
  { s.call (.readString (s.gpr 5)) with env := e }.putBytes (s.gpr 4) bs

/-- Rule R331. -/
def serveSbrk (s : State) : Access Unit :=
  .done () (s.setGpr 2 0)

/-- Rule R330. -/
def serveExit (s : State) : Access Unit :=
  .done () { s with exitCode := .exit }

/-- Rule R332. -/
def serveFileOpen (s : State) : Access Unit :=
  (s.cstring (s.gpr 4) s.params.strMax).andThen fun name s =>
    (s.cstring (s.gpr 5) s.params.strMax).andThen fun flags s =>
      let (w, e) := s.env.drawWord
      .done () ({ s.call (.openFile name flags) with env := e }.setGpr 2 w)

/-- Rule R333: the count is the number of bytes delivered. -/
def serveFileRead (s : State) : Access Unit :=
  let (bs, e) := s.env.drawBytes (s.gpr 6).toNat
  ({ s.call (.readFile (s.gpr 4) (s.gpr 6)) with env := e }.putBytes (s.gpr 5) bs).andThen fun _ s =>
    .done () (s.setGpr 2 (BitVec.ofNat 32 bs.length))

/-- Rule R334. -/
def serveFileWrite (s : State) : Access Unit :=
  (s.readBytes (s.gpr 5) (s.gpr 6).toNat).andThen fun bs s =>
    let (w, e) := s.env.drawWord
    .done () ({ s.call (.writeFile (s.gpr 4) bs (s.gpr 6)) with env := e }.setGpr 2 w)

/-- Rule R335. -/
def serveFileClose (s : State) : Access Unit :=
  .done () (s.call (.closeFile (s.gpr 4)))

/-- Perform a service. -/
def Service.perform : Service → State → Access Unit
  | .printInt => servePrintInt
  | .printFloat => servePrintFloat
  | .printDouble => servePrintDouble
  | .printString => servePrintString
  | .readInt => serveReadInt
  | .readFloat => serveReadFloat
  | .readDouble => serveReadDouble
  | .readString => serveReadString
  | .sbrk => serveSbrk
  | .exit => serveExit
  | .fileOpen => serveFileOpen
  | .fileRead => serveFileRead
  | .fileWrite => serveFileWrite
  | .fileClose => serveFileClose

end Sys2Proof.Machine
end

