-- ==== Sys2Proof/Machine/System.lean ====
section
/-! DEFINITION. The system instructions (rules R310 to R316). -/

namespace Sys2Proof.Machine

/-- Rules R310, R336: the number is in R2, the code field is ignored; an unknown number raises ReservedInstruction and
does nothing else; a known one clears the reservation and performs its service. -/
def execSyscall (code : BitVec 20) (s : State) : Result :=
  match Service.ofNumber (s.gpr 2) with
  | none => .next (s.raise .reservedInstruction (encode (.syscall code)))
  | some service => (service.perform { s with llBit := false }).finish fun _ s => s.advance

/-- Rule R311. -/
def execBreak (code : BitVec 20) (s : State) : Result :=
  .next (s.raise .breakpoint (code.setWidth 32))

/-- Rule R312. -/
def execMfhi (rd : Reg) (s : State) : Result :=
  s.put rd s.hi

/-- Rule R313. -/
def execMthi (rs : Reg) (s : State) : Result :=
  .next (State.advance { s with hi := s.gpr rs })

/-- Rule R314. -/
def execMflo (rd : Reg) (s : State) : Result :=
  s.put rd s.lo

/-- Rule R315. -/
def execMtlo (rs : Reg) (s : State) : Result :=
  .next (State.advance { s with lo := s.gpr rs })

/-- Rule R316. -/
def execNop (s : State) : Result :=
  .next s.advance

end Sys2Proof.Machine
end

