-- ==== Sys2Proof/Machine/Cycle.lean ====
section
/-! DEFINITION. The step of the core (rule R36), the pass of the run loop (rule R365), and placing an instruction where
the next step fetches it. -/

namespace Sys2Proof.Machine

/-- Rule R36 steps 1 and 2: the alignment check of the PC, and the read of the instruction word. -/
def State.fetch (s : State) : Access Word :=
  if s.pc.toNat % 4 = 0 then s.readWord s.pc else .raised (s.raise .addressErrorFetch s.pc)

/-- Rule R36 step 3: decode the word; a word that is no instruction raises ReservedInstruction. -/
def State.runWord (s : State) (w : Word) : Result :=
  match decode w with
  | .ok i => exec i s
  | .error _ => .next (s.raise .reservedInstruction w)

/-- Rule R36: one step of the core. The step of an exception is a next state (rule R356). -/
def State.coreStep (s : State) : Result :=
  match s.fetch with
  | .done w s => s.runWord w
  | .raised s => .next s

/-- Rule R365: the loop leaves, RUNNING becoming 0, as soon as EXIT_CODE is set. -/
def State.leaveLoop (s : State) : State :=
  if s.exitCode = .none then s else { s with running := false }

/-- Rule R365: one pass of the run loop. A stop request is observed before the fetch (rules R354, R367). -/
def State.loopStep (s : State) : Result :=
  if s.stopReq then .next { s with stopReq := false, exitCode := .manualStop, running := false }
  else
    match s.coreStep with
    | .next t => .next t.leaveLoop
    | .fault r => .fault r
    | .refused r => .refused r

/-- The page of the PC made resident, by transfers that complete. -/
def State.withPcPage (s : State) : State :=
  { s with
    mem := ((s.mem.acquire s.params.nSlots (s.pageOf s.pc) true
      { answers := [], swapOutcomes := [true, true], tick := 0 }).1).getD s.mem
    memFailed := false }

end Sys2Proof.Machine
end

