-- ==== Sys2Proof/Machine/Step.lean ====
section
/-! DEFINITION. The step of the machine: one pass of the run loop while it runs (rule R365), else one `single_step`
(rule R366, log 9). -/

namespace Sys2Proof.Machine

/-- One step of the machine. -/
def step (s : State) : Host.Outcome State Fault Refusal :=
  if s.running then s.loopStep else s.coreStep

/-- The state with the word `w` of `nbits` bits stored at the PC, which is where the next step fetches, and with what
that fetch needs: the page resident, the memory not failed, and no stop request before it (log 16). -/
def State.withFetchWord (s : State) (nbits w : Nat) : State :=
  { s.withPcPage.pokeWord s.pc (BitVec.ofNat 32 (w % 2 ^ nbits)) with stopReq := false }

end Sys2Proof.Machine
end

