-- ==== Sys2Proof/Machine/Control.lean ====
section
/-! DEFINITION. The control interface and the inspection interface (rules R13, R14, R27, R34, R365 to R369, R390 to
R394), construction (rules R89, R392), and the numbers of the enumerations (rules R33, R353). -/

namespace Sys2Proof.Machine

/-! ## Numbers (rules R33, R353) -/

/-- Rule R33. -/
def ExitCode.number : ExitCode → Nat
  | .none => 0
  | .manualStop => 1
  | .interrupt => 2
  | .exception => 3
  | .exit => 4

/-- Rule R353. -/
def ExcKind.number : ExcKind → Nat
  | .none => 0
  | .addressErrorFetch => 1
  | .addressErrorData => 2
  | .arithmeticOverflow => 3
  | .reservedInstruction => 4
  | .breakpoint => 5
  | .syscall => 6
  | .machineError => 7

/-! ## Construction and reset -/

/-- Rules R6, R89, R392: construction with a page size of 2^`pageBits` bytes and a budget of `ramBudget` bytes, refused
outside the parameter space. -/
def construct (pageBits ramBudget : Nat) (bootAddr : Word) (strMax : Nat) : Result :=
  if h : 12 ≤ pageBits ∧ pageBits ≤ 16 ∧ 0 < ramBudget ∧ ramBudget % 2 ^ pageBits = 0 ∧ 1 ≤ strMax then
    .next (State.initial
      { pageShift := ⟨pageBits - 12, by omega⟩
        spareSlots := ramBudget / 2 ^ pageBits - 1
        bootAddr := bootAddr
        strRoom := strMax - 1 })
  else .refused .badParameters

/-- Rule R390: the reset request. MEM_FAILED and the parameters are unchanged; the free inputs and the calls already
made are not the block's state and stay (log 17). -/
def State.resetRequest (s : State) (boot : Word) : State :=
  { State.initial s.params with
    pc := boot
    npc := boot + 4
    memFailed := s.memFailed
    calls := s.calls
    env := s.env }

/-! ## Requests -/

/-- Rule R13, and the writing transactions of rule R14. -/
inductive Request where
  | reset (boot : Word)
  | start
  | singleStep
  | stop
  | writePc (value : Word)
  | writeGpr (r : Reg) (value : Word)
  | ramWrite (addr : Word) (bytes : List Byte)
deriving DecidableEq, Repr

/-- Rule R14: the host's bulk write. A host access that meets a failed transfer sets MEM_FAILED and raises nothing
(rule R86); bytes written before it stay. Once the memory has failed nothing is written (log 20). -/
def State.ramWrite (s : State) (a : Word) : List Byte → State
  | [] => s
  | b :: bs =>
    if s.memFailed then s
    else
      match s.mem.acquire s.params.nSlots (s.pageOf a) true s.env with
      | (some m, e) => State.ramWrite (State.poke { s with mem := m, env := e } a b) (a + 1) bs
      | (none, e) => { s with memFailed := true, env := e }

/-- Rules R13, R14, R369: a request, refused while the core is running unless it is `stop`. `start` begins the run loop,
whose passes are `step`; `single_step` is one step of the core. -/
def request (r : Request) (s : State) : Result :=
  match r with
  | .stop => .next { s with stopReq := true }
  | .reset boot => if s.running then .refused .requestWhileRunning else .next (s.resetRequest boot)
  | .start =>
    if s.running then .refused .requestWhileRunning else .next { s with running := true, exitCode := .none }
  | .singleStep => if s.running then .refused .requestWhileRunning else s.coreStep
  | .writePc v => if s.running then .refused .requestWhileRunning else .next (s.writePc v)
  | .writeGpr r v => if s.running then .refused .requestWhileRunning else .next (s.setGpr r v)
  | .ramWrite a bs => if s.running then .refused .requestWhileRunning else .next (s.ramWrite a bs)

/-! ## Reading transactions (rules R14, R34) -/

/-- What a reading transaction ends in: the value and the state after it, or a refusal. -/
abbrev Reading (α : Type) := Except Refusal (α × State)

/-- Rule R369: a reading transaction, refused while the core is running. -/
def State.reading {α : Type} (s : State) (value : α) : Reading α :=
  if s.running then .error .requestWhileRunning else .ok (value, s)

/-- Rule R27. -/
def readPc (s : State) : Reading Word := s.reading s.pc
/-- Rule R14. -/
def readGpr (s : State) (r : Reg) : Reading Word := s.reading (s.gpr r)
/-- Rule R33. -/
def readExitCode (s : State) : Reading ExitCode := s.reading s.exitCode
/-- Rule R34. -/
def readRecord (s : State) : Reading ExcRecord := s.reading s.exc
/-- Rule R13: the idle or running status, an output that is always there. -/
def readRunning (s : State) : Bool := s.running

/-- A byte the host reads: M's byte, and a free one where the memory has failed or fails now (rule R86, log 12). -/
def State.ramReadByte (s : State) (a : Word) : Byte × State :=
  if s.memFailed then
    (Config.failedByte s.env.tick, { s with env := { s.env with tick := s.env.tick + 1 } })
  else
    match s.mem.acquire s.params.nSlots (s.pageOf a) false s.env with
    | (some m, e) => (s.byteAt a, { s with mem := m, env := e })
    | (none, e) => (Config.failedByte e.tick, { s with memFailed := true, env := { e with tick := e.tick + 1 } })

/-- Rules R14, R68: the bytes from `a` on, addresses modulo 2^32. -/
def State.ramReadBytes (s : State) (a : Word) : Nat → List Byte × State
  | 0 => ([], s)
  | n + 1 =>
    match s.ramReadByte a with
    | (b, s) =>
      match State.ramReadBytes s (a + 1) n with
      | (bs, s) => (b :: bs, s)

/-- Rule R14: RAM_read. -/
def ramRead (s : State) (a : Word) (len : Nat) : Reading (List Byte) :=
  if s.running then .error .requestWhileRunning else .ok (s.ramReadBytes a len)

end Sys2Proof.Machine
end

