-- ==== Sys2Proof/Safety.lean ====
section
/-! DEFINITION. What holds of every state the machine can be in (rules R21, R30, R38, R76 to R84, R350, R362, R365), and
the conditions on a state and operands under which an instruction completes. -/

namespace Sys2Proof.Machine

/-! ## The invariant -/

/-- The memory has its form (rules R76, R77, R79, R83). -/
abbrev State.memWf (s : State) : Prop := s.mem.wf s.params.pageBits s.params.nSlots

/-- The invariant of the machine between steps. -/
structure State.Inv (s : State) : Prop where
  /-- R76, R77, R79, R83: the form of the memory. -/
  memory : s.memWf
  /-- R21, R38 (a): x[0] = 0, as stored. -/
  zero : s.gprs[0] = 0
  /-- R38 (b). -/
  sequential : s.ds = false → s.npc = s.pc + 4
  /-- R30: every bit of FCSR but CC is 0, RM among them. -/
  fcsr : s.fcsr &&& 0xFF7FFFFF = 0
  /-- R362. -/
  noInterrupt : s.exitCode ≠ .interrupt
  /-- R351: Syscall is never recorded. -/
  noSyscall : s.exc.kind ≠ .syscall
  /-- R359: the record is meaningful when EXIT_CODE = EXCEPTION. -/
  recorded : s.exitCode = .exception → s.exc.kind ≠ .none
  /-- R365: while the loop runs, EXIT_CODE is NONE. -/
  running : s.running = true → s.exitCode = .none

/-! ## What changes from one state to the next -/

/-- Rule R85: nothing changes but where the manager holds the bytes, and the free inputs drawn. -/
def State.OnlyPaging (s t : State) : Prop :=
  t = { s with mem := t.mem, env := t.env } ∧ ∀ x : Word, t.byteAt x = s.byteAt x

/-- The bytes `bs` stored at `a` on, addresses modulo 2^32, and every other byte of memory as before. -/
def State.Stored (s t : State) (a : Word) (bs : List Byte) : Prop :=
  ∀ x : Word, t.byteAt x = (bs[(x - a).toNat]?).getD (s.byteAt x)

/-- Rule R36 step 5 with rule R21: general register `r` takes the value `v` (none for R0, which stays 0), every other one
keeps its value, the PC moves on, and nothing else changes. -/
def State.WroteGpr (s t : State) (r : Reg) (v : Word) : Prop :=
  t = { s with gprs := t.gprs, pc := s.npc, npc := s.npc + 4, ds := false } ∧
    t.gpr r = (if r = 0 then 0 else v) ∧ ∀ q : Reg, q ≠ r → t.gpr q = s.gpr q

/-- As `WroteGpr`, for the floating-point registers listed: each takes its value, every other one keeps its own. -/
def State.WroteFprs (s t : State) (rs : List (FReg × Word)) : Prop :=
  t = { s with fprs := t.fprs, pc := s.npc, npc := s.npc + 4, ds := false } ∧
    (∀ p ∈ rs, t.fpr p.1 = p.2) ∧ ∀ q : FReg, (∀ p ∈ rs, q ≠ p.1) → t.fpr q = s.fpr q

/-- Rule R36 step 5 for an instruction that writes no register: only the PC moves on. -/
def State.advanced (s : State) : State := { s with pc := s.npc, npc := s.npc + 4, ds := false }

/-- Rules R236, R85: as `WroteGpr`, and the page read may have moved; every byte of memory is as before. -/
def State.LoadedGpr (s t : State) (r : Reg) (v : Word) : Prop :=
  t = { s with gprs := t.gprs, pc := s.npc, npc := s.npc + 4, ds := false, mem := t.mem, env := t.env } ∧
    t.gpr r = (if r = 0 then 0 else v) ∧ (∀ q : Reg, q ≠ r → t.gpr q = s.gpr q) ∧ ∀ x : Word, t.byteAt x = s.byteAt x

/-- Rules R236, R67: the bytes `bs` stored at `a`, the PC moved on, and nothing else changed. -/
def State.StoredBytes (s t : State) (a : Word) (bs : List Byte) : Prop :=
  t = { s with pc := s.npc, npc := s.npc + 4, ds := false, mem := t.mem, env := t.env } ∧ s.Stored t a bs

/-- Rules R205, R206, R36 step 5: a control transfer to `target` when `taken`, with the link register, if there is one,
holding PC + 8, and nothing else changed. -/
def State.Transferred (s t : State) (link : Option Reg) (taken : Prop) (target : Word) : Prop :=
  t = { s with gprs := t.gprs, pc := s.npc, npc := t.npc, ds := true } ∧
    (taken → t.npc = target) ∧ (¬taken → t.npc = s.npc + 4) ∧
    (∀ r ∈ link, t.gpr r = if r = 0 then 0 else s.pc + 8) ∧ ∀ q : Reg, q ∉ link → t.gpr q = s.gpr q

/-- Rules R356, R357: exception entry of the given kind and payload, and nothing else: the recorded address is the
branch's in a delay slot. -/
def State.Raised (s t : State) (kind : ExcKind) (payload : Word) : Prop :=
  t = { s with exc := t.exc, llBit := false, exitCode := .exception } ∧ t.exc.kind = kind ∧ t.exc.payload = payload ∧
    t.exc.bd = s.ds ∧ (s.ds = true → t.exc.pc = s.pc - 4) ∧ (s.ds = false → t.exc.pc = s.pc)

/-- Rules R356, R357: exception entry, from a state that an access or a service may have changed in the memory, its
failure, the free inputs and the host calls, and in nothing else. -/
def State.RaisedInStep (s t : State) : Prop :=
  ∃ (u : State) (kind : ExcKind) (payload : Word),
    u = { s with memFailed := u.memFailed, mem := u.mem, calls := u.calls, env := u.env } ∧ u.Raised t kind payload

/-- Rule R321: the C string at `a` in the bytes of `s`: up to a NUL, and at most `room` bytes. -/
def State.stringAt (s : State) (a : Word) : Nat → List Byte
  | 0 => []
  | room + 1 => if s.byteAt a = 0 then [] else s.byteAt a :: s.stringAt (a + 1) room

/-- Rule R86: the state after a failed access to `a`: MEM_FAILED is set, and MachineError is raised with `a` as its
payload; whatever transfers the access made were free inputs. -/
def State.MemoryError (s t : State) (a : Word) : Prop :=
  ∃ e, t = State.raise { s with memFailed := true, env := e } .machineError a

/-! ## Floating-point results (rules R258 to R262), said without the way they are computed

A magnitude is a pattern below `infBits F`, and `unitsOf` its value in units of the least positive subnormal. The exact
result of an operation is `num / den` of these units with a sign. -/

/-- The value of a finite pattern, in units, without its sign. -/
def unitsOf (F : Fmt) (p : Nat) : Nat :=
  match unpack F p with
  | .fin _ units => units
  | _ => 0

/-- Rule R258, RM 1 (and RM 2 below zero, RM 3 above): the greatest magnitude that does not exceed the exact one. -/
def RoundedIn (F : Fmt) (neg : Bool) (num den v : Nat) : Prop :=
  ∃ p < infBits F, v = withSign F neg p ∧ unitsOf F p * den ≤ num ∧ ∀ q < infBits F, unitsOf F q * den ≤ num → q ≤ p

/-- Rule R258, RM 2 above zero and RM 3 below: the least magnitude that is not less than the exact one, and infinity
where no finite one is. -/
def RoundedOut (F : Fmt) (neg : Bool) (num den v : Nat) : Prop :=
  (∃ p < infBits F, v = withSign F neg p ∧ num ≤ unitsOf F p * den ∧ ∀ q < infBits F, num ≤ unitsOf F q * den → p ≤ q) ∨
    ((∀ q < infBits F, unitsOf F q * den < num) ∧ v = withSign F neg (infBits F))

/-- The distance of a magnitude from the exact one, times `den`. -/
def distance (F : Fmt) (num den p : Nat) : Nat := ((unitsOf F p * den : Int) - num).natAbs

/-- Rule R258, RM 0: infinity from 2^emax * (2 - 2^-p) on; below it the magnitude nearest the exact one, and of two
equally near the one whose least significant bit is 0. -/
def RoundedNear (F : Fmt) (neg : Bool) (num den v : Nat) : Prop :=
  if (2 ^ (fracBits F + 2) - 1) * 2 ^ (2 ^ expBits F - 4) * den ≤ num then v = withSign F neg (infBits F)
  else ∃ p < infBits F, v = withSign F neg p ∧
    ∀ q < infBits F, distance F num den p ≤ distance F num den q ∧
      (distance F num den p = distance F num den q → q ≠ p → p % 2 = 0)

/-- Rule R258: `v` is the exact `num / den` units with the sign `neg`, rounded once in the mode `rm`. -/
def Rounded (F : Fmt) (rm : RoundMode) (neg : Bool) (num den v : Nat) : Prop :=
  match rm with
  | .nearestEven => RoundedNear F neg num den v
  | .towardZero => RoundedIn F neg num den v
  | .towardPlus => if neg then RoundedIn F neg num den v else RoundedOut F neg num den v
  | .towardMinus => if neg then RoundedOut F neg num den v else RoundedIn F neg num den v

/-- Rules R259, R260, R262: `v` is the sum of two values. -/
def SumIs (F : Fmt) (rm : RoundMode) (x y : FloatVal) (v : Nat) : Prop :=
  match x, y with
  | .nan, _ => unpack F v = .nan
  | _, .nan => unpack F v = .nan
  | .inf p, .inf q => unpack F v = if p = q then .inf p else .nan
  | .inf p, .fin _ _ => unpack F v = .inf p
  | .fin _ _, .inf q => unpack F v = .inf q
  | .fin p a, .fin q b =>
    let e := signedUnits p a + signedUnits q b
    (0 < e → Rounded F rm false e.natAbs 1 v) ∧ (e < 0 → Rounded F rm true e.natAbs 1 v) ∧
      (e = 0 → unpack F v = .fin (if p = q then p else rm == .towardMinus) 0)

/-- Rules R259, R260, R262: `v` is the product of two values, a zero product with the exclusive-or of the signs. -/
def ProductIs (F : Fmt) (rm : RoundMode) (x y : FloatVal) (v : Nat) : Prop :=
  match x, y with
  | .nan, _ => unpack F v = .nan
  | _, .nan => unpack F v = .nan
  | .inf p, .inf q => unpack F v = .inf (p ^^ q)
  | .inf p, .fin q b => unpack F v = if b = 0 then .nan else .inf (p ^^ q)
  | .fin p a, .inf q => unpack F v = if a = 0 then .nan else .inf (p ^^ q)
  | .fin p a, .fin q b =>
    if a = 0 ∨ b = 0 then unpack F v = .fin (p ^^ q) 0
    else Rounded F rm (p ^^ q) (a * b) (2 ^ unitBits F) v

/-- Rules R259 to R262: `v` is the quotient of two values. -/
def QuotientIs (F : Fmt) (rm : RoundMode) (x y : FloatVal) (v : Nat) : Prop :=
  match x, y with
  | .nan, _ => unpack F v = .nan
  | _, .nan => unpack F v = .nan
  | .inf _, .inf _ => unpack F v = .nan
  | .inf p, .fin q _ => unpack F v = .inf (p ^^ q)
  | .fin p _, .inf q => unpack F v = .fin (p ^^ q) 0
  | .fin p a, .fin q b =>
    if b = 0 then unpack F v = if a = 0 then .nan else .inf (p ^^ q)
    else if a = 0 then unpack F v = .fin (p ^^ q) 0
    else Rounded F rm (p ^^ q) (a * 2 ^ unitBits F) b v

/-- Rule R291: `n` is the exact `x / den` rounded to an integer in the mode `rm`. -/
def RoundedInt (rm : RoundMode) (x : Int) (den : Nat) (n : Int) : Prop :=
  match rm with
  | .nearestEven => 2 * (n * den - x).natAbs ≤ den ∧ (2 * (n * den - x).natAbs = den → n % 2 = 0)
  | .towardZero => n = x.tdiv den
  | .towardPlus => x ≤ n * den ∧ n * den < x + den
  | .towardMinus => n * den ≤ x ∧ x < n * den + den

/-- Rule R291: `v` is to_w of a value: the integer it rounds to, or the one word of every invalid conversion. -/
def ToWordIs (F : Fmt) (rm : RoundMode) (x : FloatVal) (v : Word) : Prop :=
  match x with
  | .nan => v = Config.cvtWInvalid
  | .inf _ => v = Config.cvtWInvalid
  | .fin neg units => ∃ n : Int, RoundedInt rm (signedUnits neg units) (2 ^ unitBits F) n ∧
      (-2 ^ 31 ≤ n ∧ n < 2 ^ 31 → v.toInt = n) ∧ (n < -2 ^ 31 ∨ 2 ^ 31 ≤ n → v = Config.cvtWInvalid)

/-- Rule R280: the place of a value in the order of the format, none for a NaN: infinities are the extreme values, and
the two zeros are one. -/
def FloatVal.rank : FloatVal → Option (WithBot (WithTop Int))
  | .nan => none
  | .inf true => some ⊥
  | .inf false => some ((⊤ : WithTop Int) : WithBot (WithTop Int))
  | .fin neg units => some (((signedUnits neg units : Int) : WithTop Int) : WithBot (WithTop Int))

/-- Rule R280: what a condition asks of two values. -/
def ConditionTrue (cond : BitVec 4) (x y : FloatVal) : Prop :=
  match x.rank, y.rank with
  | some a, some b => (cond.getLsbD 2 = true ∧ a < b) ∨ (cond.getLsbD 1 = true ∧ a = b)
  | _, _ => cond.getLsbD 0 = true

/-- The instruction completes for every register, and its result in fmt S is what `result` says of the operands. -/
def ComputesS (i : FReg → FReg → FReg → Instr) (result : RoundMode → FloatVal → FloatVal → Nat → Prop) : Prop :=
  ∀ (s : State) (fd fs ft : FReg), ∃ (t : State) (v : Word),
    exec (i fd fs ft) s = .next t ∧ s.WroteFprs t [(fd, v)] ∧
      result s.rm (unpack .S (s.fpr fs).toNat) (unpack .S (s.fpr ft).toNat) v.toNat

/-- The same in fmt D, for even registers (rule R257). -/
def ComputesD (i : FReg → FReg → FReg → Instr) (result : RoundMode → FloatVal → FloatVal → Nat → Prop) : Prop :=
  ∀ (s : State) (fd fs ft : FReg), fd.val % 2 = 0 → fs.val % 2 = 0 → ft.val % 2 = 0 → ∃ (t : State) (v : DWord),
    exec (i fd fs ft) s = .next t ∧
      s.WroteFprs t [(fd, v.extractLsb' 0 32), (fd + 1, v.extractLsb' 32 32)] ∧
      result s.rm (unpack .D (s.fpr (fs + 1) ++ s.fpr fs).toNat) (unpack .D (s.fpr (ft + 1) ++ s.fpr ft).toNat) v.toNat

/-! ## Completion -/

/-- Rules R83, R86: an access to the page of `a` meets no swap transfer: the page is resident, or it is absent and the
access is a read or a slot is free. -/
def State.noTransfer (s : State) (a : Word) (forWrite : Bool) : Prop :=
  (s.mem.slotOf (s.pageOf a)).isSome = true ∨
    (s.mem.recordOf (s.pageOf a) = none ∧ (forWrite = false ∨ s.mem.resident.length < s.params.nSlots))

/-- Rule R86: the memory has not failed, and the access to the page of `a` meets no transfer that fails. -/
def State.accessible (s : State) (a : Word) (forWrite : Bool) : Prop :=
  s.memFailed = false ∧ ((s.mem.acquire s.params.nSlots (s.pageOf a) forWrite s.env).1).isSome = true

/-- Rule R68: the `n` addresses from `a` on, modulo 2^32. -/
def addressesFrom (a : Word) : Nat → List Word
  | 0 => []
  | n + 1 => a :: addressesFrom (a + 1) n

/-- Rule R86: the next `n` swap transfers complete, if that many are needed (log 5). -/
def State.transfersComplete (s : State) (n : Nat) : Prop := ∀ k < n, s.env.swapOutcomes[k]? = some true

/-- Rules R82, R86: the bytes at the addresses can be read one after the other. Either each page is resident or absent,
so that no read meets a transfer, or the transfers complete, of which one access needs two at most (rules R81, R83). -/
def State.readable (s : State) (as : List Word) : Prop :=
  s.memFailed = false ∧ ((∀ a ∈ as, s.noTransfer a false) ∨ s.transfersComplete (2 * as.length))

/-- Rule R83: a slot is free for every page of the addresses that is not resident; those pages, `ps`, are absent. -/
def State.roomFor (s : State) (as : List Word) : Prop :=
  ∃ ps : List Nat, s.mem.resident.length + ps.length ≤ s.params.nSlots ∧
    ∀ a ∈ as, (s.mem.slotOf (s.pageOf a)).isSome = true ∨ (s.mem.recordOf (s.pageOf a) = none ∧ s.pageOf a ∈ ps)

/-- Rules R83, R86: as `readable`, for writes: there is room for the pages, or the transfers complete. -/
def State.writable (s : State) (as : List Word) : Prop :=
  s.memFailed = false ∧ (s.roomFor as ∨ s.transfersComplete (2 * as.length))

/-- Rule R400: the fifteen control-transfer instructions. -/
def isCti : Instr → Bool
  | .beq .. => true
  | .bne .. => true
  | .blez .. => true
  | .bgtz .. => true
  | .bltz .. => true
  | .bgez .. => true
  | .bltzal .. => true
  | .bgezal .. => true
  | .j .. => true
  | .jal .. => true
  | .jr .. => true
  | .jalr .. => true
  | .jalx .. => true
  | .bc1f .. => true
  | .bc1t .. => true
  | _ => false

/-! ## Runs -/

/-- One transition: a step of the machine, a request of the host or of the stop requester, or a bulk read by the host,
which is the one reading transaction that changes the state (rules R5, R14, R81). -/
inductive Transition : State → State → Prop where
  | step {s t : State} : Machine.step s = .next t → Transition s t
  | request {s t : State} (r : Request) : request r s = .next t → Transition s t
  | ramRead {s t : State} (a : Word) (n : Nat) (bs : List Byte) : ramRead s a n = .ok (bs, t) → Transition s t

/-- Rule R392: a state that a machine constructed with some parameters can reach. -/
inductive Reachable : State → Prop where
  | initial (p : Params) : Reachable (State.initial p)
  | next {s t : State} : Reachable s → Transition s t → Reachable t

end Sys2Proof.Machine
end

