-- ==== Sys2Proof/Certificates/Slice0/Obligations.lean ====
section
/-! DEFINITION. The statements for the provers, each with the rule or the section of spec/ it formalises. -/

open Sys2Proof Sys2Proof.Machine

/-- From spec/95_test_vectors.md, spec/30_encoding.md section 3: Sixteen words of the spec's examples decode to the
instructions they stand for. -/
def Obligations.DecodedWords : Prop :=
  decode 0x00221820 = .ok (.add 3 1 2) ∧ decode 0x002218D9 = .ok (.muhu 3 1 2) ∧
  decode 0x3022FF00 = .ok (.andi 2 1 0xFF00) ∧ decode 0x3C017FFF = .ok (.lui 1 0x7FFF) ∧
  decode 0x00011103 = .ok (.sra 2 1 4) ∧ decode 0x2822FFFF = .ok (.slti 2 1 0xFFFF) ∧
  decode 0x04310003 = .ok (.bgezal 1 3) ∧ decode 0x0080F809 = .ok (.jalr 31 4) ∧
  decode 0x8022FFFF = .ok (.lb 2 1 0xFFFF) ∧ decode 0xE0220000 = .ok (.sc 2 1 0) ∧
  decode 0x46220100 = .ok (.addD 4 0 2) ∧ decode 0x4622003E = .ok (.cCondD 14 0 2) ∧
  decode 0x45010003 = .ok (.bc1t 3) ∧ decode 0x44026000 = .ok (.mfc1 2 12) ∧
  decode 0x000001CD = .ok (.brk 7) ∧ decode 0x00000000 = .ok .nop

/-- From spec/30_encoding.md sections 2 and 3: Decoding the encoding of any well-formed instruction gives it back. -/
def Obligations.DecodeOfEncodeIsTheInstruction : Prop :=
  ∀ i : Instr, i.WellFormed → decode (encode i) = .ok i

/-- From spec/30_encoding.md sections 2 and 3: Any word that decodes is the encoding of a well-formed instruction. -/
def Obligations.EncodeOfDecodeIsTheWord : Prop :=
  ∀ (w : Word) (i : Instr), decode w = .ok i → i.WellFormed ∧ encode i = w

/-- Rule R120: The decode function is the 88-row opcode table, whose rows are disjoint. -/
def Obligations.DecodeIsTheOpcodeTable : Prop :=
  opcodeRows.length = 88 ∧
  opcodeRows.Pairwise (fun r r' => ∀ w : Word, ¬(w &&& r.mask = r.value ∧ w &&& r'.mask = r'.value)) ∧
  (∀ w : Word, (∃ i, decodeRow w = .ok i) ↔ ∃ r ∈ opcodeRows, w &&& r.mask = r.value) ∧
  ∀ (w : Word) (i : Instr), decodeRow w = .ok i →
    ∃ r ∈ opcodeRows, r.mnemonic = i.mnemonic ∧ w &&& r.mask = r.value

/-- From spec/40_arithmetic.md sections 1 and 2, spec/60_exceptions.md sections 1 and 2, spec/92_eei_decisions.md
D15, spec/92_eei_decisions.md D16: ADD, ADDI and SUB: the result, or ArithmeticOverflow exactly on signed overflow.
The payload 0 is decision D16 and the PC that stays is decision D15. -/
def Obligations.TrappingAddAndSubtract : Prop :=
  ∀ (s : State) (rd rs rt : Reg) (imm : Imm16),
    let a := s.gpr rs
    let b := s.gpr rt
    let c := imm.signExtend 32
    (¬(a.msb = b.msb ∧ (a + b).msb ≠ a.msb) →
      ∃ t, exec (.add rd rs rt) s = .next t ∧ s.WroteGpr t rd (a + b)) ∧
    ((a.msb = b.msb ∧ (a + b).msb ≠ a.msb) →
      ∃ t, exec (.add rd rs rt) s = .next t ∧ s.Raised t .arithmeticOverflow 0) ∧
    (¬(a.msb ≠ b.msb ∧ (a - b).msb = b.msb) →
      ∃ t, exec (.sub rd rs rt) s = .next t ∧ s.WroteGpr t rd (a - b)) ∧
    ((a.msb ≠ b.msb ∧ (a - b).msb = b.msb) →
      ∃ t, exec (.sub rd rs rt) s = .next t ∧ s.Raised t .arithmeticOverflow 0) ∧
    (¬(a.msb = c.msb ∧ (a + c).msb ≠ a.msb) →
      ∃ t, exec (.addi rt rs imm) s = .next t ∧ s.WroteGpr t rt (a + c)) ∧
    ((a.msb = c.msb ∧ (a + c).msb ≠ a.msb) →
      ∃ t, exec (.addi rt rs imm) s = .next t ∧ s.Raised t .arithmeticOverflow 0)

/-- Rules R153, R155, R157: ADDU, SUBU and ADDIU wrap modulo 2^32 and raise nothing. -/
def Obligations.WrappingAddAndSubtract : Prop :=
  ∀ (s : State) (rd rs rt : Reg) (imm : Imm16), ∃ t u w x y z,
    exec (.addu rd rs rt) s = .next t ∧ s.WroteGpr t rd x ∧
      x.toNat = ((s.gpr rs).toNat + (s.gpr rt).toNat) % 2 ^ 32 ∧
    exec (.subu rd rs rt) s = .next u ∧ s.WroteGpr u rd y ∧
      (y.toNat : Int) = ((s.gpr rs).toNat - (s.gpr rt).toNat : Int) % 2 ^ 32 ∧
    exec (.addiu rt rs imm) s = .next w ∧ s.WroteGpr w rt z ∧
      (z.toNat : Int) = ((s.gpr rs).toNat + imm.toInt) % 2 ^ 32

/-- Rules R158, R159, R160, R161: MUL, MUH, MULU, MUHU: the halves of the signed and the unsigned 64-bit product. -/
def Obligations.ProductHalves : Prop :=
  ∀ (s : State) (rd rs rt : Reg), ∃ (lo hi hiu : Word) (t u v w : State),
    exec (.mul rd rs rt) s = .next t ∧ s.WroteGpr t rd lo ∧
    exec (.muh rd rs rt) s = .next u ∧ s.WroteGpr u rd hi ∧
    exec (.mulu rd rs rt) s = .next v ∧ s.WroteGpr v rd lo ∧
    exec (.muhu rd rs rt) s = .next w ∧ s.WroteGpr w rd hiu ∧
    (hi ++ lo).toInt = (s.gpr rs).toInt * (s.gpr rt).toInt ∧
    (hiu ++ lo).toNat = (s.gpr rs).toNat * (s.gpr rt).toNat

/-- From spec/40_arithmetic.md sections 4 and 5: DIV and MOD, DIVU and MODU satisfy the division law for every
nonzero divisor. -/
def Obligations.QuotientAndRemainder : Prop :=
  ∀ (s : State) (rd rs rt : Reg), s.gpr rt ≠ 0 → ∃ (q r qu ru : Word) (t u v w : State),
    exec (.div rd rs rt) s = .next t ∧ s.WroteGpr t rd q ∧
    exec (.mod rd rs rt) s = .next u ∧ s.WroteGpr u rd r ∧
    exec (.divu rd rs rt) s = .next v ∧ s.WroteGpr v rd qu ∧
    exec (.modu rd rs rt) s = .next w ∧ s.WroteGpr w rd ru ∧
    (if s.gpr rs = 0x80000000 ∧ s.gpr rt = 0xFFFFFFFF then q = 0x80000000 ∧ r = 0
      else (s.gpr rs).toInt = q.toInt * (s.gpr rt).toInt + r.toInt) ∧
    r.toInt.natAbs < (s.gpr rt).toInt.natAbs ∧ (r ≠ 0 → r.toInt.sign = (s.gpr rs).toInt.sign) ∧
    (s.gpr rs).toNat = qu.toNat * (s.gpr rt).toNat + ru.toNat ∧ ru.toNat < (s.gpr rt).toNat

/-- From spec/40_arithmetic.md section 5, spec/90_conflicts.md C3: DIV, MOD, DIVU and MODU by zero only move the PC
on (the spec's decision D5). -/
def Obligations.DivisionByZeroWritesNothing : Prop :=
  ∀ (s : State) (rd rs rt : Reg), s.gpr rt = 0 →
    exec (.div rd rs rt) s = .next s.advanced ∧ exec (.mod rd rs rt) s = .next s.advanced ∧
    exec (.divu rd rs rt) s = .next s.advanced ∧ exec (.modu rd rs rt) s = .next s.advanced

/-- Rules R171, R172, R173, R174: AND, OR, XOR and NOR act on each bit of the two registers. -/
def Obligations.LogicalRegisterForms : Prop :=
  ∀ (s : State) (rd rs rt : Reg), ∃ (a o x n : Word) (t u v w : State),
    exec (.and rd rs rt) s = .next t ∧ s.WroteGpr t rd a ∧
    exec (.or rd rs rt) s = .next u ∧ s.WroteGpr u rd o ∧
    exec (.xor rd rs rt) s = .next v ∧ s.WroteGpr v rd x ∧
    exec (.nor rd rs rt) s = .next w ∧ s.WroteGpr w rd n ∧
    ∀ k < 32,
      a.getLsbD k = ((s.gpr rs).getLsbD k && (s.gpr rt).getLsbD k) ∧
      o.getLsbD k = ((s.gpr rs).getLsbD k || (s.gpr rt).getLsbD k) ∧
      x.getLsbD k = ((s.gpr rs).getLsbD k ^^ (s.gpr rt).getLsbD k) ∧
      n.getLsbD k = !((s.gpr rs).getLsbD k || (s.gpr rt).getLsbD k)

/-- Rules R175, R176, R177, R178, R179: ANDI, ORI and XORI with a zero-extended immediate; AUI and LUI with the
immediate in the upper half. -/
def Obligations.LogicalImmediateForms : Prop :=
  ∀ (s : State) (rt rs : Reg) (imm : Imm16), ∃ (a o x au lu : Word) (t u v w y : State),
    exec (.andi rt rs imm) s = .next t ∧ s.WroteGpr t rt a ∧
    exec (.ori rt rs imm) s = .next u ∧ s.WroteGpr u rt o ∧
    exec (.xori rt rs imm) s = .next v ∧ s.WroteGpr v rt x ∧
    exec (.aui rt rs imm) s = .next w ∧ s.WroteGpr w rt au ∧
    exec (.lui rt imm) s = .next y ∧ s.WroteGpr y rt lu ∧
    (∀ k < 16,
      a.getLsbD k = ((s.gpr rs).getLsbD k && imm.getLsbD k) ∧
      o.getLsbD k = ((s.gpr rs).getLsbD k || imm.getLsbD k) ∧
      x.getLsbD k = ((s.gpr rs).getLsbD k ^^ imm.getLsbD k)) ∧
    (∀ k, 16 ≤ k → k < 32 →
      a.getLsbD k = false ∧ o.getLsbD k = (s.gpr rs).getLsbD k ∧ x.getLsbD k = (s.gpr rs).getLsbD k) ∧
    au.toNat = ((s.gpr rs).toNat + imm.toNat * 2 ^ 16) % 2 ^ 32 ∧ lu.toNat = imm.toNat * 2 ^ 16

/-- Rules R186, R187, R188, R189, R190, R191: The shifts multiply or divide by a power of two, by the shamt field
or by the low five bits of a register. -/
def Obligations.ShiftResults : Prop :=
  ∀ (s : State) (rd rt rs : Reg) (shamt : Shamt), ∃ (l r a lv rv av : Word) (t u v w x y : State),
    exec (.sll rd rt shamt) s = .next t ∧ s.WroteGpr t rd l ∧ l.toNat = (s.gpr rt).toNat * 2 ^ shamt.toNat % 2 ^ 32 ∧
    exec (.srl rd rt shamt) s = .next u ∧ s.WroteGpr u rd r ∧ r.toNat = (s.gpr rt).toNat / 2 ^ shamt.toNat ∧
    exec (.sra rd rt shamt) s = .next v ∧ s.WroteGpr v rd a ∧ a.toInt = (s.gpr rt).toInt / 2 ^ shamt.toNat ∧
    exec (.sllv rd rt rs) s = .next w ∧ s.WroteGpr w rd lv ∧
      lv.toNat = (s.gpr rt).toNat * 2 ^ ((s.gpr rs).toNat % 32) % 2 ^ 32 ∧
    exec (.srlv rd rt rs) s = .next x ∧ s.WroteGpr x rd rv ∧
      rv.toNat = (s.gpr rt).toNat / 2 ^ ((s.gpr rs).toNat % 32) ∧
    exec (.srav rd rt rs) s = .next y ∧ s.WroteGpr y rd av ∧
      av.toInt = (s.gpr rt).toInt / 2 ^ ((s.gpr rs).toNat % 32)

/-- Rules R196, R197, R198, R199: SLT, SLTU, SLTI and SLTIU write 1 exactly when the first operand is less. -/
def Obligations.CompareResults : Prop :=
  ∀ (s : State) (rd rs rt : Reg) (imm : Imm16), ∃ t u v w,
    exec (.slt rd rs rt) s = .next t ∧ s.WroteGpr t rd (if (s.gpr rs).toInt < (s.gpr rt).toInt then 1 else 0) ∧
    exec (.sltu rd rs rt) s = .next u ∧ s.WroteGpr u rd (if (s.gpr rs).toNat < (s.gpr rt).toNat then 1 else 0) ∧
    exec (.slti rt rs imm) s = .next v ∧ s.WroteGpr v rt (if (s.gpr rs).toInt < imm.toInt then 1 else 0) ∧
    exec (.sltiu rt rs imm) s = .next w ∧
      s.WroteGpr w rt (if ((s.gpr rs).toNat : Int) < imm.toInt % 2 ^ 32 then 1 else 0)

/-- From spec/44_branches.md sections 1 and 2, spec/47_fpu.md section 6, spec/10_state.md section 4,
spec/92_eei_decisions.md D10, spec/92_eei_decisions.md D12: The branches that do not link: condition, target, delay
slot, and nothing else. The target base PC + 4 is decision D12 and the flag after an untaken branch is decision
D10. -/
def Obligations.ConditionalBranches : Prop :=
  ∀ (s : State) (rs rt : Reg) (offset : Imm16), s.ds = false →
    let a := (s.gpr rs).toInt
    ∃ target : Word, (target.toNat : Int) = (s.pc.toNat + 4 + 4 * offset.toInt) % 2 ^ 32 ∧
    ∃ t1 t2 t3 t4 t5 t6 t7 t8,
      exec (.beq rs rt offset) s = .next t1 ∧ s.Transferred t1 none (s.gpr rs = s.gpr rt) target ∧
      exec (.bne rs rt offset) s = .next t2 ∧ s.Transferred t2 none (s.gpr rs ≠ s.gpr rt) target ∧
      exec (.blez rs offset) s = .next t3 ∧ s.Transferred t3 none (a ≤ 0) target ∧
      exec (.bgtz rs offset) s = .next t4 ∧ s.Transferred t4 none (0 < a) target ∧
      exec (.bltz rs offset) s = .next t5 ∧ s.Transferred t5 none (a < 0) target ∧
      exec (.bgez rs offset) s = .next t6 ∧ s.Transferred t6 none (0 ≤ a) target ∧
      exec (.bc1f offset) s = .next t7 ∧ s.Transferred t7 none (s.fcsr.getLsbD 23 = false) target ∧
      exec (.bc1t offset) s = .next t8 ∧ s.Transferred t8 none (s.fcsr.getLsbD 23 = true) target

/-- From spec/44_branches.md sections 1 and 2, spec/10_state.md section 4, spec/92_eei_decisions.md D10,
spec/92_eei_decisions.md D12, spec/92_eei_decisions.md D45: BLTZAL and BGEZAL link whether or not they are taken,
and test the old register. The link value and the target base are decision D12, the old register for rs = 31 is
decision D45, the flag after an untaken branch is decision D10. -/
def Obligations.LinkingBranches : Prop :=
  ∀ (s : State) (rs : Reg) (offset : Imm16), s.ds = false →
    ∃ target : Word, (target.toNat : Int) = (s.pc.toNat + 4 + 4 * offset.toInt) % 2 ^ 32 ∧ ∃ t u,
      exec (.bltzal rs offset) s = .next t ∧ s.Transferred t (some 31) ((s.gpr rs).toInt < 0) target ∧
      exec (.bgezal rs offset) s = .next u ∧ s.Transferred u (some 31) (0 ≤ (s.gpr rs).toInt) target

/-- From spec/45_jumps.md sections 1 and 2, spec/44_branches.md section 1, spec/10_state.md section 4,
spec/92_eei_decisions.md D12, spec/92_eei_decisions.md D13, spec/92_eei_decisions.md D45: J, JAL, JALX, JR and
JALR: target, link register and delay slot. The link value is decision D12, JALX as JAL is decision D13, the old
register for rd = rs is decision D45. -/
def Obligations.JumpsAndLinks : Prop :=
  ∀ (s : State) (rd rs : Reg) (target : BitVec 26), s.ds = false →
    ∃ dest : Word, dest.toNat = (s.pc + 4).toNat / 2 ^ 28 * 2 ^ 28 + 4 * target.toNat ∧ ∃ t u v w x,
      exec (.j target) s = .next t ∧ s.Transferred t none True dest ∧
      exec (.jal target) s = .next u ∧ s.Transferred u (some 31) True dest ∧
      exec (.jalx target) s = .next v ∧ s.Transferred v (some 31) True dest ∧
      exec (.jr rs) s = .next w ∧ s.Transferred w none True (s.gpr rs) ∧
      exec (.jalr rd rs) s = .next x ∧ s.Transferred x (some rd) True (s.gpr rs)

/-- From spec/44_branches.md section 1, spec/92_eei_decisions.md D11: Every control transfer in a delay slot raises
ReservedInstruction at the branch (decision D11). -/
def Obligations.TransferInADelaySlotIsReserved : Prop :=
  ∀ (i : Instr) (s : State), isCti i = true → s.ds = true →
    ∃ t, exec i s = .next t ∧ s.Raised t .reservedInstruction (encode i) ∧ t.exc.pc = s.pc - 4 ∧ t.exc.bd = true

/-- From spec/10_state.md sections 4 and 9: An instruction that is no control transfer moves the PC on by NPC, or
raises and leaves it. -/
def Obligations.OtherInstructionsAdvanceOrRaise : Prop :=
  ∀ (i : Instr) (s t : State), isCti i = false → exec i s = .next t →
    (t.pc = s.npc ∧ t.npc = s.npc + 4 ∧ t.ds = false) ∨
    (t.pc = s.pc ∧ t.npc = s.npc ∧ t.ds = s.ds ∧ t.exitCode = .exception)

/-- Rules R237, R238, R239, R240, R241: LB, LBU, LH, LHU and LW: the little-endian value, its extension, and
nothing else. -/
def Obligations.IntegerLoads : Prop :=
  ∀ (s : State) (rt base : Reg) (offset : Imm16), s.memWf →
    let a := s.gpr base + offset.signExtend 32
    let b := fun k : Word => (s.byteAt (a + k)).toNat
    s.accessible a false →
    (∃ t v, exec (.lb rt base offset) s = .next t ∧ s.LoadedGpr t rt v ∧ v.toInt = (s.byteAt a).toInt) ∧
    (∃ t v, exec (.lbu rt base offset) s = .next t ∧ s.LoadedGpr t rt v ∧ v.toNat = b 0) ∧
    (a.toNat % 2 = 0 →
      (∃ t v, exec (.lh rt base offset) s = .next t ∧ s.LoadedGpr t rt v ∧
        v.toInt = ((b 0 + 256 * b 1 : Nat) : Int) - (if 128 ≤ b 1 then 65536 else 0)) ∧
      ∃ t v, exec (.lhu rt base offset) s = .next t ∧ s.LoadedGpr t rt v ∧ v.toNat = b 0 + 256 * b 1) ∧
    (a.toNat % 4 = 0 →
      ∃ t v, exec (.lw rt base offset) s = .next t ∧ s.LoadedGpr t rt v ∧
        v.toNat = b 0 + 256 * b 1 + 65536 * b 2 + 16777216 * b 3)

/-- Rules R242, R243, R244: SB, SH and SW store the low bytes of the register, little-endian, and nothing else. -/
def Obligations.IntegerStores : Prop :=
  ∀ (s : State) (rt base : Reg) (offset : Imm16), s.memWf →
    let a := s.gpr base + offset.signExtend 32
    let b := fun k : Nat => (s.gpr rt).extractLsb' (8 * k) 8
    s.accessible a true →
    (∃ t, exec (.sb rt base offset) s = .next t ∧ s.StoredBytes t a [b 0]) ∧
    (a.toNat % 2 = 0 → ∃ t, exec (.sh rt base offset) s = .next t ∧ s.StoredBytes t a [b 0, b 1]) ∧
    (a.toNat % 4 = 0 → ∃ t, exec (.sw rt base offset) s = .next t ∧ s.StoredBytes t a [b 0, b 1, b 2, b 3])

/-- From spec/20_memory.md section 1, spec/46_loadstore.md section 1, spec/92_eei_decisions.md D30: A misaligned
load or store raises AddressError_data with the address and touches nothing. -/
def Obligations.MisalignedAccessRaises : Prop :=
  ∀ (s : State) (rt base : Reg) (ft : FReg) (offset : Imm16),
    let a := s.gpr base + offset.signExtend 32
    let raises := fun i : Instr => ∃ t, exec i s = .next t ∧ s.Raised t .addressErrorData a
    (a.toNat % 2 ≠ 0 → raises (.lh rt base offset) ∧ raises (.lhu rt base offset) ∧ raises (.sh rt base offset)) ∧
    (a.toNat % 4 ≠ 0 →
      raises (.lw rt base offset) ∧ raises (.sw rt base offset) ∧ raises (.ll rt base offset) ∧
      raises (.sc rt base offset) ∧ raises (.lwc1 ft base offset) ∧ raises (.swc1 ft base offset)) ∧
    (a.toNat % 8 ≠ 0 → ft.val % 2 = 0 → raises (.ldc1 ft base offset) ∧ raises (.sdc1 ft base offset))

/-- Rule R245: LL loads the word and holds the reservation of its address. -/
def Obligations.LoadLinkedReserves : Prop :=
  ∀ (s : State) (rt base : Reg) (offset : Imm16), s.memWf →
    let a := s.gpr base + offset.signExtend 32
    let b := fun k : Word => (s.byteAt (a + k)).toNat
    s.accessible a false → a.toNat % 4 = 0 →
    ∃ t v, exec (.ll rt base offset) s = .next t ∧ t.llBit = true ∧ t.llAddr = a ∧
      { s with llBit := true, llAddr := a }.LoadedGpr t rt v ∧
      v.toNat = b 0 + 256 * b 1 + 65536 * b 2 + 16777216 * b 3

/-- From spec/46_loadstore.md section 4, spec/93_implementation_defined.md U3: SC stores and gives 1 on the
reserved address, gives 0 without a reservation, and else does one of the two. -/
def Obligations.StoreConditionalOutcomes : Prop :=
  ∀ (s : State) (rt base : Reg) (offset : Imm16), s.memWf →
    let a := s.gpr base + offset.signExtend 32
    let b := fun k : Nat => (s.gpr rt).extractLsb' (8 * k) 8
    let frame := fun (t : State) (v : Word) =>
      t = { s with gprs := t.gprs, pc := s.npc, npc := s.npc + 4, ds := false, llBit := false, mem := t.mem,
                   env := t.env } ∧
        t.gpr rt = (if rt = 0 then 0 else v) ∧ ∀ q : Reg, q ≠ rt → t.gpr q = s.gpr q
    let fails := fun t : State => frame t 0 ∧ ∀ x : Word, t.byteAt x = s.byteAt x
    let succeeds := fun t : State => frame t 1 ∧ s.Stored t a [b 0, b 1, b 2, b 3]
    a.toNat % 4 = 0 →
    (s.llBit = false → ∃ t, exec (.sc rt base offset) s = .next t ∧ fails t) ∧
    (s.accessible a true → s.llBit = true → a = s.llAddr → ∃ t, exec (.sc rt base offset) s = .next t ∧ succeeds t) ∧
    (s.memFailed = false → s.noTransfer a true → s.llBit = true → a ≠ s.llAddr →
      ∃ t, exec (.sc rt base offset) s = .next t ∧ (succeeds t ∨ fails t))

/-- From spec/10_state.md section 7, spec/46_loadstore.md section 4, spec/92_eei_decisions.md D20: Only SC, SYSCALL
and an exception clear the reservation, and only LL moves it. -/
def Obligations.ReservationLostOnlyBy : Prop :=
  ∀ (i : Instr) (s t : State), exec i s = .next t →
    (s.llBit = true → t.llBit = false →
      (∃ rt base offset, i = .sc rt base offset) ∨ (∃ code, i = .syscall code) ∨ s.RaisedInStep t) ∧
    ((t.llAddr ≠ s.llAddr ∨ (s.llBit = false ∧ t.llBit = true)) → ∃ rt base offset, i = .ll rt base offset)

/-- From spec/47_fpu.md section 8, spec/92_eei_decisions.md D31: LWC1 and LDC1 load the pattern unchanged, the low
word of a double to the even register. -/
def Obligations.FloatingPointLoads : Prop :=
  ∀ (s : State) (base : Reg) (ft : FReg) (offset : Imm16), s.memWf →
    let a := s.gpr base + offset.signExtend 32
    let w := fun k : Word => s.byteAt (a + k + 3) ++ s.byteAt (a + k + 2) ++ s.byteAt (a + k + 1) ++ s.byteAt (a + k)
    let frame := fun t : State =>
      t = { s with fprs := t.fprs, pc := s.npc, npc := s.npc + 4, ds := false, mem := t.mem, env := t.env } ∧
        ∀ x : Word, t.byteAt x = s.byteAt x
    s.accessible a false →
    (a.toNat % 4 = 0 → ∃ t, exec (.lwc1 ft base offset) s = .next t ∧ frame t ∧
      t.fpr ft = w 0 ∧ ∀ q : FReg, q ≠ ft → t.fpr q = s.fpr q) ∧
    (a.toNat % 8 = 0 → ft.val % 2 = 0 → ∃ t, exec (.ldc1 ft base offset) s = .next t ∧ frame t ∧
      t.fpr ft = w 0 ∧ t.fpr (ft + 1) = w 4 ∧ ∀ q : FReg, q ≠ ft → q ≠ ft + 1 → t.fpr q = s.fpr q)

/-- From spec/47_fpu.md section 8, spec/92_eei_decisions.md D31: SWC1 and SDC1 store the pattern unchanged, the
even register of a pair first. -/
def Obligations.FloatingPointStores : Prop :=
  ∀ (s : State) (base : Reg) (ft : FReg) (offset : Imm16), s.memWf →
    let a := s.gpr base + offset.signExtend 32
    let b := fun (r : FReg) (k : Nat) => (s.fpr r).extractLsb' (8 * k) 8
    let h := ft + 1
    s.accessible a true →
    (a.toNat % 4 = 0 → ∃ t, exec (.swc1 ft base offset) s = .next t ∧
      s.StoredBytes t a [b ft 0, b ft 1, b ft 2, b ft 3]) ∧
    (a.toNat % 8 = 0 → ft.val % 2 = 0 → ∃ t, exec (.sdc1 ft base offset) s = .next t ∧
      s.StoredBytes t a [b ft 0, b ft 1, b ft 2, b ft 3, b h 0, b h 1, b h 2, b h 3])

/-- From spec/47_fpu.md section 1, spec/92_eei_decisions.md D22: An odd register number in a double operand raises
ReservedInstruction (decision D22). -/
def Obligations.OddDoubleRegisterIsReserved : Prop :=
  ∀ (s : State) (fd fs ft : FReg) (cond : BitVec 4) (base : Reg) (offset : Imm16),
    let raises := fun i : Instr => ∃ t, exec i s = .next t ∧ s.Raised t .reservedInstruction (encode i)
    let odd := fun r : FReg => r.val % 2 = 1
    ((odd fd ∨ odd fs ∨ odd ft) →
      raises (.addD fd fs ft) ∧ raises (.subD fd fs ft) ∧ raises (.mulD fd fs ft) ∧ raises (.divD fd fs ft)) ∧
    ((odd fd ∨ odd fs) → raises (.absD fd fs) ∧ raises (.negD fd fs)) ∧
    (odd fs → raises (.cvtSD fd fs) ∧ raises (.cvtWD fd fs)) ∧ (odd fd → raises (.cvtDS fd fs)) ∧
    ((odd fs ∨ odd ft) → raises (.cCondD cond fs ft)) ∧
    (odd ft → raises (.ldc1 ft base offset) ∧ raises (.sdc1 ft base offset))

/-- Rules R263, R264, R265, R266: ADD.S, ADD.D, SUB.S, SUB.D deliver the exact sum or difference rounded once, or a
NaN. -/
def Obligations.FloatingPointSums : Prop :=
  ComputesS .addS (SumIs .S) ∧ ComputesS .subS (fun rm x y => SumIs .S rm x y.negate) ∧
  ComputesD .addD (SumIs .D) ∧ ComputesD .subD (fun rm x y => SumIs .D rm x y.negate)

/-- Rules R267, R268: MUL.S and MUL.D deliver the exact product rounded once, or a NaN. -/
def Obligations.FloatingPointProducts : Prop :=
  ComputesS .mulS (ProductIs .S) ∧ ComputesD .mulD (ProductIs .D)

/-- Rules R269, R270: DIV.S and DIV.D deliver the exact quotient rounded once, an infinity on division by zero, or
a NaN. -/
def Obligations.FloatingPointQuotients : Prop :=
  ComputesS .divS (QuotientIs .S) ∧ ComputesD .divD (QuotientIs .D)

/-- From spec/47_fpu.md section 4, spec/92_eei_decisions.md D22, spec/92_eei_decisions.md D28: ABS and NEG clear or
flip the sign bit of the pattern and keep every other bit. That they act on the pattern, NaNs too, is decision D28;
which register holds the high word is decision D22. -/
def Obligations.SignOperations : Prop :=
  ∀ (s : State) (fd fs : FReg), ∃ (a n ah nh : Word) (t u : State),
    exec (.absS fd fs) s = .next t ∧ s.WroteFprs t [(fd, a)] ∧
    exec (.negS fd fs) s = .next u ∧ s.WroteFprs u [(fd, n)] ∧
    (fd.val % 2 = 0 → fs.val % 2 = 0 → ∃ v w,
      exec (.absD fd fs) s = .next v ∧ s.WroteFprs v [(fd, s.fpr fs), (fd + 1, ah)] ∧
      exec (.negD fd fs) s = .next w ∧ s.WroteFprs w [(fd, s.fpr fs), (fd + 1, nh)]) ∧
    (∀ k < 31, a.getLsbD k = (s.fpr fs).getLsbD k ∧ n.getLsbD k = (s.fpr fs).getLsbD k ∧
      ah.getLsbD k = (s.fpr (fs + 1)).getLsbD k ∧ nh.getLsbD k = (s.fpr (fs + 1)).getLsbD k) ∧
    a.msb = false ∧ n.msb = !(s.fpr fs).msb ∧ ah.msb = false ∧ nh.msb = !(s.fpr (fs + 1)).msb

/-- Rules R275, R276, R277: CVT.S.W and CVT.S.D round once, CVT.D.S is exact; a NaN gives some NaN. -/
def Obligations.ConversionsToFloatingPoint : Prop :=
  ∀ (s : State) (fd fs : FReg),
    (∃ t v, exec (.cvtSW fd fs) s = .next t ∧ s.WroteFprs t [(fd, v)] ∧
      Rounded .S s.rm (decide ((s.fpr fs).toInt < 0)) ((s.fpr fs).toInt.natAbs * 2 ^ unitBits .S) 1 v.toNat) ∧
    (fd.val % 2 = 0 → ∃ (t : State) (v : DWord), exec (.cvtDS fd fs) s = .next t ∧
      s.WroteFprs t [(fd, v.extractLsb' 0 32), (fd + 1, v.extractLsb' 32 32)] ∧
      match unpack .S (s.fpr fs).toNat with
      | .nan => unpack .D v.toNat = .nan
      | .inf neg => unpack .D v.toNat = .inf neg
      | .fin neg units => ∃ w, unpack .D v.toNat = .fin neg w ∧ w * 2 ^ unitBits .S = units * 2 ^ unitBits .D) ∧
    (fs.val % 2 = 0 → ∃ t v, exec (.cvtSD fd fs) s = .next t ∧ s.WroteFprs t [(fd, v)] ∧
      match unpack .D (s.fpr (fs + 1) ++ s.fpr fs).toNat with
      | .nan => unpack .S v.toNat = .nan
      | .inf neg => unpack .S v.toNat = .inf neg
      | .fin neg units => Rounded .S s.rm neg (units * 2 ^ unitBits .S) (2 ^ unitBits .D) v.toNat)

/-- From spec/47_fpu.md section 5, spec/92_eei_decisions.md D27, spec/92_eei_decisions.md D29: CVT.W.S and CVT.W.D
round by FCSR.RM, and give the one open word on an invalid input (D27, D29). -/
def Obligations.ConversionsToInteger : Prop :=
  ∀ (s : State) (fd fs : FReg),
    (∃ t v, exec (.cvtWS fd fs) s = .next t ∧ s.WroteFprs t [(fd, v)] ∧
      ToWordIs .S s.rm (unpack .S (s.fpr fs).toNat) v) ∧
    (fs.val % 2 = 0 → ∃ t v, exec (.cvtWD fd fs) s = .next t ∧ s.WroteFprs t [(fd, v)] ∧
      ToWordIs .D s.rm (unpack .D (s.fpr (fs + 1) ++ s.fpr fs).toNat) v)

/-- Rules R280, R281, R282: C.cond.S and C.cond.D set CC by the predicate of cond, for all sixteen conditions. -/
def Obligations.FloatingPointCompares : Prop :=
  ∀ (s : State) (cond : BitVec 4) (fs ft : FReg),
    let frame := fun t : State =>
      t = { s with fcsr := t.fcsr, pc := s.npc, npc := s.npc + 4, ds := false } ∧
        ∀ k < 32, k ≠ 23 → t.fcsr.getLsbD k = s.fcsr.getLsbD k
    (∃ t, exec (.cCondS cond fs ft) s = .next t ∧ frame t ∧
      (t.fcsr.getLsbD 23 = true ↔
        ConditionTrue cond (unpack .S (s.fpr fs).toNat) (unpack .S (s.fpr ft).toNat))) ∧
    (fs.val % 2 = 0 → ft.val % 2 = 0 → ∃ t, exec (.cCondD cond fs ft) s = .next t ∧ frame t ∧
      (t.fcsr.getLsbD 23 = true ↔
        ConditionTrue cond (unpack .D (s.fpr (fs + 1) ++ s.fpr fs).toNat) (unpack .D (s.fpr (ft + 1) ++ s.fpr ft).toNat)))

/-- Rules R285, R286, R312, R313, R314, R315, R316: MFC1, MTC1, MFHI, MFLO, MTHI and MTLO move one 32-bit pattern,
and NOP only moves the PC on. -/
def Obligations.RegisterMovesAndNop : Prop :=
  ∀ (s : State) (r : Reg) (fs : FReg), ∃ t u v w,
    exec (.mfc1 r fs) s = .next t ∧ s.WroteGpr t r (s.fpr fs) ∧
    exec (.mtc1 r fs) s = .next u ∧ s.WroteFprs u [(fs, s.gpr r)] ∧
    exec (.mfhi r) s = .next v ∧ s.WroteGpr v r s.hi ∧ exec (.mflo r) s = .next w ∧ s.WroteGpr w r s.lo ∧
    exec (.mthi r) s = .next { s.advanced with hi := s.gpr r } ∧
    exec (.mtlo r) s = .next { s.advanced with lo := s.gpr r } ∧ exec .nop s = .next s.advanced

/-- From spec/48_system.md section 1, spec/60_exceptions.md sections 1 and 2, spec/92_eei_decisions.md D15,
spec/92_eei_decisions.md D16: BREAK takes the Breakpoint exception with its code as payload. The code as payload is
decision D16 and the PC that stays is decision D15. -/
def Obligations.BreakRaisesBreakpoint : Prop :=
  ∀ (s : State) (code : BitVec 20),
    ∃ t p, exec (.brk code) s = .next t ∧ s.Raised t .breakpoint p ∧ p.toNat = code.toNat

/-- From spec/48_system.md sections 1, 2 and 3, spec/92_eei_decisions.md D20, spec/92_eei_decisions.md D22,
spec/92_eei_decisions.md D44: Services 1, 2, 3 and 16 make one host call and change no register, 9 returns 0, 10
sets EXIT_CODE = EXIT. LLbit cleared is decision D20, the PC moved on after exit is decision D44, the order of the
pair is decision D22; the list of calls is the model's own (log 7). -/
def Obligations.ServicesWithoutInput : Prop :=
  ∀ (s : State) (code : BitVec 20),
    let done := fun c : HostCall => exec (.syscall code) s =
      .next { s.advanced with llBit := false, calls := s.calls ++ [c] }
    (s.gpr 2 = 1 → done (.printInteger (s.gpr 4))) ∧ (s.gpr 2 = 2 → done (.printFloat (s.fpr 12))) ∧
    (s.gpr 2 = 3 → done (.printDouble (s.fpr 13 ++ s.fpr 12))) ∧ (s.gpr 2 = 16 → done (.closeFile (s.gpr 4))) ∧
    (s.gpr 2 = 9 → ∃ t, exec (.syscall code) s = .next t ∧ { s with llBit := false }.WroteGpr t 2 0) ∧
    (s.gpr 2 = 10 → exec (.syscall code) s = .next { s.advanced with llBit := false, exitCode := .exit })

/-- From spec/48_system.md sections 1, 2 and 3, spec/92_eei_decisions.md D20, spec/92_eei_decisions.md D22:
Services 5, 6 and 7 put the host's answer in R2, F0, or the pair F0/F1. LLbit cleared is decision D20 and the order
of the pair is decision D22; the list of answers is the model's choice (log 6), and the list of calls is its own
(log 7). -/
def Obligations.InputServices : Prop :=
  ∀ (s : State) (code : BitVec 20),
    (s.gpr 2 = 5 → ∃ (t : State) (w : Word), exec (.syscall code) s = .next t ∧
      t = { s.advanced with gprs := t.gprs, llBit := false, calls := s.calls ++ [.readInteger], env := t.env } ∧
      t.gpr 2 = w ∧ (∀ q : Reg, q ≠ 2 → t.gpr q = s.gpr q) ∧
      ∀ a rest, s.env.answers = .word a :: rest → w = a ∧ t.env.answers = rest) ∧
    (s.gpr 2 = 6 → ∃ (t : State) (w : Word), exec (.syscall code) s = .next t ∧
      t = { s.advanced with fprs := t.fprs, llBit := false, calls := s.calls ++ [.readFloat], env := t.env } ∧
      t.fpr 0 = w ∧ (∀ q : FReg, q ≠ 0 → t.fpr q = s.fpr q) ∧
      ∀ a rest, s.env.answers = .word a :: rest → w = a ∧ t.env.answers = rest) ∧
    (s.gpr 2 = 7 → ∃ (t : State) (d : DWord), exec (.syscall code) s = .next t ∧
      t = { s.advanced with fprs := t.fprs, llBit := false, calls := s.calls ++ [.readDouble], env := t.env } ∧
      t.fpr 1 ++ t.fpr 0 = d ∧ (∀ q : FReg, q ≠ 0 → q ≠ 1 → t.fpr q = s.fpr q) ∧
      ∀ a rest, s.env.answers = .double a :: rest → d = a ∧ t.env.answers = rest)

/-- From spec/48_system.md sections 1, 2 and 3, spec/20_memory.md section 3, spec/92_eei_decisions.md D20,
spec/92_eei_decisions.md D37: Services 4 and 13 read C strings bounded by STR_MAX, and change no byte of memory.
LLbit cleared is decision D20; the lists of answers and of transfer outcomes are the model's choice (log 6, log 5),
and the list of calls is its own (log 7). -/
def Obligations.StringServices : Prop :=
  ∀ (s : State) (code : BitVec 20), s.memWf →
    let string := fun a : Word => s.stringAt a s.params.strMax
    let bytes := fun a : Word => addressesFrom a ((string a).length + 1)
    (s.gpr 2 = 4 → s.readable (bytes (s.gpr 4)) → ∃ t, exec (.syscall code) s = .next t ∧
      t = { s.advanced with llBit := false, calls := s.calls ++ [.printString (string (s.gpr 4))], mem := t.mem,
                            env := t.env } ∧
      ∀ x : Word, t.byteAt x = s.byteAt x) ∧
    (s.gpr 2 = 13 → s.readable (bytes (s.gpr 4) ++ bytes (s.gpr 5)) → ∃ (t : State) (fd : Word),
      exec (.syscall code) s = .next t ∧
      t = { s.advanced with gprs := t.gprs, llBit := false, mem := t.mem, env := t.env,
                            calls := s.calls ++ [.openFile (string (s.gpr 4)) (string (s.gpr 5))] } ∧
      t.gpr 2 = fd ∧ (∀ q : Reg, q ≠ 2 → t.gpr q = s.gpr q) ∧ (∀ x : Word, t.byteAt x = s.byteAt x) ∧
      ∀ a rest, s.env.answers = .word a :: rest → fd = a)

/-- From spec/48_system.md sections 1, 2 and 3, spec/20_memory.md section 3, spec/92_eei_decisions.md D20,
spec/92_eei_decisions.md D37: Services 8, 14 and 15 move at most the bytes asked for between the host and memory.
LLbit cleared is decision D20; the lists of answers and of transfer outcomes are the model's choice (log 6, log 5),
and the list of calls is its own (log 7). -/
def Obligations.BufferServices : Prop :=
  ∀ (s : State) (code : BitVec 20), s.memWf →
    let buffer := fun (a n : Word) => addressesFrom a n.toNat
    (s.gpr 2 = 8 → s.writable (buffer (s.gpr 4) (s.gpr 5)) → ∃ (t : State) (bs : List Byte),
      exec (.syscall code) s = .next t ∧
      t = { s.advanced with llBit := false, calls := s.calls ++ [.readString (s.gpr 5)], mem := t.mem, env := t.env } ∧
      s.Stored t (s.gpr 4) bs ∧ bs.length ≤ (s.gpr 5).toNat ∧
      ∀ a rest, s.env.answers = .bytes a :: rest → bs = a.take (s.gpr 5).toNat) ∧
    (s.gpr 2 = 14 → s.writable (buffer (s.gpr 5) (s.gpr 6)) → ∃ (t : State) (bs : List Byte),
      exec (.syscall code) s = .next t ∧
      t = { s.advanced with gprs := t.gprs, llBit := false, calls := s.calls ++ [.readFile (s.gpr 4) (s.gpr 6)],
                            mem := t.mem, env := t.env } ∧
      (t.gpr 2).toNat = bs.length ∧ (∀ q : Reg, q ≠ 2 → t.gpr q = s.gpr q) ∧
      s.Stored t (s.gpr 5) bs ∧ bs.length ≤ (s.gpr 6).toNat ∧
      ∀ a rest, s.env.answers = .bytes a :: rest → bs = a.take (s.gpr 6).toNat) ∧
    (s.gpr 2 = 15 → s.readable (buffer (s.gpr 5) (s.gpr 6)) → ∃ (t : State) (bs : List Byte) (n : Word),
      exec (.syscall code) s = .next t ∧
      t = { s.advanced with gprs := t.gprs, llBit := false, calls := s.calls ++ [.writeFile (s.gpr 4) bs (s.gpr 6)],
                            mem := t.mem, env := t.env } ∧
      bs.length = (s.gpr 6).toNat ∧ (∀ k < bs.length, bs[k]? = some (s.byteAt (s.gpr 5 + BitVec.ofNat 32 k))) ∧
      t.gpr 2 = n ∧ (∀ q : Reg, q ≠ 2 → t.gpr q = s.gpr q) ∧ (∀ x : Word, t.byteAt x = s.byteAt x) ∧
      ∀ a rest, s.env.answers = .word a :: rest → n = a)

/-- Rule R336: SYSCALL with an unknown number raises ReservedInstruction and makes no host call. -/
def Obligations.UnknownServiceIsReserved : Prop :=
  ∀ (s : State) (code : BitVec 20),
    (s.gpr 2 = 0 ∨ s.gpr 2 = 11 ∨ s.gpr 2 = 12 ∨ 17 ≤ (s.gpr 2).toNat) →
    ∃ t, exec (.syscall code) s = .next t ∧ s.Raised t .reservedInstruction (encode (.syscall code))

/-- From spec/60_exceptions.md section 2, spec/92_eei_decisions.md D15: An instruction that raises changes the
record, LLbit and EXIT_CODE and nothing a program sees. -/
def Obligations.ExceptionsArePrecise : Prop :=
  ∀ (i : Instr) (s t : State), s.memWf → s.exitCode = .none → exec i s = .next t → t.exitCode = .exception →
    t = { s with exc := t.exc, llBit := false, exitCode := .exception, memFailed := t.memFailed, mem := t.mem,
                 calls := t.calls, env := t.env } ∧
    (t.memFailed = false → t.calls = s.calls ∧ ∀ x : Word, t.byteAt x = s.byteAt x)

/-- Rule R32: FCSR changes only by C.cond.S and C.cond.D, and only in CC. -/
def Obligations.OnlyComparesWriteTheStatusRegister : Prop :=
  ∀ (i : Instr) (s t : State), exec i s = .next t →
    (t.fcsr ≠ s.fcsr → (∃ cond fs ft, i = .cCondS cond fs ft) ∨ ∃ cond fs ft, i = .cCondD cond fs ft) ∧
    ∀ k < 32, k ≠ 23 → t.fcsr.getLsbD k = s.fcsr.getLsbD k

/-- From spec/10_state.md section 3, spec/92_eei_decisions.md D4: HI is written only by MTHI and LO only by MTLO
(decision D4). -/
def Obligations.OnlyTheirMovesWriteHiAndLo : Prop :=
  ∀ (i : Instr) (s t : State), exec i s = .next t →
    (t.hi ≠ s.hi → ∃ rs, i = .mthi rs) ∧ (t.lo ≠ s.lo → ∃ rs, i = .mtlo rs)

/-- From spec/20_memory.md section 3, spec/92_eei_decisions.md D34: With MEM_FAILED set, every fetch and every
aligned load and store raises MachineError (decision D34). -/
def Obligations.FailedMemoryRaisesMachineError : Prop :=
  ∀ (s : State) (rt base : Reg) (ft : FReg) (offset : Imm16), s.memFailed = true →
    let a := s.gpr base + offset.signExtend 32
    let raises := fun i : Instr => ∃ t, exec i s = .next t ∧ s.Raised t .machineError a
    (s.pc.toNat % 4 = 0 → ∃ t, s.coreStep = .next t ∧ s.Raised t .machineError s.pc) ∧
    raises (.lb rt base offset) ∧ raises (.lbu rt base offset) ∧ raises (.sb rt base offset) ∧
    (a.toNat % 2 = 0 → raises (.lh rt base offset) ∧ raises (.lhu rt base offset) ∧ raises (.sh rt base offset)) ∧
    (a.toNat % 4 = 0 →
      raises (.lw rt base offset) ∧ raises (.sw rt base offset) ∧ raises (.ll rt base offset) ∧
      raises (.lwc1 ft base offset) ∧ raises (.swc1 ft base offset) ∧
      (s.llBit = true → a = s.llAddr → raises (.sc rt base offset))) ∧
    (a.toNat % 8 = 0 → ft.val % 2 = 0 → raises (.ldc1 ft base offset) ∧ raises (.sdc1 ft base offset))

/-- From spec/10_state.md section 9, spec/60_exceptions.md section 4: A step at an aligned, accessible PC executes
the instruction that the word there decodes to. -/
def Obligations.StepRunsTheDecodedInstruction : Prop :=
  ∀ (s : State) (i : Instr), s.memWf → s.pc.toNat % 4 = 0 → s.accessible s.pc false →
    decode (s.byteAt (s.pc + 3) ++ s.byteAt (s.pc + 2) ++ s.byteAt (s.pc + 1) ++ s.byteAt s.pc) = .ok i →
    ∃ u, s.OnlyPaging u ∧ u.memWf ∧
      (s.running = false → step s = exec i u) ∧
      (s.running = true → s.stopReq = false →
        ∀ t, exec i u = .next t →
          step s = .next (if t.exitCode = .none then t else { t with running := false }))

/-- Rule R125: A word that decodes to no instruction raises ReservedInstruction with the word as payload. -/
def Obligations.UndecodedWordIsReserved : Prop :=
  ∀ s : State, s.memWf → s.pc.toNat % 4 = 0 → s.accessible s.pc false →
    let w := s.byteAt (s.pc + 3) ++ s.byteAt (s.pc + 2) ++ s.byteAt (s.pc + 1) ++ s.byteAt s.pc
    (∀ i, decode w ≠ .ok i) →
    ∃ u t, s.OnlyPaging u ∧ s.coreStep = .next t ∧ u.Raised t .reservedInstruction w

/-- From spec/10_state.md sections 4 and 9, spec/60_exceptions.md sections 1 and 2, spec/92_eei_decisions.md D15,
spec/92_eei_decisions.md D16: A step at a misaligned PC raises AddressError_fetch with the PC, and reads nothing.
The payload is decision D16 and the PC that stays is decision D15. -/
def Obligations.MisalignedPcRaises : Prop :=
  ∀ s : State,
    (s.pc.toNat % 4 ≠ 0 → ∃ t, s.coreStep = .next t ∧ s.Raised t .addressErrorFetch s.pc) ∧
    ∀ rs : Reg, s.ds = false → (s.gpr rs).toNat % 4 ≠ 0 →
      ∃ t, exec (.jr rs) s = .next t ∧ t.npc = s.gpr rs ∧ t.exitCode = s.exitCode

/-- From spec/60_exceptions.md section 4, spec/92_eei_decisions.md D19: A stop request ends the run before the next
fetch, and is accepted at any time. What a step while idle does with the request is decision D19, and that such a
step is a single_step is the model's reading (log 9). -/
def Obligations.RunLoopObservesTheStopRequest : Prop :=
  ∀ s : State,
    request .stop s = .next { s with stopReq := true } ∧
    (s.running = true → s.stopReq = true →
      step s = .next { s with stopReq := false, exitCode := .manualStop, running := false }) ∧
    (s.running = false → ∃ t, step s = .next t ∧ t.stopReq = s.stopReq ∧
      ∀ b, step { s with stopReq := b } = .next { t with stopReq := b })

/-- From spec/70_reset_and_hazards.md section 1, spec/10_state.md section 9: The state after construction, with any
parameters, meets the invariant and is the state of the reset table. -/
def Obligations.InvariantAtReset : Prop :=
  ∀ p : Params,
    let s := State.initial p
    s.Inv ∧ (∀ r : Reg, s.gpr r = 0) ∧ (∀ r : FReg, s.fpr r = 0) ∧ s.hi = 0 ∧ s.lo = 0 ∧ s.fcsr = 0 ∧
    s.pc = p.bootAddr ∧ s.npc = p.bootAddr + 4 ∧ s.ds = false ∧ s.llBit = false ∧ s.llAddr = 0 ∧
    s.exitCode = .none ∧ s.exc = ⟨.none, 0, false, 0⟩ ∧ s.stopReq = false ∧ s.running = false ∧ s.memFailed = false ∧
    ∀ x : Word, s.byteAt x = 0

/-- From spec/10_state.md sections 2, 6, 8 and 9, spec/20_memory.md section 3, spec/60_exceptions.md sections 3 and
4: Every step from a state that meets the invariant gives a state that meets it. -/
def Obligations.StepKeepsTheInvariant : Prop :=
  ∀ s t : State, s.Inv → step s = .next t → t.Inv

/-- From spec/00_scope.md sections 3 and 6, spec/20_memory.md sections 1 and 3, spec/60_exceptions.md section 4,
spec/70_reset_and_hazards.md sections 1 and 2: Every accepted request and every bulk read of the host keeps the
invariant, and a bulk read changes no byte. -/
def Obligations.RequestsKeepTheInvariant : Prop :=
  ∀ s t : State, s.Inv →
    (∀ r : Request, request r s = .next t → t.Inv) ∧
    ∀ (a : Word) (n : Nat) (bs : List Byte), ramRead s a n = .ok (bs, t) →
      t.Inv ∧ (s.memFailed = true → t.memFailed = true) ∧
      (t.memFailed = false →
        s.OnlyPaging t ∧ bs = (List.range n).map fun k => s.byteAt (a + BitVec.ofNat 32 k))

/-- From spec/20_memory.md section 3: Hits, misses, swap-ins, evictions and LRU movement change no byte that
programs see. -/
def Obligations.AccessesAreTransparent : Prop :=
  ∀ (s t : State) (a : Word) (forWrite : Bool), s.memWf → s.access a forWrite = .done () t →
    s.OnlyPaging t ∧ t.memWf ∧ (forWrite = true → (t.mem.slotOf (t.pageOf a)).isSome = true)

/-- Rule R67: A word written at an aligned address is read back, whatever paging happens in between. -/
def Obligations.StoreThenLoadGivesTheValue : Prop :=
  ∀ (s t : State) (a v : Word), s.memWf → a.toNat % 4 = 0 → s.writeWord a v = .done () t →
    t.memWf ∧ s.Stored t a [v.extractLsb' 0 8, v.extractLsb' 8 8, v.extractLsb' 16 8, v.extractLsb' 24 8] ∧
    ∀ (u u' : State) (w : Word), t.OnlyPaging u → u.memWf → u.readWord a = .done w u' → w = v

/-- From spec/20_memory.md section 3: An access that meets no swap transfer completes, and a failed one raises
MachineError and nothing else. -/
def Obligations.FailureOnlyOnATransfer : Prop :=
  ∀ (s : State) (a : Word) (forWrite : Bool),
    (s.memFailed = false → s.noTransfer a forWrite → s.accessible a forWrite) ∧
    ∀ t, s.access a forWrite = .raised t → s.MemoryError t a ∧ t.memFailed = true ∧ t.mem = s.mem

/-- From spec/10_state.md section 8, spec/92_eei_decisions.md D34: MEM_FAILED is never cleared, by no step, no
request, no bulk read and no reset (decision D34). -/
def Obligations.MemoryFailureIsForEver : Prop :=
  ∀ s t : State, s.memFailed = true → Transition s t → t.memFailed = true

/-- From spec/70_reset_and_hazards.md section 1, spec/92_eei_decisions.md D35: reset gives the reset state whatever
came before, but for MEM_FAILED, and is idempotent. The values of NPC, DS, LLbit, EXIT_CODE, the record and
STOP_REQ are decision D35; that the calls and the free inputs stay is the model's reading (log 17). -/
def Obligations.ResetRequestState : Prop :=
  ∀ (s : State) (boot : Word), s.running = false →
    ∃ t, request (.reset boot) s = .next t ∧ request (.reset boot) t = .next t ∧
      t = { State.initial s.params with pc := boot, npc := boot + 4, memFailed := s.memFailed, calls := s.calls,
                                        env := s.env }

/-- From spec/00_scope.md section 6, spec/10_state.md section 4, spec/60_exceptions.md section 4,
spec/93_implementation_defined.md U9, spec/92_eei_decisions.md D19, spec/92_eei_decisions.md D36: While the core
runs every request but stop is refused; while idle the control requests do what they say. EXIT_CODE = NONE at start
is decision D19, NPC and DS at a write of PC are decision D36; refusal by name is the model's reading (log 18). -/
def Obligations.RequestsOnlyWhileIdle : Prop :=
  ∀ s : State,
    (s.running = true → ∀ r : Request, r ≠ .stop → request r s = .refused .requestWhileRunning) ∧
    (s.running = true → ∀ (q : Reg) (a : Word) (n : Nat),
      readPc s = .error .requestWhileRunning ∧ readGpr s q = .error .requestWhileRunning ∧
      readExitCode s = .error .requestWhileRunning ∧ readRecord s = .error .requestWhileRunning ∧
      ramRead s a n = .error .requestWhileRunning) ∧
    (s.running = false → ∀ (q : Reg) (v : Word),
      request .start s = .next { s with running := true, exitCode := .none } ∧
      request .singleStep s = s.coreStep ∧
      request (.writePc v) s = .next { s with pc := v, npc := v + 4, ds := false } ∧
      (∃ t, request (.writeGpr q v) s = .next t ∧ t = { s with gprs := t.gprs } ∧
        t.gpr q = (if q = 0 then 0 else v) ∧ ∀ r : Reg, r ≠ q → t.gpr r = s.gpr r) ∧
      readPc s = .ok (s.pc, s) ∧ readGpr s q = .ok (s.gpr q, s) ∧ readExitCode s = .ok (s.exitCode, s) ∧
      readRecord s = .ok (s.exc, s))

/-- From spec/20_memory.md section 1, spec/92_eei_decisions.md D36: RAM_write then RAM_read of the same range gives
back the bytes written. Addresses modulo 2^32 are decision D36. -/
def Obligations.BulkWriteThenBulkRead : Prop :=
  ∀ (s t : State) (a : Word) (bs : List Byte), s.memWf → s.running = false → bs.length ≤ 2 ^ 32 →
    request (.ramWrite a bs) s = .next t → t.memFailed = false →
    s.Stored t a bs ∧ t.memWf ∧
    ∀ (cs : List Byte) (u : State), ramRead t a bs.length = .ok (cs, u) → u.memFailed = false → cs = bs

/-- From spec/20_memory.md section 3, spec/70_reset_and_hazards.md section 1, spec/92_eei_decisions.md D35:
Construction with a budget of zero or no multiple of the page size is refused; any other gives the reset state. The
state after construction is decision D35; refusal by name is the model's reading (log 18). -/
def Obligations.ConstructionParameters : Prop :=
  ∀ (pageBits ramBudget : Nat) (boot : Word) (strMax : Nat), 12 ≤ pageBits → pageBits ≤ 16 → 1 ≤ strMax →
    ((ramBudget = 0 ∨ ramBudget % 2 ^ pageBits ≠ 0) →
      construct pageBits ramBudget boot strMax = .refused .badParameters) ∧
    (¬(ramBudget = 0 ∨ ramBudget % 2 ^ pageBits ≠ 0) → ∃ p : Params,
      construct pageBits ramBudget boot strMax = .next (State.initial p) ∧ p.pageBits = pageBits ∧
      p.ramBudget = ramBudget ∧ p.bootAddr = boot ∧ p.strMax = strMax)
end

