-- ==== Sys2Proof/Laws/Memory.lean ====
section
/-! SUPPORT. The bytes of a page, and the paged memory manager: every operation keeps the canonical form, and only a poke
changes a byte (rules R79, R84, R85). -/

namespace Sys2Proof.Machine

/-! ## The bytes of one page -/

theorem Cells.get_insert (cells : List Host.Cell) (o o' : Nat) (b : Byte) :
    Cells.get (Cells.insert o b cells) o' = if o' = o then b else Cells.get cells o' := by
  induction cells with
  | nil => simp only [Cells.insert, Cells.get, eq_comm]
  | cons c rest ih =>
    simp only [Cells.insert]
    split
    · simp only [Cells.get, eq_comm (a := o)]
    · split
      · next h => subst h; simp only [Cells.get]; by_cases h : o' = c.1 <;> simp [h, eq_comm]
      · next h1 h2 =>
        simp only [Cells.get, ih]
        by_cases h : o' = o
        · subst h; simp [Ne.symm h2]
        · simp [h]

theorem Cells.get_filter_ne (cells : List Host.Cell) (o o' : Nat) :
    Cells.get (cells.filter (fun c => c.1 ≠ o)) o' = if o' = o then 0 else Cells.get cells o' := by
  induction cells with
  | nil => simp [Cells.get]
  | cons c rest ih =>
    by_cases h : c.1 = o
    · simp only [h, ne_eq, not_true, decide_false, Bool.false_eq_true, not_false_iff, List.filter_cons_of_neg, Cells.get]
      simp only [ne_eq] at ih
      rw [ih]
      by_cases h' : o' = o
      · simp [h']
      · simp [h', Ne.symm h']
    · simp only [ne_eq] at ih
      simp only [ne_eq, h, not_false_iff, decide_true, List.filter_cons_of_pos, Cells.get, ih]
      by_cases h' : o' = o
      · subst h'; simp [h]
      · simp [h']

/-- Reading after a store of one byte. -/
theorem Cells.get_set (cells : List Host.Cell) (o o' : Nat) (b : Byte) :
    Cells.get (Cells.set cells o b) o' = if o' = o then b else Cells.get cells o' := by
  unfold Cells.set
  split
  · next h => rw [Cells.get_filter_ne, h]
  · exact Cells.get_insert cells o o' b

theorem Cells.mem_insert {cells : List Host.Cell} {o : Nat} {b : Byte} {c : Host.Cell}
    (h : c ∈ Cells.insert o b cells) : c = (o, b) ∨ c ∈ cells := by
  induction cells with
  | nil => simpa [Cells.insert] using h
  | cons d rest ih =>
    simp only [Cells.insert] at h
    split at h
    · simpa using h
    · split at h
      · rcases List.mem_cons.mp h with h | h
        · exact .inl h
        · exact .inr (List.mem_cons_of_mem _ h)
      · rcases List.mem_cons.mp h with h | h
        · exact .inr (h ▸ List.mem_cons_self)
        · exact (ih h).imp id (List.mem_cons_of_mem _)

theorem Cells.sorted_insert {cells : List Host.Cell} {o : Nat} {b : Byte}
    (h : cells.Pairwise (fun a b => a.1 < b.1)) : (Cells.insert o b cells).Pairwise (fun a b => a.1 < b.1) := by
  induction cells with
  | nil => simp [Cells.insert]
  | cons d rest ih =>
    obtain ⟨hd, hr⟩ := List.pairwise_cons.mp h
    simp only [Cells.insert]
    split
    · next hlt =>
      refine List.pairwise_cons.mpr ⟨fun c hc => ?_, h⟩
      rcases List.mem_cons.mp hc with rfl | hc
      · exact hlt
      · exact Nat.lt_trans hlt (hd c hc)
    · split
      · next he => exact List.pairwise_cons.mpr ⟨fun c hc => by simpa [he] using hd c hc, hr⟩
      · next h1 h2 =>
        refine List.pairwise_cons.mpr ⟨fun c hc => ?_, ih hr⟩
        rcases Cells.mem_insert hc with rfl | hc
        · simp only; omega
        · exact hd c hc

/-- A store of one byte keeps the canonical form. -/
theorem Cells.wf_set {size : Nat} {cells : List Host.Cell} (h : Cells.wf size cells) {o : Nat} (ho : o < size)
    (b : Byte) : Cells.wf size (Cells.set cells o b) := by
  unfold Cells.set
  split
  · exact ⟨h.1.filter _, fun c hc => h.2 c (List.mem_filter.mp hc).1⟩
  · next hb =>
    refine ⟨Cells.sorted_insert h.1, fun c hc => ?_⟩
    rcases Cells.mem_insert hc with rfl | hc
    · exact ⟨ho, hb⟩
    · exact h.2 c hc

theorem Cells.wf_nil (size : Nat) : Cells.wf size [] := ⟨List.Pairwise.nil, by simp⟩

/-! ## Swap records -/

theorem SwapRecord.find_put (p q : Nat) (data : List Host.Cell) (l : List SwapRecord) :
    (SwapRecord.put p data l).find? (fun r => r.page == q) =
      if q = p then some { page := p, data := data } else l.find? (fun r => r.page == q) := by
  induction l with
  | nil => by_cases h : p = q <;> simp [SwapRecord.put, h, eq_comm (a := q)]
  | cons r rest ih =>
    simp only [SwapRecord.put]
    split
    · by_cases h : p = q <;> simp [h, eq_comm (a := q)]
    · split
      · next h => by_cases hq : p = q
                  · subst hq; simp
                  · have : ¬ r.page = q := h ▸ hq
                    simp [hq, eq_comm (a := q), this]
      · next h =>
        by_cases hr : r.page = q
        · have : ¬ q = p := by rintro rfl; exact h hr.symm
          simp [hr, this]
        · rw [List.find?_cons_of_neg (by simpa using hr), ih, List.find?_cons_of_neg (by simpa using hr)]

theorem SwapRecord.mem_put {p : Nat} {data : List Host.Cell} {l : List SwapRecord} {r : SwapRecord}
    (h : r ∈ SwapRecord.put p data l) : r = { page := p, data := data } ∨ r ∈ l := by
  induction l with
  | nil => simpa [SwapRecord.put] using h
  | cons d rest ih =>
    simp only [SwapRecord.put] at h
    split at h
    · simpa using h
    · split at h
      · rcases List.mem_cons.mp h with h | h
        · exact .inl h
        · exact .inr (List.mem_cons_of_mem _ h)
      · rcases List.mem_cons.mp h with h | h
        · exact .inr (h ▸ List.mem_cons_self)
        · exact (ih h).imp id (List.mem_cons_of_mem _)

theorem SwapRecord.sorted_put {p : Nat} {data : List Host.Cell} {l : List SwapRecord}
    (h : l.Pairwise (fun a b => a.page < b.page)) : (SwapRecord.put p data l).Pairwise (fun a b => a.page < b.page) := by
  induction l with
  | nil => simp [SwapRecord.put]
  | cons d rest ih =>
    obtain ⟨hd, hr⟩ := List.pairwise_cons.mp h
    simp only [SwapRecord.put]
    split
    · next hlt =>
      refine List.pairwise_cons.mpr ⟨fun c hc => ?_, h⟩
      rcases List.mem_cons.mp hc with rfl | hc
      · exact hlt
      · exact Nat.lt_trans hlt (hd c hc)
    · split
      · next he => exact List.pairwise_cons.mpr ⟨fun c hc => by simpa [he] using hd c hc, hr⟩
      · next h1 h2 =>
        refine List.pairwise_cons.mpr ⟨fun c hc => ?_, ih hr⟩
        rcases SwapRecord.mem_put hc with rfl | hc
        · simp only; omega
        · exact hd c hc

/-! ## Pages -/

theorem Memory.slotOf_page {m : Memory} {p : Nat} {s : Slot} (h : m.slotOf p = some s) : s.page = p := by
  simpa using List.find?_some h

theorem Memory.slotOf_mem {m : Memory} {p : Nat} {s : Slot} (h : m.slotOf p = some s) : s ∈ m.resident :=
  List.mem_of_find?_eq_some h

theorem Memory.slotOf_none {m : Memory} {p : Nat} : m.slotOf p = none ↔ ∀ s ∈ m.resident, s.page ≠ p := by
  simp [Memory.slotOf]

/-- A resident page is found by its index, when no page is resident twice. -/
theorem Memory.slotOf_of_mem {m : Memory} (h : (m.resident.map (·.page)).Nodup) {s : Slot} (hs : s ∈ m.resident) :
    m.slotOf s.page = some s := by
  rcases hf : m.slotOf s.page with _ | t
  · exact absurd rfl (Memory.slotOf_none.mp hf s hs)
  · exact congrArg some (List.inj_on_of_nodup_map h (Memory.slotOf_mem hf) hs (Memory.slotOf_page hf))

theorem Memory.byteAt_congr {m m' : Memory} (h : ∀ p, m'.pageData p = m.pageData p) (bits a : Nat) :
    m'.byteAt bits a = m.byteAt bits a := by
  simp only [Memory.byteAt, h]

/-! ## Touching -/

/-- Moving a page to the MRU end permutes the resident pages. -/
theorem Memory.touch_perm {m : Memory} (h : (m.resident.map (·.page)).Nodup) (p : Nat) :
    (m.touch p).resident.Perm m.resident ∧ (m.touch p).swap = m.swap := by
  unfold Memory.touch
  split
  · next s hs =>
    refine ⟨?_, rfl⟩
    have hf : m.resident.filter (fun t => !(t.page != p)) = [s] := by
      have : m.resident.filter (fun t => !(t.page != p)) = m.resident.filter (fun t => t = s) := by
        refine List.filter_congr fun t ht => ?_
        have hp := Memory.slotOf_page hs
        by_cases h' : t.page = p
        · have : t = s := List.inj_on_of_nodup_map h ht (Memory.slotOf_mem hs) (h'.trans hp.symm)
          simp [this, hp]
        · have : t ≠ s := fun e => h' (e ▸ hp)
          simp [h', this]
      rw [this, show (fun t => decide (t = s)) = (fun t => t == s) from funext fun _ => rfl, List.filter_beq,
        List.count_eq_one_of_mem (List.Nodup.of_map _ h) (Memory.slotOf_mem hs)]
      rfl
    have := List.filter_append_perm (fun t : Slot => t.page != p) m.resident
    rwa [hf] at this
  · exact ⟨.refl _, rfl⟩

theorem Memory.slotOf_perm {m m' : Memory} (h : (m.resident.map (·.page)).Nodup) (hp : m'.resident.Perm m.resident)
    (p : Nat) : m'.slotOf p = m.slotOf p := by
  have h' : (m'.resident.map (·.page)).Nodup := (hp.map _).nodup_iff.mpr h
  rcases hf : m.slotOf p with _ | s
  · exact Memory.slotOf_none.mpr fun s hs => Memory.slotOf_none.mp hf s (hp.mem_iff.mp hs)
  · rw [← Memory.slotOf_page hf]
    exact Memory.slotOf_of_mem h' (hp.mem_iff.mpr (Memory.slotOf_mem hf))

/-- The form of the memory does not depend on the LRU order. -/
theorem Memory.wf_perm {m m' : Memory} {bits n : Nat} (h : m.wf bits n) (hp : m'.resident.Perm m.resident)
    (hs : m'.swap = m.swap) : m'.wf bits n := by
  obtain ⟨h1, h2, h3, h4, h5, h6⟩ := h
  have hr : ∀ p, m'.recordOf p = m.recordOf p := fun p => by simp [Memory.recordOf, hs]
  refine ⟨(hp.map _).nodup_iff.mpr h1, (hp.map _).nodup_iff.mpr h2, hp.length_eq ▸ h3, fun s hs' => ?_, hs ▸ h5, hs ▸ h6⟩
  rw [hr]
  exact h4 s (hp.mem_iff.mp hs')

theorem Memory.pageData_perm {m m' : Memory} (h : (m.resident.map (·.page)).Nodup) (hp : m'.resident.Perm m.resident)
    (hs : m'.swap = m.swap) (p : Nat) : m'.pageData p = m.pageData p := by
  simp only [Memory.pageData, Memory.slotOf_perm h hp, Memory.recordOf, hs]

/-! ## Obtaining a slot (rules R83, R84) -/

theorem Memory.freeSlot_spec {m : Memory} {n : Nat} (hlt : m.resident.length < n) :
    m.freeSlot < n ∧ ∀ s ∈ m.resident, s.slot ≠ m.freeSlot := by
  unfold Memory.freeSlot
  rcases hf : (List.range (m.resident.length + 1)).find? (fun n => !(m.resident.any (fun s => s.slot == n))) with _ | k
  · exfalso
    have hsub : List.range (m.resident.length + 1) ⊆ m.resident.map (·.slot) := fun k hk => by
      have := List.find?_eq_none.mp hf k hk
      simpa using this
    have := (List.subperm_of_subset List.nodup_range hsub).length_le
    simp at this
  · have hk := List.mem_of_find?_eq_some hf
    have hp := List.find?_some hf
    simp only [List.mem_range] at hk
    simp only [Option.getD_some]
    refine ⟨by omega, fun s hs he => ?_⟩
    simp only [Bool.not_eq_true', List.any_eq_false, beq_iff_eq] at hp
    exact hp s hs he

/-- What obtaining a slot can do: the slot is free afterwards, no page's bytes change, the page asked for keeps its
record, and the form is kept with room for one more page. -/
theorem Memory.obtainSlot_spec {m m' : Memory} {bits n k : Nat} {e e' : Env} (h : m.wf bits n)
    (ho : m.obtainSlot n e = (some (k, m'), e')) (hn : 0 < n) :
    m'.wf bits n ∧ m'.resident.length < n ∧ k < n ∧ (∀ s ∈ m'.resident, s.slot ≠ k) ∧
      (∀ p, m'.pageData p = m.pageData p) ∧
      (∀ p, m.slotOf p = none → m'.slotOf p = none ∧ m'.recordOf p = m.recordOf p) := by
  unfold Memory.obtainSlot at ho
  split at ho
  · next hlt =>
    simp only [Prod.mk.injEq, Option.some.injEq] at ho
    obtain ⟨⟨rfl, rfl⟩, -⟩ := ho
    obtain ⟨hk, hu⟩ := Memory.freeSlot_spec hlt
    exact ⟨h, hlt, hk, hu, fun _ => rfl, fun p hp => ⟨hp, rfl⟩⟩
  · next hlt =>
    split at ho
    · next hnil => simp [hnil] at hlt; omega
    · next q rest hcons =>
      obtain ⟨h1, h2, h3, h4, h5, h6⟩ := h
      rw [hcons] at h1 h2 h3 h4
      simp only [List.map_cons, List.nodup_cons, List.mem_map, not_exists, not_and] at h1 h2
      simp only [List.length_cons] at h3
      have hq := h4 q List.mem_cons_self
      have hslot : ∀ p, m.slotOf p = if q.page = p then some q else rest.find? (fun s => s.page == p) := fun p => by
        by_cases hqp : q.page = p <;> simp [Memory.slotOf, hcons, hqp]
      have hrest : rest.find? (fun s => s.page == q.page) = none := by
        simpa using fun s hs => h1.1 s hs
      split at ho
      · next hdirty =>
        rcases hd : e.drawSwap with ⟨ok, e1⟩
        rw [hd] at ho
        cases ok with
        | false => simp at ho
        | true =>
          simp only [Prod.mk.injEq, Option.some.injEq] at ho
          obtain ⟨⟨rfl, rfl⟩, -⟩ := ho
          have hrec : ∀ p, Memory.recordOf ⟨rest, SwapRecord.put q.page q.data m.swap⟩ p =
              if p = q.page then some ⟨q.page, q.data⟩ else m.recordOf p := fun p =>
            SwapRecord.find_put q.page p q.data m.swap
          refine ⟨⟨h1.2, h2.2, by simp only; omega, fun s hs => ?_, SwapRecord.sorted_put h5, fun r hr => ?_⟩,
            by simp only; omega, hq.1, fun s hs he => h2.1 s hs he, fun p => ?_, fun p hp => ?_⟩
          · have := h4 s (List.mem_cons_of_mem _ hs)
            refine ⟨this.1, this.2.1, this.2.2.1, fun hc => ?_⟩
            rw [hrec, if_neg (fun he => h1.1 s hs he)]
            exact this.2.2.2 hc
          · rcases SwapRecord.mem_put hr with rfl | hr
            · exact ⟨hq.2.1, hq.2.2.1⟩
            · exact h6 r hr
          · simp only [Memory.pageData, hrec, hslot]
            simp only [Memory.slotOf]
            by_cases hp : q.page = p
            · subst hp; simp [hrest]
            · simp [hp, eq_comm (a := p)]
          · rw [hslot] at hp
            have hqp : ¬ q.page = p := by intro he; simp [he] at hp
            rw [if_neg hqp] at hp
            exact ⟨hp, by rw [hrec, if_neg (fun he => hqp he.symm)]⟩
      · next hclean =>
        simp only [Prod.mk.injEq, Option.some.injEq] at ho
        obtain ⟨⟨rfl, rfl⟩, -⟩ := ho
        refine ⟨⟨h1.2, h2.2, by simp only; omega, fun s hs => h4 s (List.mem_cons_of_mem _ hs), h5, h6⟩,
          by simp only; omega, hq.1, fun s hs he => h2.1 s hs he, fun p => ?_, fun p hp => ?_⟩
        · simp only [Memory.pageData, hslot]
          simp only [Memory.slotOf]
          by_cases hp : q.page = p
          · subst hp
            have hc := hq.2.2.2 (by simpa using hclean)
            rcases hr : m.recordOf q.page with _ | r
            · simp [hr] at hc
            · simp only [hr, Option.map_some, Option.some.injEq] at hc
              have : Memory.recordOf ⟨rest, m.swap⟩ q.page = some r := hr
              simp [hrest, this, hc]
          · simp only [hp, if_false]; rfl
        · rw [hslot] at hp
          have hqp : ¬ q.page = p := by intro he; simp [he] at hp
          rw [if_neg hqp] at hp
          exact ⟨hp, rfl⟩

/-- A page that becomes resident in a slot of its own. -/
theorem Memory.append_spec {m : Memory} {bits n : Nat} (h : m.wf bits n) (hlt : m.resident.length < n) (t : Slot)
    (hk : t.slot < n) (hu : ∀ s ∈ m.resident, s.slot ≠ t.slot) (hp : m.slotOf t.page = none)
    (hsize : t.page < 2 ^ (32 - bits)) (hwf : Cells.wf (2 ^ bits) t.data)
    (hcopy : t.dirty = false → (m.recordOf t.page).map (·.data) = some t.data) (hdata : t.data = m.pageData t.page) :
    Memory.wf { m with resident := m.resident ++ [t] } bits n ∧
      (∀ p, Memory.pageData { m with resident := m.resident ++ [t] } p = m.pageData p) ∧
      (Memory.slotOf { m with resident := m.resident ++ [t] } t.page).isSome = true := by
  obtain ⟨h1, h2, h3, h4, h5, h6⟩ := h
  have hpage := Memory.slotOf_none.mp hp
  have hslot : ∀ p, Memory.slotOf { m with resident := m.resident ++ [t] } p =
      (m.slotOf p).or (if t.page = p then some t else none) := fun p => by
    simp only [Memory.slotOf, List.find?_append, List.find?_cons, List.find?_nil]
    by_cases htp : t.page = p
    · subst htp; simp
    · simp [htp, show (t.page == p) = false from by simpa using htp]
  refine ⟨⟨?_, ?_, by simp only [List.length_append, List.length_singleton]; omega, fun s hs => ?_, h5, h6⟩,
    fun p => ?_, ?_⟩
  · rw [List.map_append, List.nodup_append]
    refine ⟨h1, by simp, ?_⟩
    simp only [List.mem_map, List.map_cons, List.map_nil, List.mem_singleton]
    rintro a ⟨s, hs, rfl⟩ b rfl
    exact hpage s hs
  · rw [List.map_append, List.nodup_append]
    refine ⟨h2, by simp, ?_⟩
    simp only [List.mem_map, List.map_cons, List.map_nil, List.mem_singleton]
    rintro a ⟨s, hs, rfl⟩ b rfl
    exact hu s hs
  · rcases List.mem_append.mp hs with hs | hs
    · exact h4 s hs
    · obtain rfl := List.mem_singleton.mp hs
      exact ⟨hk, hsize, hwf, hcopy⟩
  · simp only [Memory.pageData, hslot]
    by_cases htp : t.page = p
    · subst htp
      simp only [hp, Option.none_or, if_true]
      rw [hdata]
      simp only [Memory.pageData, hp]
    · simp only [htp, if_false, Option.or_none]; rfl
  · rw [hslot]; simp

/-! ## The access (rules R81, R85) -/

/-- Rules R81, R85: an access that makes a page resident keeps the form and every byte, and the page is resident
afterwards unless the access reads an absent page. -/
theorem Memory.acquire_spec {m m' : Memory} {bits n p : Nat} {forWrite : Bool} {e e' : Env} (h : m.wf bits n)
    (hn : 0 < n) (hp : p < 2 ^ (32 - bits)) (ha : m.acquire n p forWrite e = (some m', e')) :
    m'.wf bits n ∧ (∀ q, m'.pageData q = m.pageData q) ∧ (forWrite = true → (m'.slotOf p).isSome = true) := by
  unfold Memory.acquire at ha
  split at ha
  · next s hs =>
    simp only [Prod.mk.injEq, Option.some.injEq] at ha
    obtain ⟨rfl, -⟩ := ha
    obtain ⟨hperm, hswap⟩ := Memory.touch_perm h.1 p
    refine ⟨Memory.wf_perm h hperm hswap, Memory.pageData_perm h.1 hperm hswap, fun _ => ?_⟩
    rw [Memory.slotOf_perm h.1 hperm, hs]; rfl
  · next hs =>
    split at ha
    · next r hr =>
      split at ha
      · simp at ha
      · next k m1 e1 ho =>
        obtain ⟨w, hlt, hk, hu, hd, hpr⟩ := Memory.obtainSlot_spec h ho hn
        obtain ⟨hs1, hr1⟩ := hpr p hs
        have hrp : r.page = p := by simpa using List.find?_some hr
        rcases hdr : e1.drawSwap with ⟨ok, e2⟩
        rw [hdr] at ha
        cases ok with
        | false => simp at ha
        | true =>
          simp only [Prod.mk.injEq, Option.some.injEq] at ha
          obtain ⟨rfl, -⟩ := ha
          have hdata : r.data = m1.pageData p := by simp [Memory.pageData, hs1, hr1, hr]
          obtain ⟨w', hd', hsome⟩ := Memory.append_spec w hlt ⟨p, k, false, r.data⟩ hk hu hs1 hp
            (h.2.2.2.2.2 r (List.mem_of_find?_eq_some hr)).2 (fun _ => by simp [hr1, hr]) hdata
          exact ⟨w', fun q => (hd' q).trans (hd q), fun _ => hsome⟩
    · next hr =>
      split at ha
      · next hw =>
        split at ha
        · simp at ha
        · next k m1 e1 ho =>
          obtain ⟨w, hlt, hk, hu, hd, hpr⟩ := Memory.obtainSlot_spec h ho hn
          obtain ⟨hs1, hr1⟩ := hpr p hs
          simp only [Prod.mk.injEq, Option.some.injEq] at ha
          obtain ⟨rfl, -⟩ := ha
          have hdata : ([] : List Host.Cell) = m1.pageData p := by simp [Memory.pageData, hs1, hr1, hr]
          obtain ⟨w', hd', hsome⟩ := Memory.append_spec w hlt ⟨p, k, true, []⟩ hk hu hs1 hp (Cells.wf_nil _)
            (by simp) hdata
          exact ⟨w', fun q => (hd' q).trans (hd q), fun _ => hsome⟩
      · next hw =>
        simp only [Prod.mk.injEq, Option.some.injEq] at ha
        obtain ⟨rfl, -⟩ := ha
        exact ⟨h, fun _ => rfl, fun hw' => absurd hw' hw⟩

/-- An access whose page is resident needs no transfer and always succeeds. -/
theorem Memory.acquire_resident {m : Memory} {p : Nat} (h : (m.slotOf p).isSome = true) (n : Nat) (forWrite : Bool)
    (e : Env) : m.acquire n p forWrite e = (some (m.touch p), e) := by
  obtain ⟨s, hs⟩ := Option.isSome_iff_exists.mp h
  simp [Memory.acquire, hs]

/-- After an access to a page, a further read of that page needs no transfer that can fail. -/
theorem Memory.acquire_again {m m' : Memory} {bits n p : Nat} {forWrite : Bool} {e e' : Env} (h : m.wf bits n)
    (hn : 0 < n) (hp : p < 2 ^ (32 - bits)) (ha : m.acquire n p forWrite e = (some m', e')) (e'' : Env) :
    ((m'.acquire n p false e'').1).isSome = true := by
  have resident : (m'.slotOf p).isSome = true → ((m'.acquire n p false e'').1).isSome = true := fun hr => by
    rw [Memory.acquire_resident hr]; rfl
  by_cases hw : forWrite = true
  · exact resident ((Memory.acquire_spec h hn hp ha).2.2 hw)
  · obtain rfl : forWrite = false := by simpa using hw
    unfold Memory.acquire at ha
    split at ha
    · next s hs =>
      simp only [Prod.mk.injEq, Option.some.injEq] at ha
      obtain ⟨rfl, -⟩ := ha
      exact resident (by rw [Memory.slotOf_perm h.1 (Memory.touch_perm h.1 p).1, hs]; rfl)
    · next hs =>
      split at ha
      · next r hr =>
        split at ha
        · simp at ha
        · next k m1 e1 ho =>
          rcases hdr : e1.drawSwap with ⟨_ | _, e2⟩
          · simp [hdr] at ha
          · simp only [hdr, Prod.mk.injEq, Option.some.injEq] at ha
            obtain ⟨rfl, -⟩ := ha
            exact resident (by simp [Memory.slotOf, List.find?_append])
      · next hr =>
        simp only [Bool.false_eq_true, if_false, Prod.mk.injEq, Option.some.injEq] at ha
        obtain ⟨rfl, -⟩ := ha
        simp [Memory.acquire, hs, hr]

/-! ## Storing a byte -/

theorem Memory.slotOf_poke (m : Memory) (bits a : Nat) (b : Byte) (p : Nat) :
    (m.poke bits a b).slotOf p = (m.slotOf p).map fun s =>
      if s.page = a / 2 ^ bits then { s with dirty := true, data := Cells.set s.data (a % 2 ^ bits) b } else s := by
  have : ((fun s : Slot => s.page == p) ∘ fun s : Slot =>
      if s.page = a / 2 ^ bits then { s with dirty := true, data := Cells.set s.data (a % 2 ^ bits) b } else s) =
      fun s => s.page == p := by
    ext s; simp only [Function.comp]; split <;> rfl
  simp only [Memory.slotOf, Memory.poke, List.find?_map, this]

/-- Reading a byte after a store to a resident page. -/
theorem Memory.byteAt_poke {m : Memory} {bits a : Nat} (h : (m.slotOf (a / 2 ^ bits)).isSome = true) (b : Byte)
    (a' : Nat) : (m.poke bits a b).byteAt bits a' = if a' = a then b else m.byteAt bits a' := by
  obtain ⟨s, hs⟩ := Option.isSome_iff_exists.mp h
  have hdm : ∀ x : Nat, x = 2 ^ bits * (x / 2 ^ bits) + x % 2 ^ bits := fun x => (Nat.div_add_mod x _).symm
  simp only [Memory.byteAt, Memory.pageData, Memory.slotOf_poke]
  by_cases hpage : a' / 2 ^ bits = a / 2 ^ bits
  · rw [hpage, hs]
    simp only [Option.map_some, Memory.slotOf_page hs, if_true, Cells.get_set]
    by_cases ho : a' % 2 ^ bits = a % 2 ^ bits
    · have : a' = a := by rw [hdm a', hdm a, hpage, ho]
      simp [this]
    · have : a' ≠ a := fun e => ho (by rw [e])
      simp [ho, this]
  · have : a' ≠ a := fun e => hpage (by rw [e])
    rw [if_neg this]
    rcases hf : m.slotOf (a' / 2 ^ bits) with _ | t
    · simp [Memory.recordOf, Memory.poke]
    · have : ¬ t.page = a / 2 ^ bits := by rw [Memory.slotOf_page hf]; exact hpage
      simp [this]

/-- A store keeps the form of the memory. -/
theorem Memory.wf_poke {m : Memory} {bits n : Nat} (h : m.wf bits n) (a : Nat) (b : Byte) :
    (m.poke bits a b).wf bits n := by
  obtain ⟨h1, h2, h3, h4, h5, h6⟩ := h
  have hmap : ∀ (β : Type) (f : Slot → β), (∀ s : Slot, f { s with dirty := true, data := Cells.set s.data (a % 2 ^ bits) b } = f s) →
      (m.poke bits a b).resident.map f = m.resident.map f := fun β f hf => by
    simp only [Memory.poke, List.map_map]
    refine List.map_congr_left fun s _ => ?_
    simp only [Function.comp]
    split
    · exact hf s
    · rfl
  refine ⟨by rw [hmap _ (·.page) fun _ => rfl]; exact h1, by rw [hmap _ (·.slot) fun _ => rfl]; exact h2,
    by simpa [Memory.poke] using h3, fun s hs => ?_, h5, h6⟩
  simp only [Memory.poke, List.mem_map] at hs
  obtain ⟨t, ht, rfl⟩ := hs
  have := h4 t ht
  split
  · exact ⟨this.1, this.2.1, Cells.wf_set this.2.2.1 (Nat.mod_lt _ (Nat.two_pow_pos _)) b, by simp⟩
  · exact this

end Sys2Proof.Machine
end

