-- ==== Sys2Proof/Laws/State.lean ====
section
/-! SUPPORT. What each update of the state does to each field, for `simp`. -/

namespace Sys2Proof.Machine

@[simp] theorem State.setGpr_hi (s : State) (r : Reg) (v : Word) : (s.setGpr r v).hi = s.hi := by
  unfold State.setGpr; split <;> rfl
@[simp] theorem State.setGpr_lo (s : State) (r : Reg) (v : Word) : (s.setGpr r v).lo = s.lo := by
  unfold State.setGpr; split <;> rfl
@[simp] theorem State.setGpr_pc (s : State) (r : Reg) (v : Word) : (s.setGpr r v).pc = s.pc := by
  unfold State.setGpr; split <;> rfl
@[simp] theorem State.setGpr_npc (s : State) (r : Reg) (v : Word) : (s.setGpr r v).npc = s.npc := by
  unfold State.setGpr; split <;> rfl
@[simp] theorem State.setGpr_ds (s : State) (r : Reg) (v : Word) : (s.setGpr r v).ds = s.ds := by
  unfold State.setGpr; split <;> rfl
@[simp] theorem State.setGpr_fprs (s : State) (r : Reg) (v : Word) : (s.setGpr r v).fprs = s.fprs := by
  unfold State.setGpr; split <;> rfl
@[simp] theorem State.setGpr_fcsr (s : State) (r : Reg) (v : Word) : (s.setGpr r v).fcsr = s.fcsr := by
  unfold State.setGpr; split <;> rfl
@[simp] theorem State.setGpr_llBit (s : State) (r : Reg) (v : Word) : (s.setGpr r v).llBit = s.llBit := by
  unfold State.setGpr; split <;> rfl
@[simp] theorem State.setGpr_llAddr (s : State) (r : Reg) (v : Word) : (s.setGpr r v).llAddr = s.llAddr := by
  unfold State.setGpr; split <;> rfl
@[simp] theorem State.setGpr_exitCode (s : State) (r : Reg) (v : Word) : (s.setGpr r v).exitCode = s.exitCode := by
  unfold State.setGpr; split <;> rfl
@[simp] theorem State.setGpr_exc (s : State) (r : Reg) (v : Word) : (s.setGpr r v).exc = s.exc := by
  unfold State.setGpr; split <;> rfl
@[simp] theorem State.setGpr_stopReq (s : State) (r : Reg) (v : Word) : (s.setGpr r v).stopReq = s.stopReq := by
  unfold State.setGpr; split <;> rfl
@[simp] theorem State.setGpr_running (s : State) (r : Reg) (v : Word) : (s.setGpr r v).running = s.running := by
  unfold State.setGpr; split <;> rfl
@[simp] theorem State.setGpr_memFailed (s : State) (r : Reg) (v : Word) : (s.setGpr r v).memFailed = s.memFailed := by
  unfold State.setGpr; split <;> rfl
@[simp] theorem State.setGpr_mem (s : State) (r : Reg) (v : Word) : (s.setGpr r v).mem = s.mem := by
  unfold State.setGpr; split <;> rfl
@[simp] theorem State.setGpr_params (s : State) (r : Reg) (v : Word) : (s.setGpr r v).params = s.params := by
  unfold State.setGpr; split <;> rfl
@[simp] theorem State.setGpr_calls (s : State) (r : Reg) (v : Word) : (s.setGpr r v).calls = s.calls := by
  unfold State.setGpr; split <;> rfl
@[simp] theorem State.setGpr_env (s : State) (r : Reg) (v : Word) : (s.setGpr r v).env = s.env := by
  unfold State.setGpr; split <;> rfl

@[simp] theorem State.setFpr_gprs (s : State) (r : FReg) (v : Word) : (s.setFpr r v).gprs = s.gprs := rfl
@[simp] theorem State.setFpr_hi (s : State) (r : FReg) (v : Word) : (s.setFpr r v).hi = s.hi := rfl
@[simp] theorem State.setFpr_lo (s : State) (r : FReg) (v : Word) : (s.setFpr r v).lo = s.lo := rfl
@[simp] theorem State.setFpr_pc (s : State) (r : FReg) (v : Word) : (s.setFpr r v).pc = s.pc := rfl
@[simp] theorem State.setFpr_npc (s : State) (r : FReg) (v : Word) : (s.setFpr r v).npc = s.npc := rfl
@[simp] theorem State.setFpr_ds (s : State) (r : FReg) (v : Word) : (s.setFpr r v).ds = s.ds := rfl
@[simp] theorem State.setFpr_fprs (s : State) (r : FReg) (v : Word) : (s.setFpr r v).fprs = s.fprs.set r v := rfl
@[simp] theorem State.setFpr_fcsr (s : State) (r : FReg) (v : Word) : (s.setFpr r v).fcsr = s.fcsr := rfl
@[simp] theorem State.setFpr_llBit (s : State) (r : FReg) (v : Word) : (s.setFpr r v).llBit = s.llBit := rfl
@[simp] theorem State.setFpr_llAddr (s : State) (r : FReg) (v : Word) : (s.setFpr r v).llAddr = s.llAddr := rfl
@[simp] theorem State.setFpr_exitCode (s : State) (r : FReg) (v : Word) : (s.setFpr r v).exitCode = s.exitCode := rfl
@[simp] theorem State.setFpr_exc (s : State) (r : FReg) (v : Word) : (s.setFpr r v).exc = s.exc := rfl
@[simp] theorem State.setFpr_stopReq (s : State) (r : FReg) (v : Word) : (s.setFpr r v).stopReq = s.stopReq := rfl
@[simp] theorem State.setFpr_running (s : State) (r : FReg) (v : Word) : (s.setFpr r v).running = s.running := rfl
@[simp] theorem State.setFpr_memFailed (s : State) (r : FReg) (v : Word) : (s.setFpr r v).memFailed = s.memFailed := rfl
@[simp] theorem State.setFpr_mem (s : State) (r : FReg) (v : Word) : (s.setFpr r v).mem = s.mem := rfl
@[simp] theorem State.setFpr_params (s : State) (r : FReg) (v : Word) : (s.setFpr r v).params = s.params := rfl
@[simp] theorem State.setFpr_calls (s : State) (r : FReg) (v : Word) : (s.setFpr r v).calls = s.calls := rfl
@[simp] theorem State.setFpr_env (s : State) (r : FReg) (v : Word) : (s.setFpr r v).env = s.env := rfl

@[simp] theorem State.setFd64_gprs (s : State) (r : FReg) (v : DWord) : (s.setFd64 r v).gprs = s.gprs := rfl
@[simp] theorem State.setFd64_hi (s : State) (r : FReg) (v : DWord) : (s.setFd64 r v).hi = s.hi := rfl
@[simp] theorem State.setFd64_lo (s : State) (r : FReg) (v : DWord) : (s.setFd64 r v).lo = s.lo := rfl
@[simp] theorem State.setFd64_pc (s : State) (r : FReg) (v : DWord) : (s.setFd64 r v).pc = s.pc := rfl
@[simp] theorem State.setFd64_npc (s : State) (r : FReg) (v : DWord) : (s.setFd64 r v).npc = s.npc := rfl
@[simp] theorem State.setFd64_ds (s : State) (r : FReg) (v : DWord) : (s.setFd64 r v).ds = s.ds := rfl
@[simp] theorem State.setFd64_fcsr (s : State) (r : FReg) (v : DWord) : (s.setFd64 r v).fcsr = s.fcsr := rfl
@[simp] theorem State.setFd64_llBit (s : State) (r : FReg) (v : DWord) : (s.setFd64 r v).llBit = s.llBit := rfl
@[simp] theorem State.setFd64_llAddr (s : State) (r : FReg) (v : DWord) : (s.setFd64 r v).llAddr = s.llAddr := rfl
@[simp] theorem State.setFd64_exitCode (s : State) (r : FReg) (v : DWord) : (s.setFd64 r v).exitCode = s.exitCode := rfl
@[simp] theorem State.setFd64_exc (s : State) (r : FReg) (v : DWord) : (s.setFd64 r v).exc = s.exc := rfl
@[simp] theorem State.setFd64_stopReq (s : State) (r : FReg) (v : DWord) : (s.setFd64 r v).stopReq = s.stopReq := rfl
@[simp] theorem State.setFd64_running (s : State) (r : FReg) (v : DWord) : (s.setFd64 r v).running = s.running := rfl
@[simp] theorem State.setFd64_memFailed (s : State) (r : FReg) (v : DWord) : (s.setFd64 r v).memFailed = s.memFailed := rfl
@[simp] theorem State.setFd64_mem (s : State) (r : FReg) (v : DWord) : (s.setFd64 r v).mem = s.mem := rfl
@[simp] theorem State.setFd64_params (s : State) (r : FReg) (v : DWord) : (s.setFd64 r v).params = s.params := rfl
@[simp] theorem State.setFd64_calls (s : State) (r : FReg) (v : DWord) : (s.setFd64 r v).calls = s.calls := rfl
@[simp] theorem State.setFd64_env (s : State) (r : FReg) (v : DWord) : (s.setFd64 r v).env = s.env := rfl

@[simp] theorem State.advance_gprs (s : State) : (s.advance).gprs = s.gprs := rfl
@[simp] theorem State.advance_hi (s : State) : (s.advance).hi = s.hi := rfl
@[simp] theorem State.advance_lo (s : State) : (s.advance).lo = s.lo := rfl
@[simp] theorem State.advance_pc (s : State) : (s.advance).pc = s.npc := rfl
@[simp] theorem State.advance_npc (s : State) : (s.advance).npc = s.npc + 4 := rfl
@[simp] theorem State.advance_ds (s : State) : (s.advance).ds = false := rfl
@[simp] theorem State.advance_fprs (s : State) : (s.advance).fprs = s.fprs := rfl
@[simp] theorem State.advance_fcsr (s : State) : (s.advance).fcsr = s.fcsr := rfl
@[simp] theorem State.advance_llBit (s : State) : (s.advance).llBit = s.llBit := rfl
@[simp] theorem State.advance_llAddr (s : State) : (s.advance).llAddr = s.llAddr := rfl
@[simp] theorem State.advance_exitCode (s : State) : (s.advance).exitCode = s.exitCode := rfl
@[simp] theorem State.advance_exc (s : State) : (s.advance).exc = s.exc := rfl
@[simp] theorem State.advance_stopReq (s : State) : (s.advance).stopReq = s.stopReq := rfl
@[simp] theorem State.advance_running (s : State) : (s.advance).running = s.running := rfl
@[simp] theorem State.advance_memFailed (s : State) : (s.advance).memFailed = s.memFailed := rfl
@[simp] theorem State.advance_mem (s : State) : (s.advance).mem = s.mem := rfl
@[simp] theorem State.advance_params (s : State) : (s.advance).params = s.params := rfl
@[simp] theorem State.advance_calls (s : State) : (s.advance).calls = s.calls := rfl
@[simp] theorem State.advance_env (s : State) : (s.advance).env = s.env := rfl

@[simp] theorem State.advanceCti_gprs (s : State) (t : Option Word) : (s.advanceCti t).gprs = s.gprs := rfl
@[simp] theorem State.advanceCti_hi (s : State) (t : Option Word) : (s.advanceCti t).hi = s.hi := rfl
@[simp] theorem State.advanceCti_lo (s : State) (t : Option Word) : (s.advanceCti t).lo = s.lo := rfl
@[simp] theorem State.advanceCti_pc (s : State) (t : Option Word) : (s.advanceCti t).pc = s.npc := rfl
@[simp] theorem State.advanceCti_npc (s : State) (t : Option Word) : (s.advanceCti t).npc = t.getD (s.npc + 4) := rfl
@[simp] theorem State.advanceCti_ds (s : State) (t : Option Word) : (s.advanceCti t).ds = true := rfl
@[simp] theorem State.advanceCti_fprs (s : State) (t : Option Word) : (s.advanceCti t).fprs = s.fprs := rfl
@[simp] theorem State.advanceCti_fcsr (s : State) (t : Option Word) : (s.advanceCti t).fcsr = s.fcsr := rfl
@[simp] theorem State.advanceCti_llBit (s : State) (t : Option Word) : (s.advanceCti t).llBit = s.llBit := rfl
@[simp] theorem State.advanceCti_llAddr (s : State) (t : Option Word) : (s.advanceCti t).llAddr = s.llAddr := rfl
@[simp] theorem State.advanceCti_exitCode (s : State) (t : Option Word) : (s.advanceCti t).exitCode = s.exitCode := rfl
@[simp] theorem State.advanceCti_exc (s : State) (t : Option Word) : (s.advanceCti t).exc = s.exc := rfl
@[simp] theorem State.advanceCti_stopReq (s : State) (t : Option Word) : (s.advanceCti t).stopReq = s.stopReq := rfl
@[simp] theorem State.advanceCti_running (s : State) (t : Option Word) : (s.advanceCti t).running = s.running := rfl
@[simp] theorem State.advanceCti_memFailed (s : State) (t : Option Word) : (s.advanceCti t).memFailed = s.memFailed := rfl
@[simp] theorem State.advanceCti_mem (s : State) (t : Option Word) : (s.advanceCti t).mem = s.mem := rfl
@[simp] theorem State.advanceCti_params (s : State) (t : Option Word) : (s.advanceCti t).params = s.params := rfl
@[simp] theorem State.advanceCti_calls (s : State) (t : Option Word) : (s.advanceCti t).calls = s.calls := rfl
@[simp] theorem State.advanceCti_env (s : State) (t : Option Word) : (s.advanceCti t).env = s.env := rfl

@[simp] theorem State.writePc_gprs (s : State) (v : Word) : (s.writePc v).gprs = s.gprs := rfl
@[simp] theorem State.writePc_hi (s : State) (v : Word) : (s.writePc v).hi = s.hi := rfl
@[simp] theorem State.writePc_lo (s : State) (v : Word) : (s.writePc v).lo = s.lo := rfl
@[simp] theorem State.writePc_pc (s : State) (v : Word) : (s.writePc v).pc = v := rfl
@[simp] theorem State.writePc_npc (s : State) (v : Word) : (s.writePc v).npc = v + 4 := rfl
@[simp] theorem State.writePc_ds (s : State) (v : Word) : (s.writePc v).ds = false := rfl
@[simp] theorem State.writePc_fprs (s : State) (v : Word) : (s.writePc v).fprs = s.fprs := rfl
@[simp] theorem State.writePc_fcsr (s : State) (v : Word) : (s.writePc v).fcsr = s.fcsr := rfl
@[simp] theorem State.writePc_llBit (s : State) (v : Word) : (s.writePc v).llBit = s.llBit := rfl
@[simp] theorem State.writePc_llAddr (s : State) (v : Word) : (s.writePc v).llAddr = s.llAddr := rfl
@[simp] theorem State.writePc_exitCode (s : State) (v : Word) : (s.writePc v).exitCode = s.exitCode := rfl
@[simp] theorem State.writePc_exc (s : State) (v : Word) : (s.writePc v).exc = s.exc := rfl
@[simp] theorem State.writePc_stopReq (s : State) (v : Word) : (s.writePc v).stopReq = s.stopReq := rfl
@[simp] theorem State.writePc_running (s : State) (v : Word) : (s.writePc v).running = s.running := rfl
@[simp] theorem State.writePc_memFailed (s : State) (v : Word) : (s.writePc v).memFailed = s.memFailed := rfl
@[simp] theorem State.writePc_mem (s : State) (v : Word) : (s.writePc v).mem = s.mem := rfl
@[simp] theorem State.writePc_params (s : State) (v : Word) : (s.writePc v).params = s.params := rfl
@[simp] theorem State.writePc_calls (s : State) (v : Word) : (s.writePc v).calls = s.calls := rfl
@[simp] theorem State.writePc_env (s : State) (v : Word) : (s.writePc v).env = s.env := rfl

@[simp] theorem State.raise_gprs (s : State) (k : ExcKind) (p : Word) : (s.raise k p).gprs = s.gprs := rfl
@[simp] theorem State.raise_hi (s : State) (k : ExcKind) (p : Word) : (s.raise k p).hi = s.hi := rfl
@[simp] theorem State.raise_lo (s : State) (k : ExcKind) (p : Word) : (s.raise k p).lo = s.lo := rfl
@[simp] theorem State.raise_pc (s : State) (k : ExcKind) (p : Word) : (s.raise k p).pc = s.pc := rfl
@[simp] theorem State.raise_npc (s : State) (k : ExcKind) (p : Word) : (s.raise k p).npc = s.npc := rfl
@[simp] theorem State.raise_ds (s : State) (k : ExcKind) (p : Word) : (s.raise k p).ds = s.ds := rfl
@[simp] theorem State.raise_fprs (s : State) (k : ExcKind) (p : Word) : (s.raise k p).fprs = s.fprs := rfl
@[simp] theorem State.raise_fcsr (s : State) (k : ExcKind) (p : Word) : (s.raise k p).fcsr = s.fcsr := rfl
@[simp] theorem State.raise_llBit (s : State) (k : ExcKind) (p : Word) : (s.raise k p).llBit = false := rfl
@[simp] theorem State.raise_llAddr (s : State) (k : ExcKind) (p : Word) : (s.raise k p).llAddr = s.llAddr := rfl
@[simp] theorem State.raise_exitCode (s : State) (k : ExcKind) (p : Word) : (s.raise k p).exitCode = .exception := rfl
@[simp] theorem State.raise_exc (s : State) (k : ExcKind) (p : Word) : (s.raise k p).exc = { kind := k, pc := if s.ds then s.pc - 4 else s.pc, bd := s.ds, payload := p } := rfl
@[simp] theorem State.raise_stopReq (s : State) (k : ExcKind) (p : Word) : (s.raise k p).stopReq = s.stopReq := rfl
@[simp] theorem State.raise_running (s : State) (k : ExcKind) (p : Word) : (s.raise k p).running = s.running := rfl
@[simp] theorem State.raise_memFailed (s : State) (k : ExcKind) (p : Word) : (s.raise k p).memFailed = s.memFailed := rfl
@[simp] theorem State.raise_mem (s : State) (k : ExcKind) (p : Word) : (s.raise k p).mem = s.mem := rfl
@[simp] theorem State.raise_params (s : State) (k : ExcKind) (p : Word) : (s.raise k p).params = s.params := rfl
@[simp] theorem State.raise_calls (s : State) (k : ExcKind) (p : Word) : (s.raise k p).calls = s.calls := rfl
@[simp] theorem State.raise_env (s : State) (k : ExcKind) (p : Word) : (s.raise k p).env = s.env := rfl

@[simp] theorem State.setCc_gprs (s : State) (c : Bool) : (s.setCc c).gprs = s.gprs := rfl
@[simp] theorem State.setCc_hi (s : State) (c : Bool) : (s.setCc c).hi = s.hi := rfl
@[simp] theorem State.setCc_lo (s : State) (c : Bool) : (s.setCc c).lo = s.lo := rfl
@[simp] theorem State.setCc_pc (s : State) (c : Bool) : (s.setCc c).pc = s.pc := rfl
@[simp] theorem State.setCc_npc (s : State) (c : Bool) : (s.setCc c).npc = s.npc := rfl
@[simp] theorem State.setCc_ds (s : State) (c : Bool) : (s.setCc c).ds = s.ds := rfl
@[simp] theorem State.setCc_fprs (s : State) (c : Bool) : (s.setCc c).fprs = s.fprs := rfl
@[simp] theorem State.setCc_fcsr (s : State) (c : Bool) : (s.setCc c).fcsr = (s.fcsr &&& 0xFF7FFFFF) ||| (if c then 0x00800000 else 0) := rfl
@[simp] theorem State.setCc_llBit (s : State) (c : Bool) : (s.setCc c).llBit = s.llBit := rfl
@[simp] theorem State.setCc_llAddr (s : State) (c : Bool) : (s.setCc c).llAddr = s.llAddr := rfl
@[simp] theorem State.setCc_exitCode (s : State) (c : Bool) : (s.setCc c).exitCode = s.exitCode := rfl
@[simp] theorem State.setCc_exc (s : State) (c : Bool) : (s.setCc c).exc = s.exc := rfl
@[simp] theorem State.setCc_stopReq (s : State) (c : Bool) : (s.setCc c).stopReq = s.stopReq := rfl
@[simp] theorem State.setCc_running (s : State) (c : Bool) : (s.setCc c).running = s.running := rfl
@[simp] theorem State.setCc_memFailed (s : State) (c : Bool) : (s.setCc c).memFailed = s.memFailed := rfl
@[simp] theorem State.setCc_mem (s : State) (c : Bool) : (s.setCc c).mem = s.mem := rfl
@[simp] theorem State.setCc_params (s : State) (c : Bool) : (s.setCc c).params = s.params := rfl
@[simp] theorem State.setCc_calls (s : State) (c : Bool) : (s.setCc c).calls = s.calls := rfl
@[simp] theorem State.setCc_env (s : State) (c : Bool) : (s.setCc c).env = s.env := rfl

@[simp] theorem State.poke_gprs (s : State) (a : Word) (b : Byte) : (s.poke a b).gprs = s.gprs := rfl
@[simp] theorem State.poke_hi (s : State) (a : Word) (b : Byte) : (s.poke a b).hi = s.hi := rfl
@[simp] theorem State.poke_lo (s : State) (a : Word) (b : Byte) : (s.poke a b).lo = s.lo := rfl
@[simp] theorem State.poke_pc (s : State) (a : Word) (b : Byte) : (s.poke a b).pc = s.pc := rfl
@[simp] theorem State.poke_npc (s : State) (a : Word) (b : Byte) : (s.poke a b).npc = s.npc := rfl
@[simp] theorem State.poke_ds (s : State) (a : Word) (b : Byte) : (s.poke a b).ds = s.ds := rfl
@[simp] theorem State.poke_fprs (s : State) (a : Word) (b : Byte) : (s.poke a b).fprs = s.fprs := rfl
@[simp] theorem State.poke_fcsr (s : State) (a : Word) (b : Byte) : (s.poke a b).fcsr = s.fcsr := rfl
@[simp] theorem State.poke_llBit (s : State) (a : Word) (b : Byte) : (s.poke a b).llBit = s.llBit := rfl
@[simp] theorem State.poke_llAddr (s : State) (a : Word) (b : Byte) : (s.poke a b).llAddr = s.llAddr := rfl
@[simp] theorem State.poke_exitCode (s : State) (a : Word) (b : Byte) : (s.poke a b).exitCode = s.exitCode := rfl
@[simp] theorem State.poke_exc (s : State) (a : Word) (b : Byte) : (s.poke a b).exc = s.exc := rfl
@[simp] theorem State.poke_stopReq (s : State) (a : Word) (b : Byte) : (s.poke a b).stopReq = s.stopReq := rfl
@[simp] theorem State.poke_running (s : State) (a : Word) (b : Byte) : (s.poke a b).running = s.running := rfl
@[simp] theorem State.poke_memFailed (s : State) (a : Word) (b : Byte) : (s.poke a b).memFailed = s.memFailed := rfl
@[simp] theorem State.poke_mem (s : State) (a : Word) (b : Byte) : (s.poke a b).mem = s.mem.poke s.params.pageBits a.toNat b := rfl
@[simp] theorem State.poke_params (s : State) (a : Word) (b : Byte) : (s.poke a b).params = s.params := rfl
@[simp] theorem State.poke_calls (s : State) (a : Word) (b : Byte) : (s.poke a b).calls = s.calls := rfl
@[simp] theorem State.poke_env (s : State) (a : Word) (b : Byte) : (s.poke a b).env = s.env := rfl

@[simp] theorem State.pokeWord_gprs (s : State) (a v : Word) : (s.pokeWord a v).gprs = s.gprs := rfl
@[simp] theorem State.pokeWord_hi (s : State) (a v : Word) : (s.pokeWord a v).hi = s.hi := rfl
@[simp] theorem State.pokeWord_lo (s : State) (a v : Word) : (s.pokeWord a v).lo = s.lo := rfl
@[simp] theorem State.pokeWord_pc (s : State) (a v : Word) : (s.pokeWord a v).pc = s.pc := rfl
@[simp] theorem State.pokeWord_npc (s : State) (a v : Word) : (s.pokeWord a v).npc = s.npc := rfl
@[simp] theorem State.pokeWord_ds (s : State) (a v : Word) : (s.pokeWord a v).ds = s.ds := rfl
@[simp] theorem State.pokeWord_fprs (s : State) (a v : Word) : (s.pokeWord a v).fprs = s.fprs := rfl
@[simp] theorem State.pokeWord_fcsr (s : State) (a v : Word) : (s.pokeWord a v).fcsr = s.fcsr := rfl
@[simp] theorem State.pokeWord_llBit (s : State) (a v : Word) : (s.pokeWord a v).llBit = s.llBit := rfl
@[simp] theorem State.pokeWord_llAddr (s : State) (a v : Word) : (s.pokeWord a v).llAddr = s.llAddr := rfl
@[simp] theorem State.pokeWord_exitCode (s : State) (a v : Word) : (s.pokeWord a v).exitCode = s.exitCode := rfl
@[simp] theorem State.pokeWord_exc (s : State) (a v : Word) : (s.pokeWord a v).exc = s.exc := rfl
@[simp] theorem State.pokeWord_stopReq (s : State) (a v : Word) : (s.pokeWord a v).stopReq = s.stopReq := rfl
@[simp] theorem State.pokeWord_running (s : State) (a v : Word) : (s.pokeWord a v).running = s.running := rfl
@[simp] theorem State.pokeWord_memFailed (s : State) (a v : Word) : (s.pokeWord a v).memFailed = s.memFailed := rfl
@[simp] theorem State.pokeWord_params (s : State) (a v : Word) : (s.pokeWord a v).params = s.params := rfl
@[simp] theorem State.pokeWord_calls (s : State) (a v : Word) : (s.pokeWord a v).calls = s.calls := rfl
@[simp] theorem State.pokeWord_env (s : State) (a v : Word) : (s.pokeWord a v).env = s.env := rfl

@[simp] theorem State.call_gprs (s : State) (c : HostCall) : (s.call c).gprs = s.gprs := rfl
@[simp] theorem State.call_hi (s : State) (c : HostCall) : (s.call c).hi = s.hi := rfl
@[simp] theorem State.call_lo (s : State) (c : HostCall) : (s.call c).lo = s.lo := rfl
@[simp] theorem State.call_pc (s : State) (c : HostCall) : (s.call c).pc = s.pc := rfl
@[simp] theorem State.call_npc (s : State) (c : HostCall) : (s.call c).npc = s.npc := rfl
@[simp] theorem State.call_ds (s : State) (c : HostCall) : (s.call c).ds = s.ds := rfl
@[simp] theorem State.call_fprs (s : State) (c : HostCall) : (s.call c).fprs = s.fprs := rfl
@[simp] theorem State.call_fcsr (s : State) (c : HostCall) : (s.call c).fcsr = s.fcsr := rfl
@[simp] theorem State.call_llBit (s : State) (c : HostCall) : (s.call c).llBit = s.llBit := rfl
@[simp] theorem State.call_llAddr (s : State) (c : HostCall) : (s.call c).llAddr = s.llAddr := rfl
@[simp] theorem State.call_exitCode (s : State) (c : HostCall) : (s.call c).exitCode = s.exitCode := rfl
@[simp] theorem State.call_exc (s : State) (c : HostCall) : (s.call c).exc = s.exc := rfl
@[simp] theorem State.call_stopReq (s : State) (c : HostCall) : (s.call c).stopReq = s.stopReq := rfl
@[simp] theorem State.call_running (s : State) (c : HostCall) : (s.call c).running = s.running := rfl
@[simp] theorem State.call_memFailed (s : State) (c : HostCall) : (s.call c).memFailed = s.memFailed := rfl
@[simp] theorem State.call_mem (s : State) (c : HostCall) : (s.call c).mem = s.mem := rfl
@[simp] theorem State.call_params (s : State) (c : HostCall) : (s.call c).params = s.params := rfl
@[simp] theorem State.call_calls (s : State) (c : HostCall) : (s.call c).calls = s.calls ++ [c] := rfl
@[simp] theorem State.call_env (s : State) (c : HostCall) : (s.call c).env = s.env := rfl

/-! ## Registers read after an update -/

@[simp] theorem State.gpr_zero (s : State) : s.gpr 0 = 0 := rfl

@[simp] theorem State.gpr_setGpr_self (s : State) (r : Reg) (v : Word) :
    (s.setGpr r v).gpr r = if r = 0 then 0 else v := by
  by_cases h : r = 0 <;> simp [State.gpr, State.setGpr, h]

theorem State.gpr_setGpr_of_ne (s : State) (r q : Reg) (v : Word) (h : q ≠ r) : (s.setGpr r v).gpr q = s.gpr q := by
  have h' : (r : Nat) ≠ q := fun e => h (Fin.ext e.symm)
  by_cases hr : r = 0 <;> simp [State.gpr, State.setGpr, hr, h']

theorem State.gpr_congr {s t : State} (h : t.gprs = s.gprs) (r : Reg) : t.gpr r = s.gpr r := by
  simp [State.gpr, h]

@[simp] theorem State.setGpr_zero (s : State) (v : Word) : s.setGpr 0 v = s := rfl

@[simp] theorem State.fpr_setFpr_self (s : State) (r : FReg) (v : Word) : (s.setFpr r v).fpr r = v := by
  simp [State.fpr, State.setFpr]

theorem State.fpr_setFpr_of_ne (s : State) (r q : FReg) (v : Word) (h : q ≠ r) : (s.setFpr r v).fpr q = s.fpr q := by
  have h' : (r : Nat) ≠ q := fun e => h (Fin.ext e.symm)
  simp [State.fpr, State.setFpr, h']

theorem State.fpr_congr {s t : State} (h : t.fprs = s.fprs) (r : FReg) : t.fpr r = s.fpr r := by
  simp [State.fpr, h]

/-- An even register number and its successor differ, and the successor does not wrap. -/
theorem evenReg_succ {r : FReg} (h : evenReg r = true) : (r + 1 : FReg) ≠ r ∧ (r + 1 : FReg).val = r.val + 1 := by
  revert h r; decide

/-- A double is its high half above its low half. -/
theorem DWord.halves (v : DWord) : v.extractLsb' 32 32 ++ v.extractLsb' 0 32 = v := by
  ext i hi
  simp only [BitVec.getElem_append, BitVec.getElem_extractLsb']
  split
  · simp [BitVec.getLsbD_eq_getElem hi]
  · rw [show 32 + (i - 32) = i by omega, BitVec.getLsbD_eq_getElem hi]

theorem State.fd64_setFd64 (s : State) (r : FReg) (v : DWord) : (s.setFd64 r v).fd64 r = v := by
  have h1 : (r + 1 : FReg) ≠ r := by revert r; decide
  simp only [State.fd64, State.setFd64, State.fpr_setFpr_self, State.fpr_setFpr_of_ne _ _ _ _ h1.symm]
  exact DWord.halves v

theorem State.fpr_setFd64_of_ne (s : State) (r q : FReg) (v : DWord) (h : q ≠ r) (h' : q ≠ r + 1) :
    (s.setFd64 r v).fpr q = s.fpr q := by
  simp only [State.setFd64, State.fpr_setFpr_of_ne _ _ _ _ h, State.fpr_setFpr_of_ne _ _ _ _ h']

/-! ## The condition bit -/

@[simp] theorem State.cc_setCc (s : State) (c : Bool) : (s.setCc c).cc = c := by
  cases c <;> simp [State.cc, State.setCc]

end Sys2Proof.Machine
end

