-- ==== Sys2Proof/Laws/Ops.lean ====
section
/-! SUPPORT. What each access to memory can do, once for each: what it gives when it is done, and the one way it raises
(rules R66, R67, R85, R86). -/

namespace Sys2Proof.Machine

/-! ## Exceptions -/

theorem State.raise_raised (s : State) (k : ExcKind) (p : Word) : s.Raised (s.raise k p) k p := by
  refine ⟨rfl, rfl, rfl, rfl, fun h => ?_, fun h => ?_⟩ <;> simp [State.raise, h]

theorem State.raised_iff {s t : State} {k : ExcKind} {p : Word} : s.Raised t k p ↔ t = s.raise k p := by
  refine ⟨fun ⟨h1, h2, h3, h4, h5, h6⟩ => ?_, fun h => h ▸ State.raise_raised s k p⟩
  have h7 : t.exc.pc = if s.ds then s.pc - 4 else s.pc := by
    cases hd : s.ds
    · simpa using h6 hd
    · simpa using h5 hd
  have h8 : t.exc = { kind := k, pc := if s.ds then s.pc - 4 else s.pc, bd := s.ds, payload := p } := by
    rw [← h7, ← h4, ← h2, ← h3]
  rw [h1, h8]; rfl

/-! ## Sequencing -/

@[simp] theorem Access.andThen_done {α β : Type} {x : Access α} {k : α → State → Access β} {v : β} {t : State} :
    x.andThen k = .done v t ↔ ∃ w u, x = .done w u ∧ k w u = .done v t := by
  cases x <;> simp [Access.andThen]

@[simp] theorem Access.andThen_raised {α β : Type} {x : Access α} {k : α → State → Access β} {t : State} :
    x.andThen k = .raised t ↔ x = .raised t ∨ ∃ w u, x = .done w u ∧ k w u = .raised t := by
  cases x <;> simp [Access.andThen]

@[simp] theorem Access.finish_next {α : Type} {x : Access α} {k : α → State → State} {t : State} :
    x.finish k = .next t ↔ x = .raised t ∨ ∃ w u, x = .done w u ∧ k w u = t := by
  cases x <;> simp [Access.finish]

/-! ## Registers -/

theorem State.wroteGpr (s : State) (r : Reg) (v : Word) : s.WroteGpr (s.setGpr r v).advance r v := by
  refine ⟨?_, ?_, fun q hq => ?_⟩
  · unfold State.setGpr State.advance; split <;> rfl
  · exact State.gpr_setGpr_self s r v
  · exact State.gpr_setGpr_of_ne s r q v hq

theorem State.wroteFpr (s : State) (r : FReg) (v : Word) : s.WroteFprs (s.setFpr r v).advance [(r, v)] := by
  refine ⟨rfl, ?_, fun q hq => ?_⟩
  · simp only [List.mem_singleton, forall_eq]; exact State.fpr_setFpr_self s r v
  · exact State.fpr_setFpr_of_ne s r q v (hq (r, v) (by simp))

theorem State.wroteFd64 (s : State) (r : FReg) (v : DWord) :
    s.WroteFprs (s.setFd64 r v).advance [(r, v.extractLsb' 0 32), (r + 1, v.extractLsb' 32 32)] := by
  have h1 : (r + 1 : FReg) ≠ r := by revert r; decide
  refine ⟨rfl, ?_, fun q hq => ?_⟩
  · simp only [List.mem_cons, List.not_mem_nil, or_false, forall_eq_or_imp, forall_eq]
    exact ⟨by simp [State.setFd64, State.advance, State.fpr, State.setFpr, Ne.symm (Fin.val_ne_of_ne h1.symm)],
      State.fpr_setFpr_self _ _ _⟩
  · exact State.fpr_setFd64_of_ne s r q v (hq (r, v.extractLsb' 0 32) (by simp)) (hq (r + 1, v.extractLsb' 32 32) (by simp))

/-! ## Parameters -/

theorem Params.pageBits_le (p : Params) : 12 ≤ p.pageBits ∧ p.pageBits ≤ 16 := by
  have := p.pageShift.isLt
  simp only [Params.pageBits]; omega

theorem Params.nSlots_pos (p : Params) : 0 < p.nSlots := Nat.succ_pos _

theorem State.pageOf_lt (s : State) (a : Word) : s.pageOf a < 2 ^ (32 - s.params.pageBits) := by
  have h := s.params.pageBits_le
  refine Nat.div_lt_of_lt_mul ?_
  rw [← pow_add, show s.params.pageBits + (32 - s.params.pageBits) = 32 by omega]
  exact a.isLt

/-- An aligned access lies in one page (rule R63). -/
theorem State.pageOf_add (s : State) (a : Word) (n k : Nat) (hn : n ∣ 8) (ha : a.toNat % n = 0) (hk : k < n) :
    (a + BitVec.ofNat 32 k).toNat = a.toNat + k ∧
      (a.toNat + k) / 2 ^ s.params.pageBits = a.toNat / 2 ^ s.params.pageBits := by
  have h := s.params.pageBits_le
  have hlt := a.isLt
  have hn8 : n ≤ 8 := Nat.le_of_dvd (by omega) hn
  have hd : ∀ j, 12 ≤ j → n ∣ 2 ^ j := fun j hj => hn.trans (by
    rw [show (8 : Nat) = 2 ^ 3 by rfl]; exact pow_dvd_pow 2 (by omega))
  have key : ∀ j, 12 ≤ j → a.toNat % 2 ^ j + k < 2 ^ j := fun j hj => by
    obtain ⟨c, hc⟩ := hd j hj
    obtain ⟨d, hd'⟩ := Nat.dvd_of_mod_eq_zero ha
    have hm : a.toNat % 2 ^ j = n * (d % c) := by rw [hd', hc, Nat.mul_mod_mul_left]
    have hcpos : 0 < c := by
      rcases Nat.eq_zero_or_pos c with rfl | h
      · simp at hc
      · exact h
    have := Nat.mod_lt d hcpos
    rw [hm, hc]
    calc n * (d % c) + k < n * (d % c) + n := by omega
      _ = n * (d % c + 1) := by ring
      _ ≤ n * c := Nat.mul_le_mul_left n this
  have h32 := key 32 (by omega)
  rw [Nat.mod_eq_of_lt hlt] at h32
  refine ⟨?_, ?_⟩
  · rw [BitVec.toNat_add, BitVec.toNat_ofNat, Nat.mod_eq_of_lt (show k < 2 ^ 32 by omega), Nat.mod_eq_of_lt h32]
  · have hb := key s.params.pageBits h.1
    have hpos := Nat.two_pow_pos s.params.pageBits
    rw [Nat.div_eq_iff hpos, mul_comm]
    have := Nat.div_add_mod a.toNat (2 ^ s.params.pageBits)
    have := Nat.div_mul_le_self a.toNat (2 ^ s.params.pageBits)
    constructor
    · rw [mul_comm]; omega
    · rw [mul_comm] at *; omega

/-! ## One access -/

theorem State.OnlyPaging.refl (s : State) : s.OnlyPaging s := ⟨rfl, fun _ => rfl⟩

theorem State.OnlyPaging.trans {s t u : State} (h : s.OnlyPaging t) (h' : t.OnlyPaging u) : s.OnlyPaging u := by
  refine ⟨?_, fun x => (h'.2 x).trans (h.2 x)⟩
  rw [h'.1, h.1]

theorem State.OnlyPaging.wordAt {s t : State} (h : s.OnlyPaging t) (a : Word) : t.wordAt a = s.wordAt a := by
  simp only [State.wordAt, h.2]

theorem State.OnlyPaging.halfAt {s t : State} (h : s.OnlyPaging t) (a : Word) : t.halfAt a = s.halfAt a := by
  simp only [State.halfAt, h.2]

/-- What an access gives when it is done. -/
theorem State.access_done {s t : State} {a : Word} {w : Bool} {u : Unit} (hw : s.memWf) (h : s.access a w = .done u t) :
    s.OnlyPaging t ∧ t.memWf ∧ s.memFailed = false ∧ (w = true → (t.mem.slotOf (t.pageOf a)).isSome = true) := by
  unfold State.access at h
  split at h
  · simp at h
  · next hf =>
    split at h
    · next m e ha =>
      simp only [Access.done.injEq, true_and] at h
      subst h
      obtain ⟨h1, h2, h3⟩ := Memory.acquire_spec hw s.params.nSlots_pos (s.pageOf_lt a) ha
      exact ⟨⟨rfl, fun x => Memory.byteAt_congr h2 _ _⟩, h1, by simpa using hf, h3⟩
    · simp at h

/-- The one way an access raises: the memory has failed before or fails now. -/
theorem State.access_raised {s t : State} {a : Word} {w : Bool} (h : s.access a w = .raised t) :
    ∃ e, t = State.raise { s with memFailed := true, env := e } .machineError a := by
  unfold State.access at h
  cases hf : s.memFailed
  · rw [hf] at h
    simp only [Bool.false_eq_true, if_false] at h
    split at h
    · simp at h
    · next e ha => exact ⟨e, by simpa using h.symm⟩
  · simp only [hf, if_true, Access.raised.injEq] at h
    refine ⟨s.env, ?_⟩
    rw [← h, ← hf]

theorem State.accessible_iff {s : State} {a : Word} {w : Bool} :
    s.accessible a w ↔ ∃ t, s.access a w = .done () t := by
  unfold State.accessible State.access
  cases hf : s.memFailed
  · simp only [true_and, Bool.false_eq_true, if_false]
    rcases s.mem.acquire s.params.nSlots (s.pageOf a) w s.env with ⟨_ | m, e⟩ <;> simp
  · simp

/-- After an access for writing, the page is resident, so a further access to the page succeeds. -/
theorem State.accessible_of_resident {s : State} {a : Word} {w : Bool} (hf : s.memFailed = false)
    (h : (s.mem.slotOf (s.pageOf a)).isSome = true) : s.accessible a w :=
  ⟨hf, by rw [Memory.acquire_resident h]; rfl⟩

/-! ## Reads -/

theorem State.readByte_done {s t : State} {a : Word} {v : Byte} (hw : s.memWf) (h : s.readByte a = .done v t) :
    v = s.byteAt a ∧ s.OnlyPaging t ∧ t.memWf := by
  simp only [State.readByte, Access.andThen_done, Access.done.injEq] at h
  obtain ⟨_, u, ha, rfl, rfl⟩ := h
  obtain ⟨h1, h2, -, -⟩ := State.access_done hw ha
  exact ⟨h1.2 a, h1, h2⟩

theorem State.readHalf_done {s t : State} {a : Word} {v : Half} (hw : s.memWf) (h : s.readHalf a = .done v t) :
    v = s.halfAt a ∧ s.OnlyPaging t ∧ t.memWf := by
  simp only [State.readHalf, Access.andThen_done, Access.done.injEq] at h
  obtain ⟨_, u, ha, rfl, rfl⟩ := h
  obtain ⟨h1, h2, -, -⟩ := State.access_done hw ha
  exact ⟨h1.halfAt a, h1, h2⟩

theorem State.readWord_done {s t : State} {a : Word} {v : Word} (hw : s.memWf) (h : s.readWord a = .done v t) :
    v = s.wordAt a ∧ s.OnlyPaging t ∧ t.memWf := by
  simp only [State.readWord, Access.andThen_done, Access.done.injEq] at h
  obtain ⟨_, u, ha, rfl, rfl⟩ := h
  obtain ⟨h1, h2, -, -⟩ := State.access_done hw ha
  exact ⟨h1.wordAt a, h1, h2⟩

theorem State.readDouble_done {s t : State} {a : Word} {v : DWord} (hw : s.memWf) (h : s.readDouble a = .done v t) :
    v = s.wordAt (a + 4) ++ s.wordAt a ∧ s.OnlyPaging t ∧ t.memWf := by
  simp only [State.readDouble, Access.andThen_done, Access.done.injEq] at h
  obtain ⟨lo, s1, h1, hi, s2, h2, rfl, rfl⟩ := h
  obtain ⟨rfl, o1, w1⟩ := State.readWord_done hw h1
  obtain ⟨rfl, o2, w2⟩ := State.readWord_done w1 h2
  exact ⟨by rw [o1.wordAt], o1.trans o2, w2⟩

/-- A read of an accessible address is done. -/
theorem State.readByte_of_accessible {s : State} {a : Word} (hw : s.memWf) (h : s.accessible a false) :
    ∃ t, s.readByte a = .done (s.byteAt a) t ∧ s.OnlyPaging t ∧ t.memWf := by
  obtain ⟨t, ht⟩ := State.accessible_iff.mp h
  obtain ⟨h1, h2, -, -⟩ := State.access_done hw ht
  exact ⟨t, by simp [State.readByte, Access.andThen, ht, h1.2], h1, h2⟩

theorem State.readHalf_of_accessible {s : State} {a : Word} (hw : s.memWf) (h : s.accessible a false) :
    ∃ t, s.readHalf a = .done (s.halfAt a) t ∧ s.OnlyPaging t ∧ t.memWf := by
  obtain ⟨t, ht⟩ := State.accessible_iff.mp h
  obtain ⟨h1, h2, -, -⟩ := State.access_done hw ht
  exact ⟨t, by simp [State.readHalf, Access.andThen, ht, h1.halfAt], h1, h2⟩

theorem State.readWord_of_accessible {s : State} {a : Word} (hw : s.memWf) (h : s.accessible a false) :
    ∃ t, s.readWord a = .done (s.wordAt a) t ∧ s.OnlyPaging t ∧ t.memWf := by
  obtain ⟨t, ht⟩ := State.accessible_iff.mp h
  obtain ⟨h1, h2, -, -⟩ := State.access_done hw ht
  exact ⟨t, by simp [State.readWord, Access.andThen, ht, h1.wordAt], h1, h2⟩

/-- After the first word of a double is read, the second word's read is done too. -/
theorem State.readDouble_of_accessible {s : State} {a : Word} (hw : s.memWf) (ha : a.toNat % 8 = 0)
    (h : s.accessible a false) :
    ∃ t, s.readDouble a = .done (s.wordAt (a + 4) ++ s.wordAt a) t ∧ s.OnlyPaging t ∧ t.memWf := by
  obtain ⟨u, hu, o1, w1⟩ := State.readWord_of_accessible hw h
  obtain ⟨h4, h5⟩ := s.pageOf_add a 8 4 (by decide) ha (by decide)
  have hacc : u.accessible (a + 4) false := by
    simp only [State.readWord, Access.andThen_done, Access.done.injEq] at hu
    obtain ⟨_, v, hv, -, rfl⟩ := hu
    have hf := (State.access_done hw hv).2.2.1
    unfold State.access at hv
    rw [hf] at hv
    simp only [Bool.false_eq_true, if_false] at hv
    split at hv
    · next m e ha' =>
      simp only [Access.done.injEq, true_and] at hv
      subst hv
      refine ⟨rfl, ?_⟩
      have hpage : s.pageOf (a + 4) = s.pageOf a := by
        have : (a + 4).toNat = a.toNat + 4 := h4
        simp only [State.pageOf, this, h5]
      have := Memory.acquire_again hw s.params.nSlots_pos (s.pageOf_lt a) ha' e
      rw [← hpage] at this
      exact this
    · simp at hv
  obtain ⟨t, ht, o2, w2⟩ := State.readWord_of_accessible w1 hacc
  refine ⟨t, ?_, o1.trans o2, w2⟩
  rw [o1.wordAt] at ht
  simp only [State.readDouble, hu, ht, Access.andThen]

end Sys2Proof.Machine
end

