-- ==== Sys2Proof/Laws/Stores.lean ====
section
/-! SUPPORT. What a store of one, two, four or eight bytes can do, and the bulk transfers byte by byte (rules R67, R68,
R321). -/

namespace Sys2Proof.Machine

/-! ## One byte -/

theorem State.byteAt_poke {s : State} {a : Word} (h : (s.mem.slotOf (s.pageOf a)).isSome = true) (b : Byte) (x : Word) :
    (s.poke a b).byteAt x = if x = a then b else s.byteAt x := by
  simp only [State.byteAt, State.poke_mem, State.poke_params, Memory.byteAt_poke h, BitVec.toNat_inj]

theorem State.resident_poke (s : State) (a : Word) (b : Byte) (p : Nat) :
    ((s.poke a b).mem.slotOf p).isSome = (s.mem.slotOf p).isSome := by
  simp [Memory.slotOf_poke]

theorem State.memWf_poke {s : State} (h : s.memWf) (a : Word) (b : Byte) : (s.poke a b).memWf :=
  Memory.wf_poke h a.toNat b

/-- Whether a list of stored bytes reaches an address. -/
theorem stored_one (a x : Word) (b c : Byte) : ([b][(x - a).toNat]?).getD c = if x = a then b else c := by
  by_cases h : x = a
  · simp [h]
  · have : (x - a).toNat ≠ 0 := fun e => h (by
      have := BitVec.eq_of_toNat_eq (x := x - a) (y := 0) (by simpa using e)
      simpa [BitVec.sub_eq_iff_eq_add] using this)
    rw [if_neg h, List.getElem?_eq_none (by simp only [List.length_singleton]; omega)]; rfl

/-- A byte put before stored bytes: the first address of the longer list. -/
theorem stored_cons (a x : Word) (b c : Byte) (bs : List Byte) :
    ((b :: bs)[(x - a).toNat]?).getD c = if x = a then b else (bs[(x - (a + 1)).toNat]?).getD c := by
  by_cases h : x = a
  · simp [h]
  · have hne : (x - a).toNat ≠ 0 := fun e => h (by
      have := BitVec.eq_of_toNat_eq (x := x - a) (y := 0) (by simpa using e)
      simpa [BitVec.sub_eq_iff_eq_add] using this)
    have hs : (x - a).toNat = (x - (a + 1)).toNat + 1 := by
      have : x - (a + 1) = (x - a) - 1 := by ring
      rw [this]
      generalize x - a = d at hne
      have h1 : (1 : Word).toNat = 1 := rfl
      rw [BitVec.toNat_sub, h1]
      have := d.isLt
      omega
    rw [if_neg h, hs, List.getElem?_cons_succ]

/-! ## Stores of several bytes -/

/-- Pokes of consecutive bytes. -/
def State.pokes (s : State) (a : Word) : List Byte → State
  | [] => s
  | b :: bs => (s.poke a b).pokes (a + 1) bs

theorem State.pokes_eq (s : State) (a : Word) (bs : List Byte) : s.pokes a bs = { s with mem := (s.pokes a bs).mem } := by
  induction bs generalizing s a with
  | nil => rfl
  | cons b bs ih => rw [State.pokes, ih]; rfl

theorem State.pokes_params (s : State) (a : Word) (bs : List Byte) : (s.pokes a bs).params = s.params := by
  rw [State.pokes_eq]

theorem State.memWf_pokes {s : State} (h : s.memWf) (a : Word) (bs : List Byte) : (s.pokes a bs).memWf := by
  induction bs generalizing s a with
  | nil => exact h
  | cons b bs ih => exact ih (State.memWf_poke h a b) (a + 1)

theorem State.resident_pokes (s : State) (a : Word) (bs : List Byte) (p : Nat) :
    ((s.pokes a bs).mem.slotOf p).isSome = (s.mem.slotOf p).isSome := by
  induction bs generalizing s a with
  | nil => rfl
  | cons b bs ih => rw [State.pokes, ih, State.resident_poke]

theorem State.stored_pokes {s : State} {a : Word} {bs : List Byte} (hlen : bs.length ≤ 2 ^ 32)
    (h : ∀ k < bs.length, (s.mem.slotOf (s.pageOf (a + BitVec.ofNat 32 k))).isSome = true) :
    s.Stored (s.pokes a bs) a bs := by
  induction bs generalizing s a with
  | nil => intro x; simp [State.pokes]
  | cons b bs ih =>
    simp only [List.length_cons] at hlen h
    intro x
    have hrec := ih (s := s.poke a b) (a := a + 1) (by omega) (fun k hk => by
      rw [State.resident_poke]
      have := h (k + 1) (by omega)
      have he : a + BitVec.ofNat 32 (k + 1) = a + 1 + BitVec.ofNat 32 k := by
        rw [add_assoc]; congr 1; apply BitVec.eq_of_toNat_eq; simp [Nat.add_comm]
      rw [he] at this
      exact this)
    have hx := hrec x
    have h0 : (s.mem.slotOf (s.pageOf a)).isSome = true := by simpa using h 0 (by omega)
    rw [State.byteAt_poke h0] at hx
    rw [stored_cons a x b _ bs, State.pokes, hx]
    by_cases hxa : x = a
    · subst hxa
      rw [if_pos rfl, if_pos rfl]
      have : (x - (x + 1)).toNat = 2 ^ 32 - 1 := by
        have : x - (x + 1) = -1 := by ring
        rw [this]; rfl
      rw [this, List.getElem?_eq_none (by omega)]; rfl
    · rw [if_neg hxa, if_neg hxa]

/-- A store of the bytes `bs` at an address aligned to their number. -/
theorem State.store_done {s t : State} {a : Word} {bs : List Byte} (hw : s.memWf) (hn : bs.length ∣ 8)
    (ha : a.toNat % bs.length = 0) (h : s.access a true = .done () t) :
    (t.pokes a bs) = { s with mem := (t.pokes a bs).mem, env := (t.pokes a bs).env } ∧ s.Stored (t.pokes a bs) a bs ∧
      (t.pokes a bs).memWf ∧ ((t.pokes a bs).mem.slotOf (s.pageOf a)).isSome = true ∧ s.memFailed = false := by
  obtain ⟨h1, h2, h3, h4⟩ := State.access_done hw h
  have hp : t.params = s.params := by rw [h1.1]
  have hpo : ∀ x, t.pageOf x = s.pageOf x := fun x => by simp [State.pageOf, hp]
  have hle : bs.length ≤ 8 := Nat.le_of_dvd (by omega) hn
  refine ⟨?_, fun x => ?_, State.memWf_pokes h2 a bs, ?_, h3⟩
  · rw [State.pokes_eq, h1.1]
  · rw [State.stored_pokes (by omega) (fun k hk => ?_) x, h1.2]
    obtain ⟨e1, e2⟩ := t.pageOf_add a bs.length k hn ha hk
    have : t.pageOf (a + BitVec.ofNat 32 k) = t.pageOf a := by
      simp only [State.pageOf, e1, e2]
    rw [this]; exact h4 rfl
  · rw [State.resident_pokes, ← hpo]; exact h4 rfl

theorem State.writeByte_eq (s : State) (a : Word) (b : Byte) :
    s.writeByte a b = (s.access a true).andThen fun _ s => .done () (s.pokes a [b]) := rfl

theorem State.writeHalf_eq (s : State) (a : Word) (v : Half) :
    s.writeHalf a v = (s.access a true).andThen fun _ s =>
      .done () (s.pokes a [v.extractLsb' 0 8, v.extractLsb' 8 8]) := rfl

theorem State.pokeWord_eq (s : State) (a v : Word) : s.pokeWord a v = s.pokes a (wordBytes v) := by
  have h2 : a + 1 + 1 = a + 2 := by rw [add_assoc]; rfl
  have h3 : a + 2 + 1 = a + 3 := by rw [add_assoc]; rfl
  simp only [wordBytes, State.pokes, State.pokeWord, h2, h3]

theorem State.writeWord_eq (s : State) (a v : Word) :
    s.writeWord a v = (s.access a true).andThen fun _ s => .done () (s.pokes a (wordBytes v)) := by
  simp only [State.writeWord, State.pokeWord_eq]

/-- What a store of one byte gives. -/
theorem State.writeByte_done {s t : State} {a : Word} {b : Byte} {u : Unit} (hw : s.memWf)
    (h : s.writeByte a b = .done u t) :
    t = { s with mem := t.mem, env := t.env } ∧ s.Stored t a [b] ∧ t.memWf ∧
      (t.mem.slotOf (s.pageOf a)).isSome = true ∧ s.memFailed = false := by
  simp only [State.writeByte_eq, Access.andThen_done, Access.done.injEq, true_and] at h
  obtain ⟨_, s', ha, rfl⟩ := h
  exact State.store_done (bs := [b]) hw (by simp) (Nat.mod_one _) ha

theorem State.writeHalf_done {s t : State} {a : Word} {v : Half} {u : Unit} (hw : s.memWf) (ha : a.toNat % 2 = 0)
    (h : s.writeHalf a v = .done u t) :
    t = { s with mem := t.mem, env := t.env } ∧ s.Stored t a [v.extractLsb' 0 8, v.extractLsb' 8 8] ∧ t.memWf ∧
      (t.mem.slotOf (s.pageOf a)).isSome = true ∧ s.memFailed = false := by
  simp only [State.writeHalf_eq, Access.andThen_done, Access.done.injEq, true_and] at h
  obtain ⟨_, s', ha', rfl⟩ := h
  exact State.store_done (bs := [v.extractLsb' 0 8, v.extractLsb' 8 8]) hw (by simp) ha ha'

theorem State.writeWord_done {s t : State} {a v : Word} {u : Unit} (hw : s.memWf) (ha : a.toNat % 4 = 0)
    (h : s.writeWord a v = .done u t) :
    t = { s with mem := t.mem, env := t.env } ∧ s.Stored t a (wordBytes v) ∧ t.memWf ∧
      (t.mem.slotOf (s.pageOf a)).isSome = true ∧ s.memFailed = false := by
  simp only [State.writeWord_eq, Access.andThen_done, Access.done.injEq, true_and] at h
  obtain ⟨_, s', ha', rfl⟩ := h
  exact State.store_done (bs := wordBytes v) hw (by simp [wordBytes]) ha ha'

theorem State.writeByte_of_accessible {s : State} {a : Word} (b : Byte) (h : s.accessible a true) :
    ∃ t, s.writeByte a b = .done () t := by
  obtain ⟨t, ht⟩ := State.accessible_iff.mp h
  exact ⟨_, by rw [State.writeByte_eq, ht]; rfl⟩

theorem State.writeHalf_of_accessible {s : State} {a : Word} (v : Half) (h : s.accessible a true) :
    ∃ t, s.writeHalf a v = .done () t := by
  obtain ⟨t, ht⟩ := State.accessible_iff.mp h
  exact ⟨_, by rw [State.writeHalf_eq, ht]; rfl⟩

theorem State.writeWord_of_accessible {s : State} {a : Word} (v : Word) (h : s.accessible a true) :
    ∃ t, s.writeWord a v = .done () t := by
  obtain ⟨t, ht⟩ := State.accessible_iff.mp h
  exact ⟨_, by rw [State.writeWord_eq, ht]; rfl⟩

/-- What a store of eight bytes gives. -/
theorem State.writeDouble_done {s t : State} {a : Word} {v : DWord} {u : Unit} (hw : s.memWf) (ha : a.toNat % 8 = 0)
    (h : s.writeDouble a v = .done u t) :
    t = { s with mem := t.mem, env := t.env } ∧
      s.Stored t a (wordBytes (v.extractLsb' 0 32) ++ wordBytes (v.extractLsb' 32 32)) ∧ t.memWf := by
  simp only [State.writeDouble, Access.andThen_done] at h
  obtain ⟨_, s1, h1, h2⟩ := h
  obtain ⟨e1, st1, w1, -, -⟩ := State.writeWord_done hw (by omega) h1
  obtain ⟨f4, -⟩ := s.pageOf_add a 8 4 (by decide) ha (by decide)
  have h4 : (a + 4).toNat = a.toNat + 4 := f4
  obtain ⟨e2, st2, w2, -, -⟩ := State.writeWord_done w1 (by omega) h2
  refine ⟨by rw [e2, e1], fun x => ?_, w2⟩
  rw [st2 x, st1 x]
  generalize s.byteAt x = c
  have hx : (x - (a + 4)).toNat = if (x - a).toNat < 4 then (x - a).toNat + (2 ^ 32 - 4) else (x - a).toNat - 4 := by
    have : x - (a + 4) = (x - a) - 4 := by ring
    rw [this, BitVec.toNat_sub]
    have h4 : (4 : Word).toNat = 4 := rfl
    have := (x - a).isLt
    split <;> omega
  rw [hx]
  split
  · next hlt =>
    rw [List.getElem?_append_left (by simpa [wordBytes] using hlt),
      List.getElem?_eq_none (l := wordBytes (v.extractLsb' 32 32)) (by simp [wordBytes])]
    rfl
  · next hge =>
    rw [List.getElem?_append_right (by simpa [wordBytes] using hge)]
    rw [List.getElem?_eq_none (l := wordBytes (v.extractLsb' 0 32)) (by simpa [wordBytes] using hge)]
    rfl

/-- After the first word of a double is stored the page is resident, so the second word's store is done too. -/
theorem State.writeDouble_of_accessible {s : State} {a : Word} (v : DWord) (hw : s.memWf) (ha : a.toNat % 8 = 0)
    (h : s.accessible a true) : ∃ t, s.writeDouble a v = .done () t := by
  obtain ⟨s1, h1⟩ := State.writeWord_of_accessible (v.extractLsb' 0 32) h
  obtain ⟨e1, -, -, r1, f1⟩ := State.writeWord_done hw (by omega) h1
  obtain ⟨h4, h5⟩ := s.pageOf_add a 8 4 (by decide) ha (by decide)
  have hp : s1.params = s.params := by rw [e1]
  have hf : s1.memFailed = s.memFailed := by rw [e1]
  have hpage : s1.pageOf (a + 4) = s.pageOf a := by
    have : (a + 4).toNat = a.toNat + 4 := h4
    simp only [State.pageOf, hp, this, h5]
  obtain ⟨t, ht⟩ := State.writeWord_of_accessible (s := s1) (a := a + 4) (v.extractLsb' 32 32)
    (State.accessible_of_resident (hf.trans f1) (by rw [hpage]; exact r1))
  exact ⟨t, by simp only [State.writeDouble, Access.andThen_done]; exact ⟨_, s1, h1, ht⟩⟩

/-! ## Bulk transfers (rules R68, R321) -/

theorem State.putBytes_done {s t : State} {a : Word} {bs : List Byte} {u : Unit} (hw : s.memWf)
    (hlen : bs.length ≤ 2 ^ 32) (h : s.putBytes a bs = .done u t) :
    t = { s with mem := t.mem, env := t.env } ∧ s.Stored t a bs ∧ t.memWf := by
  induction bs generalizing s a with
  | nil =>
    simp only [State.putBytes, Access.done.injEq, true_and] at h
    subst h
    exact ⟨rfl, fun x => by simp, hw⟩
  | cons b bs ih =>
    simp only [State.putBytes, Access.andThen_done] at h
    obtain ⟨_, s1, h1, h2⟩ := h
    simp only [List.length_cons] at hlen
    obtain ⟨e1, st1, w1, -, -⟩ := State.writeByte_done hw h1
    obtain ⟨e2, st2, w2⟩ := ih w1 (by omega) h2
    refine ⟨by rw [e2, e1], fun x => ?_, w2⟩
    rw [stored_cons, st2 x, st1 x, stored_one]
    by_cases hxa : x = a
    · subst hxa
      have : (x - (x + 1)).toNat = 2 ^ 32 - 1 := by
        have : x - (x + 1) = -1 := by ring
        rw [this]; rfl
      rw [if_pos rfl, if_pos rfl, this, List.getElem?_eq_none (by omega)]; rfl
    · rw [if_neg hxa, if_neg hxa]

theorem State.readBytes_done {s t : State} {a : Word} {n : Nat} {bs : List Byte} (hw : s.memWf)
    (h : s.readBytes a n = .done bs t) :
    bs = (List.range n).map (fun i => s.byteAt (a + BitVec.ofNat 32 i)) ∧ s.OnlyPaging t ∧ t.memWf := by
  induction n generalizing s a bs with
  | zero =>
    simp only [State.readBytes, Access.done.injEq] at h
    obtain ⟨rfl, rfl⟩ := h
    exact ⟨rfl, .refl s, hw⟩
  | succ n ih =>
    simp only [State.readBytes, Access.andThen_done, Access.done.injEq] at h
    obtain ⟨b, s1, h1, bs', s2, h2, rfl, rfl⟩ := h
    obtain ⟨rfl, o1, w1⟩ := State.readByte_done hw h1
    obtain ⟨rfl, o2, w2⟩ := ih w1 h2
    refine ⟨?_, o1.trans o2, w2⟩
    rw [List.range_succ_eq_map, List.map_cons, List.map_map]
    congr 1
    · simp
    · refine List.map_congr_left fun i _ => ?_
      rw [o1.2, Function.comp, Nat.succ_eq_add_one]
      congr 1
      rw [add_assoc]; congr 1; apply BitVec.eq_of_toNat_eq; simp [Nat.add_comm]

theorem State.stringAt_congr {s t : State} (h : ∀ x : Word, t.byteAt x = s.byteAt x) (a : Word) (n : Nat) :
    t.stringAt a n = s.stringAt a n := by
  induction n generalizing a with
  | zero => rfl
  | succ n ih => simp only [State.stringAt, h, ih]

theorem State.OnlyPaging.stringAt {s t : State} (h : s.OnlyPaging t) (a : Word) (n : Nat) :
    t.stringAt a n = s.stringAt a n := State.stringAt_congr h.2 a n

theorem State.cstring_done {s t : State} {a : Word} {n : Nat} {bs : List Byte} (hw : s.memWf)
    (h : s.cstring a n = .done bs t) : bs = s.stringAt a n ∧ s.OnlyPaging t ∧ t.memWf := by
  induction n generalizing s a bs with
  | zero =>
    simp only [State.cstring, Access.done.injEq] at h
    obtain ⟨rfl, rfl⟩ := h
    exact ⟨rfl, .refl s, hw⟩
  | succ n ih =>
    simp only [State.cstring, Access.andThen_done] at h
    obtain ⟨b, s1, h1, h2⟩ := h
    obtain ⟨rfl, o1, w1⟩ := State.readByte_done hw h1
    split at h2
    · next hb =>
      simp only [Access.done.injEq] at h2
      obtain ⟨rfl, rfl⟩ := h2
      exact ⟨by simp [State.stringAt, hb], o1, w1⟩
    · next hb =>
      simp only [Access.andThen_done, Access.done.injEq] at h2
      obtain ⟨bs', s2, h2, rfl, rfl⟩ := h2
      obtain ⟨rfl, o2, w2⟩ := ih w1 h2
      exact ⟨by rw [State.stringAt, if_neg hb, o1.stringAt], o1.trans o2, w2⟩

/-! ## The one way a read or a store raises -/

theorem State.readByte_raised {s t : State} {a : Word} (h : s.readByte a = .raised t) : s.MemoryError t a := by
  simp only [State.readByte, Access.andThen_raised, reduceCtorEq, and_false, exists_false, or_false] at h
  exact State.access_raised h

theorem State.readHalf_raised {s t : State} {a : Word} (h : s.readHalf a = .raised t) : s.MemoryError t a := by
  simp only [State.readHalf, Access.andThen_raised, reduceCtorEq, and_false, exists_false, or_false] at h
  exact State.access_raised h

theorem State.readWord_raised {s t : State} {a : Word} (h : s.readWord a = .raised t) : s.MemoryError t a := by
  simp only [State.readWord, Access.andThen_raised, reduceCtorEq, and_false, exists_false, or_false] at h
  exact State.access_raised h

theorem State.writeByte_raised {s t : State} {a : Word} {b : Byte} (h : s.writeByte a b = .raised t) :
    s.MemoryError t a := by
  simp only [State.writeByte, Access.andThen_raised, reduceCtorEq, and_false, exists_false, or_false] at h
  exact State.access_raised h

theorem State.writeHalf_raised {s t : State} {a : Word} {v : Half} (h : s.writeHalf a v = .raised t) :
    s.MemoryError t a := by
  simp only [State.writeHalf, Access.andThen_raised, reduceCtorEq, and_false, exists_false, or_false] at h
  exact State.access_raised h

theorem State.writeWord_raised {s t : State} {a v : Word} (h : s.writeWord a v = .raised t) : s.MemoryError t a := by
  simp only [State.writeWord, Access.andThen_raised, reduceCtorEq, and_false, exists_false, or_false] at h
  exact State.access_raised h

end Sys2Proof.Machine
end

