-- ==== Sys2Proof/Laws/Buffers.lean ====
section
/-! SUPPORT. When the bulk accesses of the services complete (rules R68, R81, R83, R86, R321): the conditions `readable`
and `writable` on a list of addresses are kept as the addresses are accessed one after the other. -/

namespace Sys2Proof.Machine

/-! ## What an access draws -/

@[simp] theorem Env.drawWord_swapOutcomes (e : Env) : e.drawWord.2.swapOutcomes = e.swapOutcomes := by
  unfold Env.drawWord; split <;> rfl

@[simp] theorem Env.drawDouble_swapOutcomes (e : Env) : e.drawDouble.2.swapOutcomes = e.swapOutcomes := by
  unfold Env.drawDouble; split <;> rfl

@[simp] theorem Env.drawBytes_swapOutcomes (e : Env) (n : Nat) : (e.drawBytes n).2.swapOutcomes = e.swapOutcomes := by
  unfold Env.drawBytes; split <;> rfl

theorem Env.drawBytes_length (e : Env) (n : Nat) : (e.drawBytes n).1.length ≤ n := by
  unfold Env.drawBytes; split <;> simp [List.length_take]

@[simp] theorem Env.drawSwap_answers (e : Env) : e.drawSwap.2.answers = e.answers := by
  unfold Env.drawSwap; split <;> rfl

/-- A transfer that the list of outcomes lets complete. -/
theorem Env.drawSwap_complete {e : Env} {n : Nat} (h : ∀ k < n + 1, e.swapOutcomes[k]? = some true) :
    ∃ e', e.drawSwap = (true, e') ∧ ∀ k < n, e'.swapOutcomes[k]? = some true := by
  have h0 := h 0 (by omega)
  rcases hs : e.swapOutcomes with _ | ⟨ok, rest⟩
  · simp [hs] at h0
  · obtain rfl : ok = true := by simpa [hs] using h0
    refine ⟨{ e with swapOutcomes := rest }, by simp [Env.drawSwap, hs], fun k hk => ?_⟩
    have := h (k + 1) (by omega)
    simpa [hs] using this

theorem Memory.obtainSlot_answers (m : Memory) (n : Nat) (e : Env) : (m.obtainSlot n e).2.answers = e.answers := by
  unfold Memory.obtainSlot
  split
  · rfl
  · split
    · rfl
    · split
      · have := e.drawSwap_answers
        rcases hd : e.drawSwap with ⟨_ | _, e'⟩ <;> rw [hd] at this <;> exact this
      · rfl

theorem Memory.acquire_answers (m : Memory) (n p : Nat) (w : Bool) (e : Env) :
    (m.acquire n p w e).2.answers = e.answers := by
  have ho := m.obtainSlot_answers n e
  unfold Memory.acquire
  split
  · rfl
  · split
    · rcases hm : m.obtainSlot n e with ⟨_ | ⟨k, m'⟩, e1⟩ <;> rw [hm] at ho
      · exact ho
      · have h1 := e1.drawSwap_answers
        rcases hd : e1.drawSwap with ⟨_ | _, e2⟩ <;> rw [hd] at h1 <;> simp only [hd] <;> exact h1.trans ho
    · split
      · rcases hm : m.obtainSlot n e with ⟨_ | ⟨k, m'⟩, e1⟩ <;> rw [hm] at ho <;> exact ho
      · rfl

theorem State.access_answers {s t : State} {a : Word} {w : Bool} (h : s.access a w = .done () t) :
    t.env.answers = s.env.answers := by
  unfold State.access at h
  split at h
  · simp at h
  · split at h
    · next m e ha =>
      simp only [Access.done.injEq, true_and] at h
      subst h
      have := s.mem.acquire_answers s.params.nSlots (s.pageOf a) w s.env
      rwa [ha] at this
    · simp at h

/-! ## One access -/

theorem Memory.obtainSlot_transfers {e : Env} {k : Nat} (h : ∀ i < k + 1, e.swapOutcomes[i]? = some true) (m : Memory)
    (n : Nat) : ∃ x e', m.obtainSlot n e = (some x, e') ∧ ∀ i < k, e'.swapOutcomes[i]? = some true := by
  unfold Memory.obtainSlot
  split
  · exact ⟨_, _, rfl, fun i hi => h i (by omega)⟩
  · split
    · exact ⟨_, _, rfl, fun i hi => h i (by omega)⟩
    · split
      · obtain ⟨e', he, hk⟩ := Env.drawSwap_complete h
        exact ⟨_, e', by rw [he], hk⟩
      · exact ⟨_, _, rfl, fun i hi => h i (by omega)⟩

/-- An access needs two transfers at most: it completes when the next two do. -/
theorem Memory.acquire_transfers {e : Env} {k : Nat} (h : ∀ i < k + 2, e.swapOutcomes[i]? = some true) (m : Memory)
    (n p : Nat) (w : Bool) :
    ∃ m' e', m.acquire n p w e = (some m', e') ∧ ∀ i < k, e'.swapOutcomes[i]? = some true := by
  unfold Memory.acquire
  split
  · exact ⟨_, _, rfl, fun i hi => h i (by omega)⟩
  · obtain ⟨x, e1, ho, h1⟩ := Memory.obtainSlot_transfers (k := k + 1) h m n
    split
    · obtain ⟨e2, hd, h2⟩ := Env.drawSwap_complete h1
      exact ⟨_, e2, by rw [ho]; simp only [hd]; rfl, h2⟩
    · split
      · exact ⟨_, e1, by rw [ho], fun i hi => h1 i (by omega)⟩
      · exact ⟨_, _, rfl, fun i hi => h i (by omega)⟩

theorem Memory.acquire_read_absent {m : Memory} {p : Nat} (h : m.slotOf p = none) (h' : m.recordOf p = none) (n : Nat)
    (e : Env) : m.acquire n p false e = (some m, e) := by
  simp [Memory.acquire, h, h']

theorem Memory.acquire_write_absent {m : Memory} {n p : Nat} (h : m.slotOf p = none) (h' : m.recordOf p = none)
    (hn : m.resident.length < n) (e : Env) :
    m.acquire n p true e = (some { m with resident := m.resident ++ [⟨p, m.freeSlot, true, []⟩] }, e) := by
  simp [Memory.acquire, h, h', Memory.obtainSlot, hn]

theorem State.access_of_acquire {s : State} {a : Word} {w : Bool} {m : Memory} {e : Env} (hf : s.memFailed = false)
    (h : s.mem.acquire s.params.nSlots (s.pageOf a) w s.env = (some m, e)) :
    s.access a w = .done () { s with mem := m, env := e } := by
  simp only [State.access, hf, h]; rfl

/-- A read that meets no transfer changes the LRU order at most. -/
theorem State.access_quiet {s : State} {a : Word} (hw : s.memWf) (hf : s.memFailed = false)
    (h : s.noTransfer a false) :
    ∃ t, s.access a false = .done () t ∧ t = { s with mem := t.mem } ∧ (∀ p, t.mem.slotOf p = s.mem.slotOf p) ∧
      (∀ p, t.mem.recordOf p = s.mem.recordOf p) := by
  by_cases hr : (s.mem.slotOf (s.pageOf a)).isSome = true
  · obtain ⟨hp, hs⟩ := Memory.touch_perm hw.1 (s.pageOf a)
    refine ⟨_, State.access_of_acquire hf (Memory.acquire_resident hr _ _ _), rfl,
      fun p => Memory.slotOf_perm hw.1 hp p, fun p => ?_⟩
    simp only [Memory.recordOf, hs]
  · have hn : s.mem.slotOf (s.pageOf a) = none := by simpa using hr
    have hrec : s.mem.recordOf (s.pageOf a) = none := by
      obtain h | h := h
      · exact absurd h hr
      · exact h.1
    exact ⟨s, State.access_of_acquire hf (Memory.acquire_read_absent hn hrec _ _), rfl, fun _ => rfl, fun _ => rfl⟩

theorem State.access_transfers {s : State} {k : Nat} (hf : s.memFailed = false) (h : s.transfersComplete (k + 2))
    (a : Word) (w : Bool) : ∃ t, s.access a w = .done () t ∧ t.memFailed = false ∧ t.transfersComplete k := by
  obtain ⟨m, e, ha, hk⟩ := Memory.acquire_transfers h s.mem s.params.nSlots (s.pageOf a) w
  exact ⟨_, State.access_of_acquire hf ha, hf, hk⟩

/-- The first of the addresses can be read, and then the rest can be. -/
theorem State.access_readable {s : State} {a : Word} {as : List Word} (hw : s.memWf) (h : s.readable (a :: as)) :
    ∃ t, s.access a false = .done () t ∧ t.readable as := by
  obtain ⟨hf, h | h⟩ := h
  · obtain ⟨t, ht, e, hs, hr⟩ := State.access_quiet hw hf (h a List.mem_cons_self)
    refine ⟨t, ht, by rw [e]; exact hf, Or.inl fun x hx => ?_⟩
    have hp : t.pageOf x = s.pageOf x := by rw [e]; rfl
    obtain h' | h' := h x (List.mem_cons_of_mem _ hx)
    · exact Or.inl (by rw [hp, hs]; exact h')
    · exact Or.inr ⟨by rw [hp, hr]; exact h'.1, Or.inl rfl⟩
  · obtain ⟨t, ht, hf', hk⟩ := State.access_transfers (k := 2 * as.length) hf h a false
    exact ⟨t, ht, hf', Or.inr hk⟩

/-- The first of the addresses can be written, and then the rest can be. -/
theorem State.access_writable {s : State} {a : Word} {as : List Word} (hw : s.memWf) (h : s.writable (a :: as)) :
    ∃ t, s.access a true = .done () t ∧ ∀ b, (t.poke a b).writable as := by
  obtain ⟨hf, ⟨ps, hlen, h⟩ | h⟩ := h
  · have rest : ∀ (m : Memory) (qs : List Nat), m.resident.length + qs.length ≤ s.params.nSlots →
        (∀ x ∈ as, (m.slotOf (s.pageOf x)).isSome = true ∨ (m.recordOf (s.pageOf x) = none ∧ s.pageOf x ∈ qs)) →
        ∀ b, (State.poke { s with mem := m } a b).writable as := fun m qs hl hm b => by
      refine ⟨hf, Or.inl ⟨qs, by simpa [State.poke, Memory.poke] using hl, fun x hx => ?_⟩⟩
      obtain h' | h' := hm x hx
      · exact Or.inl (by rw [State.resident_poke]; exact h')
      · exact Or.inr h'
    by_cases hr : (s.mem.slotOf (s.pageOf a)).isSome = true
    · obtain ⟨hp, hs⟩ := Memory.touch_perm hw.1 (s.pageOf a)
      refine ⟨_, State.access_of_acquire hf (Memory.acquire_resident hr _ _ _), ?_⟩
      refine rest _ ps (by rw [hp.length_eq]; exact hlen) fun x hx => ?_
      have hrec : ∀ p, (s.mem.touch (s.pageOf a)).recordOf p = s.mem.recordOf p := fun p => by
        simp only [Memory.recordOf, hs]
      rw [Memory.slotOf_perm hw.1 hp, hrec]
      exact h x (List.mem_cons_of_mem _ hx)
    · have hn : s.mem.slotOf (s.pageOf a) = none := by simpa using hr
      obtain ⟨hrec, hin⟩ := (h a List.mem_cons_self).resolve_left hr
      have hpos := List.length_pos_of_mem hin
      refine ⟨_, State.access_of_acquire hf (Memory.acquire_write_absent hn hrec (by omega) _), ?_⟩
      refine rest _ (ps.erase (s.pageOf a)) (by simp [List.length_erase_of_mem hin]; omega) fun x hx => ?_
      have hslot : (Memory.mk (s.mem.resident ++ [⟨s.pageOf a, s.mem.freeSlot, true, []⟩]) s.mem.swap).slotOf
          (s.pageOf x) = (s.mem.slotOf (s.pageOf x)).or
            (if s.pageOf a = s.pageOf x then some ⟨s.pageOf a, s.mem.freeSlot, true, []⟩ else none) := by
        simp only [Memory.slotOf, List.find?_append, List.find?_cons, List.find?_nil]
        by_cases hax : s.pageOf a = s.pageOf x
        · simp [hax]
        · simp [hax, show (s.pageOf a == s.pageOf x) = false from by simpa using hax]
      rw [hslot]
      by_cases hax : s.pageOf a = s.pageOf x
      · exact Or.inl (by simp [hax])
      · obtain h' | h' := h x (List.mem_cons_of_mem _ hx)
        · exact Or.inl (by simp [h'])
        · exact Or.inr ⟨h'.1, (List.mem_erase_of_ne (Ne.symm hax)).mpr h'.2⟩
  · obtain ⟨t, ht, hf', hk⟩ := State.access_transfers (k := 2 * as.length) hf h a true
    exact ⟨t, ht, fun b => ⟨hf', Or.inr hk⟩⟩

/-! ## Fewer addresses, and states that agree on what matters -/

theorem State.readable.congr {s t : State} {as : List Word} (h : s.readable as) (hm : t.mem = s.mem)
    (hp : t.params = s.params) (hf : t.memFailed = s.memFailed) (he : t.env.swapOutcomes = s.env.swapOutcomes) :
    t.readable as := by
  unfold State.readable State.noTransfer State.transfersComplete State.pageOf at *
  rw [hm, hp, hf, he]; exact h

theorem State.writable.congr {s t : State} {as : List Word} (h : s.writable as) (hm : t.mem = s.mem)
    (hp : t.params = s.params) (hf : t.memFailed = s.memFailed) (he : t.env.swapOutcomes = s.env.swapOutcomes) :
    t.writable as := by
  unfold State.writable State.roomFor State.transfersComplete State.pageOf at *
  rw [hm, hp, hf, he]; exact h

theorem State.readable.sublist {s : State} {as bs : List Word} (h : s.readable as) (hs : bs.Sublist as) :
    s.readable bs := by
  have := hs.length_le
  exact ⟨h.1, h.2.imp (fun h' a ha => h' a (hs.subset ha)) fun h' k hk => h' k (by omega)⟩

theorem State.writable.sublist {s : State} {as bs : List Word} (h : s.writable as) (hs : bs.Sublist as) :
    s.writable bs := by
  have := hs.length_le
  exact ⟨h.1, h.2.imp (fun ⟨ps, hl, h'⟩ => ⟨ps, hl, fun a ha => h' a (hs.subset ha)⟩) fun h' k hk => h' k (by omega)⟩

@[simp] theorem length_addressesFrom (a : Word) (n : Nat) : (addressesFrom a n).length = n := by
  induction n generalizing a with
  | zero => rfl
  | succ n ih => simp [addressesFrom, ih]

theorem addressesFrom_sublist (a : Word) {m n : Nat} (h : m ≤ n) : (addressesFrom a m).Sublist (addressesFrom a n) := by
  induction n generalizing a m with
  | zero =>
    obtain rfl : m = 0 := by omega
    exact .refl _
  | succ n ih =>
    cases m with
    | zero => exact List.nil_sublist _
    | succ m => exact (ih (a + 1) (by omega)).cons_cons a

/-! ## The bulk accesses -/

theorem State.readByte_readable {s : State} {a : Word} {as : List Word} (hw : s.memWf) (h : s.readable (a :: as)) :
    ∃ t, s.readByte a = .done (s.byteAt a) t ∧ s.OnlyPaging t ∧ t.memWf ∧ t.readable as ∧
      t.env.answers = s.env.answers := by
  obtain ⟨t, ht, hr⟩ := State.access_readable hw h
  obtain ⟨o, w, -, -⟩ := State.access_done hw ht
  exact ⟨t, by simp [State.readByte, Access.andThen, ht, o.2], o, w, hr, State.access_answers ht⟩

/-- Readable bytes are read, and what comes after them stays readable. -/
theorem State.readBytes_readable {s : State} {a : Word} {n : Nat} {as : List Word} (hw : s.memWf)
    (h : s.readable (addressesFrom a n ++ as)) :
    ∃ t, s.readBytes a n = .done ((List.range n).map fun i => s.byteAt (a + BitVec.ofNat 32 i)) t ∧ s.OnlyPaging t ∧
      t.memWf ∧ t.readable as ∧ t.env.answers = s.env.answers := by
  suffices ∃ bs t, s.readBytes a n = .done bs t ∧ t.readable as ∧ t.env.answers = s.env.answers by
    obtain ⟨bs, t, ht, hr, ha⟩ := this
    obtain ⟨rfl, o, w⟩ := State.readBytes_done hw ht
    exact ⟨t, ht, o, w, hr, ha⟩
  induction n generalizing s a with
  | zero => exact ⟨[], s, rfl, h, rfl⟩
  | succ n ih =>
    obtain ⟨t, ht, o, w, hr, ha⟩ := State.readByte_readable hw h
    obtain ⟨bs, u, hu, hr', ha'⟩ := ih w hr
    exact ⟨s.byteAt a :: bs, u, by simp only [State.readBytes, ht, hu, Access.andThen], hr', ha'.trans ha⟩

/-- A C string is read when its bytes and the NUL after them are readable. -/
theorem State.cstring_readable {s : State} {a : Word} {n : Nat} {as : List Word} (hw : s.memWf)
    (h : s.readable (addressesFrom a ((s.stringAt a n).length + 1) ++ as)) :
    ∃ t, s.cstring a n = .done (s.stringAt a n) t ∧ s.OnlyPaging t ∧ t.memWf ∧ t.readable as ∧
      t.env.answers = s.env.answers := by
  suffices ∃ bs t, s.cstring a n = .done bs t ∧ t.readable as ∧ t.env.answers = s.env.answers by
    obtain ⟨bs, t, ht, hr, ha⟩ := this
    obtain ⟨rfl, o, w⟩ := State.cstring_done hw ht
    exact ⟨t, ht, o, w, hr, ha⟩
  induction n generalizing s a with
  | zero => exact ⟨[], s, rfl, h.sublist (List.sublist_append_right _ _), rfl⟩
  | succ n ih =>
    obtain ⟨t, ht, o, w, hr, ha⟩ := State.readByte_readable hw h
    by_cases hb : s.byteAt a = 0
    · refine ⟨[], t, by simp [State.cstring, ht, Access.andThen, hb], ?_, ha⟩
      exact hr.sublist (List.sublist_append_right _ _)
    · have hs : s.stringAt a (n + 1) = s.byteAt a :: s.stringAt (a + 1) n := if_neg hb
      rw [hs, List.length_cons] at hr
      obtain ⟨bs, u, hu, hr', ha'⟩ := ih w (by rw [o.stringAt]; exact hr)
      exact ⟨s.byteAt a :: bs, u, by simp only [State.cstring, ht, hu, Access.andThen, if_neg hb], hr', ha'.trans ha⟩

/-- Writable bytes are written. -/
theorem State.putBytes_writable {s : State} {a : Word} {bs : List Byte} (hw : s.memWf)
    (h : s.writable (addressesFrom a bs.length)) : ∃ t, s.putBytes a bs = .done () t := by
  induction bs generalizing s a with
  | nil => exact ⟨s, rfl⟩
  | cons b bs ih =>
    obtain ⟨t, ht, hr⟩ := State.access_writable hw h
    obtain ⟨-, w, -, -⟩ := State.access_done hw ht
    obtain ⟨u, hu⟩ := ih (State.memWf_poke w a b) (hr b)
    exact ⟨u, by simp only [State.putBytes, State.writeByte, ht, Access.andThen]; exact hu⟩

end Sys2Proof.Machine
end

