-- ==== Sys2Proof/Laws/Exec.lean ====
section
/-! SUPPORT. What each shape of instruction gives when it gives a next state, and the frame of the accesses it is made of.
The case analyses over all instructions cite these. -/

namespace Sys2Proof.Machine

/-! ## Shapes of instructions -/

@[simp] theorem State.put_next {s t : State} {r : Reg} {v : Word} : s.put r v = .next t ↔ (s.setGpr r v).advance = t := by
  simp [State.put]

@[simp] theorem State.putSigned_next {s t : State} {r : Reg} {v : Int} :
    s.putSigned r v = .next t ↔
      (fitsWord v = true ∧ (s.setGpr r (BitVec.ofInt 32 v)).advance = t) ∨
        (fitsWord v = false ∧ s.raise .arithmeticOverflow 0 = t) := by
  unfold State.putSigned; cases fitsWord v <;> simp

@[simp] theorem State.putQuotient_next {s t : State} {r : Reg} {d v : Word} :
    s.putQuotient r d v = .next t ↔ (d = 0 ∧ s.advance = t) ∨ (d ≠ 0 ∧ (s.setGpr r v).advance = t) := by
  unfold State.putQuotient
  split
  · next h => simp [h]
  · next h =>
    have h' : ¬d = 0#32 := h
    simp [h']

@[simp] theorem State.putSingle_next {s t : State} {r : FReg} {v : Word} :
    s.putSingle r v = .next t ↔ (s.setFpr r v).advance = t := by
  simp [State.putSingle]

@[simp] theorem State.putDouble_next {s t : State} {r : FReg} {v : DWord} :
    s.putDouble r v = .next t ↔ (s.setFd64 r v).advance = t := by
  simp [State.putDouble]

@[simp] theorem State.whenEven_next {s t : State} {i : Instr} {rs : List FReg} {run : State → Result} :
    s.whenEven i rs run = .next t ↔
      (rs.all evenReg = true ∧ run s = .next t) ∨ (rs.all evenReg = false ∧ s.raise .reservedInstruction (encode i) = t) := by
  unfold State.whenEven; cases rs.all evenReg <;> simp

@[simp] theorem State.transfer_next {s t : State} {i : Instr} {link : Option Reg} {o : Option Word} :
    s.transfer i link o = .next t ↔
      (s.ds = true ∧ s.raise .reservedInstruction (encode i) = t) ∨
        (s.ds = false ∧ ∃ u, ((link = none ∧ u = s) ∨ ∃ r, link = some r ∧ u = s.setGpr r s.linkAddr) ∧
          u.advanceCti o = t) := by
  unfold State.transfer
  cases hd : s.ds <;> cases link <;> simp

@[simp] theorem State.branch_next {s t : State} {i : Instr} {link : Option Reg} {c : Bool} {o : Imm16} :
    s.branch i link c o = .next t ↔ s.transfer i link (if c then some (s.branchTarget o) else none) = .next t := Iff.rfl

@[simp] theorem State.load_next {α : Type} {s t : State} {a : Word} {n : Nat} {read : State → Access α}
    {wb : α → State → State} :
    s.load a n read wb = .next t ↔
      (a.toNat % n ≠ 0 ∧ s.raise .addressErrorData a = t) ∨
        (a.toNat % n = 0 ∧ (read s = .raised t ∨ ∃ v u, read s = .done v u ∧ (wb v u).advance = t)) := by
  unfold State.load State.aligned
  by_cases h : a.toNat % n = 0 <;> simp [h, Access.andThen, Access.finish]
  cases read s <;> simp

@[simp] theorem State.store_next {s t : State} {a : Word} {n : Nat} {write : State → Access Unit} :
    s.store a n write = .next t ↔
      (a.toNat % n ≠ 0 ∧ s.raise .addressErrorData a = t) ∨
        (a.toNat % n = 0 ∧ (write s = .raised t ∨ ∃ u, write s = .done () u ∧ u.advance = t)) := by
  unfold State.store State.aligned
  by_cases h : a.toNat % n = 0 <;> simp [h, Access.andThen, Access.finish]
  cases write s <;> simp

@[simp] theorem execSyscall_next {s t : State} {code : BitVec 20} :
    execSyscall code s = .next t ↔
      (Service.ofNumber (s.gpr 2) = none ∧ s.raise .reservedInstruction (encode (.syscall code)) = t) ∨
        ∃ v, Service.ofNumber (s.gpr 2) = some v ∧
          (v.perform { s with llBit := false } = .raised t ∨
            ∃ u, v.perform { s with llBit := false } = .done () u ∧ u.advance = t) := by
  unfold execSyscall
  cases Service.ofNumber (s.gpr 2) with
  | none => simp
  | some v =>
    simp only [Access.finish_next, reduceCtorEq, false_and, false_or, Option.some.injEq, exists_eq_left']
    exact or_congr_right ⟨fun ⟨_, u, h⟩ => ⟨u, h⟩, fun ⟨u, h⟩ => ⟨(), u, h⟩⟩

@[simp] theorem State.scSuccess_next {s t : State} {rt : Reg} {a : Word} :
    s.scSuccess rt a = .next t ↔
      s.writeWord a (s.gpr rt) = .raised t ∨
        ∃ u, s.writeWord a (s.gpr rt) = .done () u ∧ State.advance { u.setGpr rt 1 with llBit := false } = t := by
  unfold State.scSuccess
  cases s.writeWord a (s.gpr rt) <;> simp [Access.finish]

@[simp] theorem State.scFailure_next {s t : State} {rt : Reg} :
    s.scFailure rt = .next t ↔ State.advance { s.setGpr rt 0 with llBit := false } = t := by
  simp [State.scFailure]

/-- SC raises AddressError_data, or stores or fails in the state or in the state after the open choice is drawn. -/
theorem execSc_next {s t : State} {rt base : Reg} {o : Imm16} (h : execSc rt base o s = .next t) :
    s.raise .addressErrorData (s.effAddr base o) = t ∨
      ∃ e, State.scSuccess { s with env := e } rt (s.effAddr base o) = .next t ∨
        State.scFailure { s with env := e } rt = .next t := by
  unfold execSc State.aligned State.scMismatch at h
  by_cases ha : (s.effAddr base o).toNat % 4 = 0
  · simp only [ha, if_true] at h
    split at h
    · split at h
      · exact Or.inr ⟨s.env, Or.inl h⟩
      · cases hc : Config.scMismatch s.env.tick <;> rw [hc] at h
        · exact Or.inr ⟨_, Or.inr h⟩
        · exact Or.inr ⟨_, Or.inl h⟩
    · exact Or.inr ⟨s.env, Or.inr h⟩
  · simp only [ha, if_false, Host.Outcome.next.injEq] at h
    exact Or.inl h

/-! ## The frame of an access -/

/-- Nothing changes but the memory, which keeps its form, and the free inputs drawn. -/
def State.Touched (s t : State) : Prop :=
  t = { s with mem := t.mem, env := t.env } ∧ (s.memWf → t.memWf)

/-- As `Touched`, then the memory failed and MachineError was taken. -/
def State.Faulted (s t : State) : Prop :=
  ∃ u a, s.Touched u ∧ t = State.raise { u with memFailed := true } .machineError a

/-- A part of an instruction that accesses memory and does nothing else. -/
def Access.Sound {α : Type} (s : State) (x : Access α) : Prop :=
  match x with
  | .done _ t => s.Touched t
  | .raised t => s.Faulted t

@[simp] theorem State.memWf_setGpr {s : State} {r : Reg} {v : Word} : (s.setGpr r v).memWf ↔ s.memWf := by
  unfold State.setGpr; split <;> exact Iff.rfl

theorem State.Touched.refl (s : State) : s.Touched s := ⟨rfl, id⟩

theorem State.Touched.trans {s t u : State} (h : s.Touched t) (h' : t.Touched u) : s.Touched u :=
  ⟨by rw [h'.1, h.1], h'.2 ∘ h.2⟩

theorem State.Touched.faulted {s t u : State} (h : s.Touched t) (h' : t.Faulted u) : s.Faulted u := by
  obtain ⟨v, a, hv, rfl⟩ := h'
  exact ⟨v, a, h.trans hv, rfl⟩

theorem Access.Sound.andThen {α β : Type} {s : State} {x : Access α} {k : α → State → Access β} (h : x.Sound s)
    (hk : ∀ v u, (k v u).Sound u) : (x.andThen k).Sound s := by
  cases x with
  | raised t => exact h
  | done v u =>
    simp only [Access.andThen]
    have hu := hk v u
    cases hx : k v u with
    | done w t => rw [hx] at hu; exact State.Touched.trans h hu
    | raised t => rw [hx] at hu; exact State.Touched.faulted h hu

theorem Access.Sound.done {α : Type} {s t : State} {x : Access α} {v : α} (h : x.Sound s) (hx : x = .done v t) :
    s.Touched t := by
  subst hx; exact h

theorem Access.Sound.raised {α : Type} {s t : State} {x : Access α} (h : x.Sound s) (hx : x = .raised t) :
    s.Faulted t := by
  subst hx; exact h

theorem State.access_sound (s : State) (a : Word) (w : Bool) : (s.access a w).Sound s := by
  cases h : s.access a w with
  | done u t =>
    refine ⟨?_, fun hw => (State.access_done hw h).2.1⟩
    unfold State.access at h
    split at h
    · simp at h
    · split at h
      · simp only [Access.done.injEq, true_and] at h; rw [← h]
      · simp at h
  | raised t =>
    obtain ⟨e, rfl⟩ := State.access_raised h
    exact ⟨{ s with env := e }, a, ⟨rfl, id⟩, rfl⟩

theorem State.touched_pokes (s : State) (a : Word) (bs : List Byte) : s.Touched (s.pokes a bs) :=
  ⟨by conv_lhs => rw [State.pokes_eq]
      rw [State.pokes_eq], fun h => State.memWf_pokes h a bs⟩

theorem State.readByte_sound (s : State) (a : Word) : (s.readByte a).Sound s :=
  (s.access_sound a false).andThen fun _ u => .refl u

theorem State.readHalf_sound (s : State) (a : Word) : (s.readHalf a).Sound s :=
  (s.access_sound a false).andThen fun _ u => .refl u

theorem State.readWord_sound (s : State) (a : Word) : (s.readWord a).Sound s :=
  (s.access_sound a false).andThen fun _ u => .refl u

theorem State.readDouble_sound (s : State) (a : Word) : (s.readDouble a).Sound s :=
  (s.readWord_sound a).andThen fun _ u => (u.readWord_sound (a + 4)).andThen fun _ v => .refl v

theorem State.writeByte_sound (s : State) (a : Word) (b : Byte) : (s.writeByte a b).Sound s :=
  (s.access_sound a true).andThen fun _ u => u.touched_pokes a [b]

theorem State.writeHalf_sound (s : State) (a : Word) (v : Half) : (s.writeHalf a v).Sound s :=
  (s.access_sound a true).andThen fun _ u => u.touched_pokes a [v.extractLsb' 0 8, v.extractLsb' 8 8]

theorem State.writeWord_sound (s : State) (a v : Word) : (s.writeWord a v).Sound s := by
  rw [State.writeWord_eq]
  exact (s.access_sound a true).andThen fun _ u => u.touched_pokes a _

theorem State.writeDouble_sound (s : State) (a : Word) (v : DWord) : (s.writeDouble a v).Sound s :=
  (s.writeWord_sound a _).andThen fun _ u => u.writeWord_sound (a + 4) _

theorem State.readBytes_sound (s : State) (a : Word) (n : Nat) : (s.readBytes a n).Sound s := by
  induction n generalizing s a with
  | zero => exact .refl s
  | succ n ih => exact (s.readByte_sound a).andThen fun _ u => (ih u (a + 1)).andThen fun _ v => .refl v

theorem State.putBytes_sound (s : State) (a : Word) (bs : List Byte) : (s.putBytes a bs).Sound s := by
  induction bs generalizing s a with
  | nil => exact .refl s
  | cons b bs ih => exact (s.writeByte_sound a b).andThen fun _ u => ih u (a + 1)

theorem State.cstring_sound (s : State) (a : Word) (n : Nat) : (s.cstring a n).Sound s := by
  induction n generalizing s a with
  | zero => exact .refl s
  | succ n ih =>
    refine (s.readByte_sound a).andThen fun b u => ?_
    split
    · exact .refl u
    · exact (ih u (a + 1)).andThen fun _ v => .refl v

/-! ## The frame of a service -/

/-- A service that is done changes R2, F0 and F1, EXIT_CODE, memory, the calls and the free inputs only; R0 stays 0, and
EXIT_CODE becomes EXIT or stays. -/
theorem Service.perform_done {v : Service} {s t : State} (h : v.perform s = .done () t) :
    t = { s with gprs := t.gprs, fprs := t.fprs, exitCode := t.exitCode, mem := t.mem, calls := t.calls, env := t.env } ∧
      (s.gprs[0] = 0 → t.gprs[0] = 0) ∧ (t.exitCode = s.exitCode ∨ t.exitCode = .exit) ∧ (s.memWf → t.memWf) := by
  have zero : ∀ (u : State) (w : Word), u.gprs[0] = 0 → (u.setGpr 2 w).gprs[0] = 0 := fun u w h0 => by
    simp [State.setGpr, h0]
  cases v <;> simp only [Service.perform] at h
  · simp only [servePrintInt, Access.done.injEq, true_and] at h; subst h; exact ⟨rfl, id, Or.inl rfl, id⟩
  · simp only [servePrintFloat, Access.done.injEq, true_and] at h; subst h; exact ⟨rfl, id, Or.inl rfl, id⟩
  · simp only [servePrintDouble, Access.done.injEq, true_and] at h; subst h; exact ⟨rfl, id, Or.inl rfl, id⟩
  · simp only [servePrintString, Access.andThen_done, Access.done.injEq, true_and] at h
    obtain ⟨bs, u, hu, rfl⟩ := h
    have hu := (s.cstring_sound _ _).done hu
    exact ⟨by rw [hu.1]; rfl, fun h0 => by rw [hu.1]; exact h0, Or.inl (by rw [hu.1]; rfl), hu.2⟩
  · simp only [serveReadInt, Access.done.injEq, true_and] at h; subst h
    exact ⟨by simp [State.setGpr, State.call], zero _ _, Or.inl (by simp [State.call]), id⟩
  · simp only [serveReadFloat, Access.done.injEq, true_and] at h; subst h; exact ⟨rfl, id, Or.inl rfl, id⟩
  · simp only [serveReadDouble, Access.done.injEq, true_and] at h; subst h; exact ⟨rfl, id, Or.inl rfl, id⟩
  · simp only [serveReadString] at h
    have hu := (State.putBytes_sound _ _ _).done h
    exact ⟨by rw [hu.1]; rfl, fun h0 => by rw [hu.1]; exact h0, Or.inl (by rw [hu.1]; rfl), hu.2⟩
  · simp only [serveSbrk, Access.done.injEq, true_and] at h; subst h
    exact ⟨by simp [State.setGpr], zero _ _, Or.inl (by simp), State.memWf_setGpr.mpr⟩
  · simp only [serveExit, Access.done.injEq, true_and] at h; subst h; exact ⟨rfl, id, Or.inr rfl, id⟩
  · simp only [serveFileOpen, Access.andThen_done, Access.done.injEq, true_and] at h
    obtain ⟨_, u, hu, _, w, hw, rfl⟩ := h
    have hu := ((s.cstring_sound _ _).done hu).trans ((u.cstring_sound _ _).done hw)
    refine ⟨?_, fun h0 => zero _ _ (by simp only [State.call]; rw [hu.1]; exact h0), ?_,
      fun h0 => State.memWf_setGpr.mpr (hu.2 h0)⟩
    · simp only [State.setGpr, State.call]; rw [hu.1]; rfl
    · rw [State.setGpr_exitCode]; exact Or.inl (by rw [hu.1]; rfl)
  · simp only [serveFileRead, Access.andThen_done, Access.done.injEq, true_and] at h
    obtain ⟨_, u, hu, rfl⟩ := h
    have hu := (State.putBytes_sound _ _ _).done hu
    refine ⟨?_, fun h0 => zero _ _ (by rw [hu.1]; exact h0), Or.inl (by rw [State.setGpr_exitCode, hu.1]; rfl),
      fun h0 => State.memWf_setGpr.mpr (hu.2 h0)⟩
    · simp only [State.setGpr]; rw [hu.1]; rfl
  · simp only [serveFileWrite, Access.andThen_done, Access.done.injEq, true_and] at h
    obtain ⟨_, u, hu, rfl⟩ := h
    have hu := (State.readBytes_sound _ _ _).done hu
    refine ⟨?_, fun h0 => zero _ _ (by simp only [State.call]; rw [hu.1]; exact h0), ?_,
      fun h0 => State.memWf_setGpr.mpr (hu.2 h0)⟩
    · simp only [State.setGpr, State.call]; rw [hu.1]; rfl
    · rw [State.setGpr_exitCode]; exact Or.inl (by rw [hu.1]; rfl)
  · simp only [serveFileClose, Access.done.injEq, true_and] at h; subst h; exact ⟨rfl, id, Or.inl rfl, id⟩

/-- A service that raises has met a failed memory, after calls and stores it may have made. -/
theorem Service.perform_raised {v : Service} {s t : State} (h : v.perform s = .raised t) :
    ∃ cs e, State.Faulted { s with calls := cs, env := e } t := by
  cases v <;>
    simp only [Service.perform, servePrintInt, servePrintFloat, servePrintDouble, servePrintString, serveReadInt,
      serveReadFloat, serveReadDouble, serveReadString, serveSbrk, serveExit, serveFileOpen, serveFileRead, serveFileWrite,
      serveFileClose, Access.andThen_raised, reduceCtorEq, and_false, exists_false, or_false] at h
  · exact ⟨_, _, (s.cstring_sound _ _).raised h⟩
  · exact ⟨_, _, (State.putBytes_sound _ _ _).raised h⟩
  · obtain h | ⟨_, u, hu, h⟩ := h
    · exact ⟨_, _, (s.cstring_sound _ _).raised h⟩
    · exact ⟨_, _, ((s.cstring_sound _ _).done hu).faulted ((u.cstring_sound _ _).raised h)⟩
  · exact ⟨_, _, (State.putBytes_sound _ _ _).raised h⟩
  · exact ⟨_, _, (s.readBytes_sound _ _).raised h⟩

/-! ## All instructions -/

/-- The state `u` in which the effect of an instruction has been had, before the PC moves: what can have changed. -/
structure Ran (i : Instr) (s u : State) : Prop where
  frame : u = { s with gprs := u.gprs, fprs := u.fprs, hi := u.hi, lo := u.lo, fcsr := u.fcsr, llBit := u.llBit,
                       llAddr := u.llAddr, exitCode := u.exitCode, mem := u.mem, calls := u.calls, env := u.env }
  memory : s.memWf → u.memWf
  zero : s.gprs[0] = 0 → u.gprs[0] = 0
  exitCode : u.exitCode = s.exitCode ∨ u.exitCode = .exit
  fcsr : u.fcsr = s.fcsr ∨
    ((∃ c fs ft, i = .cCondS c fs ft) ∨ ∃ c fs ft, i = .cCondD c fs ft) ∧ ∃ b, u.fcsr = (s.setCc b).fcsr
  hi : u.hi = s.hi ∨ ∃ rs, i = .mthi rs
  lo : u.lo = s.lo ∨ ∃ rs, i = .mtlo rs
  reservation : (u.llBit = s.llBit ∧ u.llAddr = s.llAddr) ∨ (∃ rt b o, i = .ll rt b o ∧ u.llBit = true) ∨
    (((∃ rt b o, i = .sc rt b o) ∨ ∃ c, i = .syscall c) ∧ u.llBit = false ∧ u.llAddr = s.llAddr)

theorem Ran.touched {i : Instr} {s u : State} (h : s.Touched u) : Ran i s u where
  frame := by rw [h.1]
  memory := h.2
  zero h0 := by rw [h.1]; exact h0
  exitCode := Or.inl (by rw [h.1])
  fcsr := Or.inl (by rw [h.1])
  hi := Or.inl (by rw [h.1])
  lo := Or.inl (by rw [h.1])
  reservation := Or.inl ⟨by rw [h.1], by rw [h.1]⟩

theorem Ran.setGpr {i : Instr} {s u : State} (h : Ran i s u) (r : Reg) (v : Word) : Ran i s (u.setGpr r v) where
  frame := by
    have := h.frame
    unfold State.setGpr
    split
    · exact this
    · rw [this]
  memory hw := State.memWf_setGpr.mpr (h.memory hw)
  zero h0 := by
    have h1 := h.zero h0
    unfold State.setGpr
    split
    · exact h1
    · next hr =>
      have : r.val ≠ 0 := fun e => hr (Fin.ext e)
      simp [this, h1]
  exitCode := by simpa using h.exitCode
  fcsr := by simpa using h.fcsr
  hi := by simpa using h.hi
  lo := by simpa using h.lo
  reservation := by simpa using h.reservation

theorem Ran.setFpr {i : Instr} {s u : State} (h : Ran i s u) (r : FReg) (v : Word) : Ran i s (u.setFpr r v) :=
  { h with frame := by rw [h.frame]; rfl }

theorem Ran.setFd64 {i : Instr} {s u : State} (h : Ran i s u) (r : FReg) (v : DWord) : Ran i s (u.setFd64 r v) :=
  (h.setFpr r _).setFpr (r + 1) _

/-! Every shape gives a next state, so every instruction does (rule R356). -/

theorem Access.finish_isNext {α : Type} (x : Access α) (k : α → State → State) : ∃ t, x.finish k = .next t := by
  cases x <;> exact ⟨_, rfl⟩

theorem State.whenEven_isNext {s : State} {i : Instr} {rs : List FReg} {run : State → Result}
    (h : ∃ t, run s = .next t) : ∃ t, s.whenEven i rs run = .next t := by
  unfold State.whenEven
  split
  · exact h
  · exact ⟨_, rfl⟩

/-- Every instruction gives a next state: no meaning is refused and none ends in a fault. -/
theorem exec_isNext (i : Instr) (s : State) : ∃ t, exec i s = .next t := by
  have ofIte : ∀ (p : Prop) [Decidable p] (t u : State), ∃ v, (if p then Host.Outcome.next t else .next u : Result) = .next v :=
    fun p _ t u => by split <;> exact ⟨_, rfl⟩
  have transfer : ∀ (i : Instr) (l : Option Reg) (o : Option Word), ∃ v, s.transfer i l o = .next v := fun i l o => by
    unfold State.transfer
    split
    · exact ⟨_, rfl⟩
    · cases l <;> exact ⟨_, rfl⟩
  cases i
  case add | sub | addi | div | mod | divu | modu => exact ofIte _ _ _
  case beq | bne | blez | bgtz | bltz | bgez | bltzal | bgezal | j | jal | jr | jalr | jalx | bc1f | bc1t =>
    simp only [exec, execBeq, execBne, execBlez, execBgtz, execBltz, execBgez, execBltzal, execBgezal, execJ, execJal, execJr,
      execJalr, execJalx, execBc1f, execBc1t, State.branch]
    exact transfer _ _ _
  case lb | lbu | lh | lhu | lw | ll | lwc1 | sb | sh | sw | swc1 => exact Access.finish_isNext _ _
  case ldc1 | sdc1 =>
    simp only [exec, execLdc1, execSdc1]
    exact State.whenEven_isNext (Access.finish_isNext _ _)
  case addD | subD | mulD | divD | absD | negD | cvtDS | cvtSD | cvtWD | cCondD =>
    simp only [exec, execAddD, execSubD, execMulD, execDivD, execAbsD, execNegD, execCvtDS, execCvtSD, execCvtWD,
      execCCondD, State.arithD]
    exact State.whenEven_isNext ⟨_, rfl⟩
  case syscall code =>
    simp only [exec, execSyscall]
    split
    · exact ⟨_, rfl⟩
    · exact Access.finish_isNext _ _
  case sc rt base o =>
    simp only [exec, execSc, State.aligned]
    split
    · next h => exact ⟨_, rfl⟩
    · split
      · split
        · exact Access.finish_isNext _ _
        · split
          · exact Access.finish_isNext _ _
          · exact ⟨_, rfl⟩
      · exact ⟨_, rfl⟩
  all_goals exact ⟨_, rfl⟩

/-- What an instruction that gives a next state has done: raised at once, met a failed memory, or run to its end. -/
theorem exec_cases {i : Instr} {s t : State} (h : exec i s = .next t) :
    (∃ k p, t = s.raise k p ∧ k ≠ .none ∧ k ≠ .syscall) ∨
    (∃ cs e b, State.Faulted { s with calls := cs, env := e, llBit := b } t) ∨
    ∃ u : State, Ran i s u ∧ (t = u.advance ∧ isCti i = false ∨ ∃ o, t = u.advanceCti o ∧ isCti i = true) := by
  have self : Ran i s s := .touched (.refl s)
  have setg : ∀ (r : Reg) (v : Word), (s.setGpr r v).advance = t → isCti i = false →
      ∃ u : State, Ran i s u ∧ (t = u.advance ∧ isCti i = false ∨ ∃ o, t = u.advanceCti o ∧ isCti i = true) :=
    fun r v e hc => ⟨s.setGpr r v, self.setGpr r v, Or.inl ⟨e.symm, hc⟩⟩
  have raised : ∀ k p, s.raise k p = t → k ≠ .none → k ≠ .syscall → (∃ k p, t = s.raise k p ∧ k ≠ .none ∧ k ≠ .syscall) := fun k p e h1 h2 => ⟨k, p, e.symm, h1, h2⟩
  have faulted : s.Faulted t → ∃ cs e b, State.Faulted { s with calls := cs, env := e, llBit := b } t :=
    fun hf => ⟨s.calls, s.env, s.llBit, hf⟩
  cases i
  case syscall code =>
    simp only [exec, execSyscall_next] at h
    obtain ⟨-, h⟩ | ⟨v, -, h | ⟨u, h, hu⟩⟩ := h
    · exact Or.inl (raised _ _ h (by decide) (by decide))
    · obtain ⟨cs, e, hf⟩ := Service.perform_raised h
      exact Or.inr (Or.inl ⟨cs, e, false, hf⟩)
    · obtain ⟨h1, h2, h3, h4⟩ := Service.perform_done h
      refine Or.inr (Or.inr ⟨u, ⟨?_, h4, h2, h3, Or.inl (by rw [h1]), Or.inl (by rw [h1]), Or.inl (by rw [h1]), ?_⟩, Or.inl ⟨hu.symm, rfl⟩⟩)
      · rw [h1]
      · exact Or.inr (Or.inr ⟨Or.inr ⟨code, rfl⟩, by rw [h1], by rw [h1]⟩)
  case sc rt base o =>
    have clear : ∀ (e : Env) (u : State) (v : Word), State.Touched { s with env := e } u →
        Ran (.sc rt base o) s { u.setGpr rt v with llBit := false } := fun e u v hu => by
      have hr := (Ran.touched (i := .sc rt base o) hu).setGpr rt v
      have hf := hr.frame
      refine ⟨?_, hr.memory, hr.zero, hr.exitCode, hr.fcsr, hr.hi, hr.lo, Or.inr (Or.inr ⟨by simp, rfl, ?_⟩)⟩
      · rw [hf]
      · simp; rw [hu.1]
    obtain h | ⟨e, h | h⟩ := execSc_next h
    · exact Or.inl (raised _ _ h (by decide) (by decide))
    · simp only [State.scSuccess_next] at h
      obtain h | ⟨u, h, hu⟩ := h
      · obtain hf := (State.writeWord_sound _ _ _).raised h
        exact Or.inr (Or.inl ⟨s.calls, e, s.llBit, hf⟩)
      · exact Or.inr (Or.inr ⟨_, clear e u 1 ((State.writeWord_sound _ _ _).done h), Or.inl ⟨hu.symm, rfl⟩⟩)
    · simp only [State.scFailure_next] at h
      exact Or.inr (Or.inr ⟨_, clear e _ 0 (.refl _), Or.inl ⟨h.symm, rfl⟩⟩)
  case ll rt base o =>
    simp only [exec, execLl, State.load_next] at h
    obtain ⟨-, h⟩ | ⟨-, h | ⟨v, u, h, hu⟩⟩ := h
    · exact Or.inl (raised _ _ h (by decide) (by decide))
    · exact Or.inr (Or.inl (faulted ((s.readWord_sound _).raised h)))
    · have hr := (Ran.touched (i := .ll rt base o) ((s.readWord_sound _).done h)).setGpr rt v
      have hf := hr.frame
      refine Or.inr (Or.inr ⟨_, ?_, Or.inl ⟨hu.symm, rfl⟩⟩)
      exact ⟨by rw [hf], hr.memory, hr.zero, hr.exitCode, hr.fcsr, hr.hi, hr.lo, by simp⟩
  case mthi rs =>
    simp only [exec, execMthi, Host.Outcome.next.injEq] at h
    refine Or.inr (Or.inr ⟨_, ?_, Or.inl ⟨h.symm, rfl⟩⟩)
    exact ⟨rfl, id, id, by simp, by simp, by simp, by simp, by simp⟩
  case mtlo rs =>
    simp only [exec, execMtlo, Host.Outcome.next.injEq] at h
    refine Or.inr (Or.inr ⟨_, ?_, Or.inl ⟨h.symm, rfl⟩⟩)
    exact ⟨rfl, id, id, by simp, by simp, by simp, by simp, by simp⟩
  case cCondS c fs ft =>
    simp only [exec, execCCondS, Host.Outcome.next.injEq] at h
    refine Or.inr (Or.inr ⟨_, ?_, Or.inl ⟨h.symm, rfl⟩⟩)
    exact ⟨rfl, id, id, by simp, Or.inr ⟨by simp, _, rfl⟩, by simp, by simp, by simp⟩
  case cCondD c fs ft =>
    simp only [exec, execCCondD, State.whenEven_next, Host.Outcome.next.injEq] at h
    obtain ⟨-, h⟩ | ⟨-, h⟩ := h
    · refine Or.inr (Or.inr ⟨_, ?_, Or.inl ⟨h.symm, rfl⟩⟩)
      exact ⟨rfl, id, id, by simp, Or.inr ⟨by simp, _, rfl⟩, by simp, by simp, by simp⟩
    · exact Or.inl (raised _ _ h (by decide) (by decide))
  all_goals
    simp only [exec, execAdd, execAddu, execSub, execSubu, execAddi, execAddiu, execMul, execMuh, execMulu, execMuhu,
      execDiv, execMod, execDivu, execModu, execAnd, execOr, execXor, execNor, execAndi, execOri, execXori, execAui,
      execLui, execSll, execSrl, execSra, execSllv, execSrlv, execSrav, execSlt, execSltu, execSlti, execSltiu, execMfhi,
      execMflo, execMfc1, execBeq, execBne, execBlez, execBgtz, execBltz, execBgez, execBltzal, execBgezal, execJ, execJal,
      execJr, execJalr, execJalx, execBc1f, execBc1t, execLb, execLbu, execLh, execLhu, execLw, execSb, execSh, execSw,
      execLwc1, execLdc1, execSwc1, execSdc1, execAddS, execAddD, execSubS, execSubD, execMulS, execMulD, execDivS,
      execDivD, execAbsS, execAbsD, execNegS, execNegD, execCvtSW, execCvtDS, execCvtSD, execCvtWS, execCvtWD, execMtc1,
      execBreak, execNop, State.arithS, State.arithD, State.put_next, State.putSigned_next, State.putQuotient_next,
      State.putSingle_next, State.putDouble_next, State.whenEven_next, State.branch_next, State.transfer_next,
      State.load_next, State.store_next, Host.Outcome.next.injEq] at h
  case add | sub | addi =>
    obtain ⟨-, h⟩ | ⟨-, h⟩ := h
    · exact Or.inr (Or.inr (setg _ _ h rfl))
    · exact Or.inl (raised _ _ h (by decide) (by decide))
  case div | mod | divu | modu =>
    obtain ⟨-, h⟩ | ⟨-, h⟩ := h
    · exact Or.inr (Or.inr ⟨s, self, Or.inl ⟨h.symm, rfl⟩⟩)
    · exact Or.inr (Or.inr (setg _ _ h rfl))
  case beq | bne | blez | bgtz | bltz | bgez | bltzal | bgezal | j | jal | jr | jalr | jalx | bc1f | bc1t =>
    obtain ⟨-, h⟩ | ⟨-, u, ⟨-, hu⟩ | ⟨_, -, hu⟩, h⟩ := h
    · exact Or.inl (raised _ _ h (by decide) (by decide))
    · exact Or.inr (Or.inr ⟨u, hu ▸ self, Or.inr ⟨_, h.symm, rfl⟩⟩)
    · exact Or.inr (Or.inr ⟨u, hu ▸ self.setGpr _ _, Or.inr ⟨_, h.symm, rfl⟩⟩)
  case lb | lbu =>
    obtain ⟨-, h⟩ | ⟨-, h | ⟨v, u, h, hu⟩⟩ := h
    · exact Or.inl (raised _ _ h (by decide) (by decide))
    · exact Or.inr (Or.inl (faulted ((s.readByte_sound _).raised h)))
    · exact Or.inr (Or.inr ⟨_, (Ran.touched ((s.readByte_sound _).done h)).setGpr _ _, Or.inl ⟨hu.symm, rfl⟩⟩)
  case lh | lhu =>
    obtain ⟨-, h⟩ | ⟨-, h | ⟨v, u, h, hu⟩⟩ := h
    · exact Or.inl (raised _ _ h (by decide) (by decide))
    · exact Or.inr (Or.inl (faulted ((s.readHalf_sound _).raised h)))
    · exact Or.inr (Or.inr ⟨_, (Ran.touched ((s.readHalf_sound _).done h)).setGpr _ _, Or.inl ⟨hu.symm, rfl⟩⟩)
  case lw =>
    obtain ⟨-, h⟩ | ⟨-, h | ⟨v, u, h, hu⟩⟩ := h
    · exact Or.inl (raised _ _ h (by decide) (by decide))
    · exact Or.inr (Or.inl (faulted ((s.readWord_sound _).raised h)))
    · exact Or.inr (Or.inr ⟨_, (Ran.touched ((s.readWord_sound _).done h)).setGpr _ _, Or.inl ⟨hu.symm, rfl⟩⟩)
  case lwc1 =>
    obtain ⟨-, h⟩ | ⟨-, h | ⟨v, u, h, hu⟩⟩ := h
    · exact Or.inl (raised _ _ h (by decide) (by decide))
    · exact Or.inr (Or.inl (faulted ((s.readWord_sound _).raised h)))
    · exact Or.inr (Or.inr ⟨_, (Ran.touched ((s.readWord_sound _).done h)).setFpr _ _, Or.inl ⟨hu.symm, rfl⟩⟩)
  case ldc1 =>
    obtain ⟨-, ⟨-, h⟩ | ⟨-, h | ⟨v, u, h, hu⟩⟩⟩ | ⟨-, h⟩ := h
    · exact Or.inl (raised _ _ h (by decide) (by decide))
    · exact Or.inr (Or.inl (faulted ((s.readDouble_sound _).raised h)))
    · exact Or.inr (Or.inr ⟨_, (Ran.touched ((s.readDouble_sound _).done h)).setFd64 _ _, Or.inl ⟨hu.symm, rfl⟩⟩)
    · exact Or.inl (raised _ _ h (by decide) (by decide))
  case sb =>
    obtain ⟨-, h⟩ | ⟨-, h | ⟨u, h, hu⟩⟩ := h
    · exact Or.inl (raised _ _ h (by decide) (by decide))
    · exact Or.inr (Or.inl (faulted ((s.writeByte_sound _ _).raised h)))
    · exact Or.inr (Or.inr ⟨u, .touched ((s.writeByte_sound _ _).done h), Or.inl ⟨hu.symm, rfl⟩⟩)
  case sh =>
    obtain ⟨-, h⟩ | ⟨-, h | ⟨u, h, hu⟩⟩ := h
    · exact Or.inl (raised _ _ h (by decide) (by decide))
    · exact Or.inr (Or.inl (faulted ((s.writeHalf_sound _ _).raised h)))
    · exact Or.inr (Or.inr ⟨u, .touched ((s.writeHalf_sound _ _).done h), Or.inl ⟨hu.symm, rfl⟩⟩)
  case sw | swc1 =>
    obtain ⟨-, h⟩ | ⟨-, h | ⟨u, h, hu⟩⟩ := h
    · exact Or.inl (raised _ _ h (by decide) (by decide))
    · exact Or.inr (Or.inl (faulted ((s.writeWord_sound _ _).raised h)))
    · exact Or.inr (Or.inr ⟨u, .touched ((s.writeWord_sound _ _).done h), Or.inl ⟨hu.symm, rfl⟩⟩)
  case sdc1 =>
    obtain ⟨-, ⟨-, h⟩ | ⟨-, h | ⟨u, h, hu⟩⟩⟩ | ⟨-, h⟩ := h
    · exact Or.inl (raised _ _ h (by decide) (by decide))
    · exact Or.inr (Or.inl (faulted ((s.writeDouble_sound _ _).raised h)))
    · exact Or.inr (Or.inr ⟨u, .touched ((s.writeDouble_sound _ _).done h), Or.inl ⟨hu.symm, rfl⟩⟩)
    · exact Or.inl (raised _ _ h (by decide) (by decide))
  case addS | subS | mulS | divS | absS | negS | cvtSW | cvtWS | mtc1 =>
    exact Or.inr (Or.inr ⟨_, self.setFpr _ _, Or.inl ⟨h.symm, rfl⟩⟩)
  case addD | subD | mulD | divD | absD | negD | cvtDS =>
    obtain ⟨-, h⟩ | ⟨-, h⟩ := h
    · exact Or.inr (Or.inr ⟨_, self.setFd64 _ _, Or.inl ⟨h.symm, rfl⟩⟩)
    · exact Or.inl (raised _ _ h (by decide) (by decide))
  case cvtSD | cvtWD =>
    obtain ⟨-, h⟩ | ⟨-, h⟩ := h
    · exact Or.inr (Or.inr ⟨_, self.setFpr _ _, Or.inl ⟨h.symm, rfl⟩⟩)
    · exact Or.inl (raised _ _ h (by decide) (by decide))
  case brk => exact Or.inl (raised _ _ h (by decide) (by decide))
  case nop => exact Or.inr (Or.inr ⟨s, self, Or.inl ⟨h.symm, rfl⟩⟩)
  all_goals exact Or.inr (Or.inr (setg _ _ h rfl))

end Sys2Proof.Machine
end

