-- ==== Sys2Proof/Laws/Control.lean ====
section
/-! SUPPORT. What a bulk access of the host can do (rules R14, R68, R86). -/

namespace Sys2Proof.Machine

/-- What a bulk access of the host leaves: only the memory, which keeps its form, the free inputs drawn, and MEM_FAILED,
which is never cleared, can differ. -/
structure State.HostTouched (s t : State) : Prop where
  frame : t = { s with memFailed := t.memFailed, mem := t.mem, env := t.env }
  memory : s.memWf → t.memWf
  failed : s.memFailed = true → t.memFailed = true

theorem State.HostTouched.refl (s : State) : s.HostTouched s := ⟨rfl, id, id⟩

theorem State.HostTouched.trans {s t u : State} (h : s.HostTouched t) (h' : t.HostTouched u) : s.HostTouched u :=
  ⟨by rw [h'.frame, h.frame], h'.memory ∘ h.memory, h'.failed ∘ h.failed⟩

/-- The memory that an access has made of `s`, and what it has drawn. -/
theorem State.hostTouched_acquire {s : State} {a : Word} {w : Bool} {m : Memory} {e : Env}
    (h : s.mem.acquire s.params.nSlots (s.pageOf a) w s.env = (some m, e)) :
    s.HostTouched { s with mem := m, env := e } :=
  ⟨rfl, fun hw => (Memory.acquire_spec hw s.params.nSlots_pos (s.pageOf_lt a) h).1, id⟩

theorem State.ramReadByte_touched (s : State) (a : Word) : s.HostTouched (s.ramReadByte a).2 := by
  unfold State.ramReadByte
  split
  · exact ⟨rfl, id, id⟩
  · rcases h : s.mem.acquire s.params.nSlots (s.pageOf a) false s.env with ⟨_ | m, e⟩
    · exact ⟨rfl, id, fun _ => rfl⟩
    · exact State.hostTouched_acquire h

theorem State.ramReadBytes_touched (s : State) (a : Word) (n : Nat) : s.HostTouched (s.ramReadBytes a n).2 := by
  induction n generalizing s a with
  | zero => exact .refl s
  | succ n ih => exact (s.ramReadByte_touched a).trans (ih _ (a + 1))

theorem State.ramWrite_touched (s : State) (a : Word) (bs : List Byte) : s.HostTouched (s.ramWrite a bs) := by
  induction bs generalizing s a with
  | nil => exact .refl s
  | cons b bs ih =>
    unfold State.ramWrite
    split
    · exact .refl s
    · rcases h : s.mem.acquire s.params.nSlots (s.pageOf a) true s.env with ⟨_ | m, e⟩
      · exact ⟨rfl, id, fun _ => rfl⟩
      · exact ((State.hostTouched_acquire h).trans ⟨rfl, fun hw => State.memWf_poke hw a b, id⟩).trans (ih _ (a + 1))

/-- A byte read by the host without a failure is M's byte, and the read changes nothing but the paging. -/
theorem State.ramReadByte_done {s : State} {a : Word} (hw : s.memWf) (h : (s.ramReadByte a).2.memFailed = false) :
    (s.ramReadByte a).1 = s.byteAt a ∧ s.OnlyPaging (s.ramReadByte a).2 := by
  unfold State.ramReadByte at *
  split at h
  · next hf => exact absurd (hf.symm.trans h) (by decide)
  · next hf =>
    rw [if_neg hf]
    rcases ha : s.mem.acquire s.params.nSlots (s.pageOf a) false s.env with ⟨_ | m, e⟩
    · rw [ha] at h; exact absurd h (by simp)
    · exact ⟨rfl, rfl, fun x =>
        Memory.byteAt_congr (Memory.acquire_spec hw s.params.nSlots_pos (s.pageOf_lt a) ha).2.1 _ _⟩

/-- A bulk read that ends without a failure gives M's bytes, and changes nothing but the paging. -/
theorem State.ramReadBytes_done {s : State} {a : Word} {n : Nat} (hw : s.memWf)
    (h : (s.ramReadBytes a n).2.memFailed = false) :
    (s.ramReadBytes a n).1 = ((List.range n).map fun k => s.byteAt (a + BitVec.ofNat 32 k)) ∧
      s.OnlyPaging (s.ramReadBytes a n).2 := by
  induction n generalizing s a with
  | zero => exact ⟨rfl, .refl s⟩
  | succ n ih =>
    have ht := (s.ramReadByte a).2.ramReadBytes_touched (a + 1) n
    have hf : (s.ramReadByte a).2.memFailed = false := by
      cases hc : (s.ramReadByte a).2.memFailed
      · rfl
      · exact (ht.failed hc).symm.trans h
    obtain ⟨e1, o1⟩ := State.ramReadByte_done hw hf
    obtain ⟨e2, o2⟩ := ih ((s.ramReadByte_touched a).memory hw) h
    refine ⟨?_, o1.trans o2⟩
    rw [List.range_succ_eq_map, List.map_cons, List.map_map]
    refine congrArg₂ List.cons (e1.trans (by simp)) (e2.trans (List.map_congr_left fun i _ => ?_))
    rw [o1.2, Function.comp, Nat.succ_eq_add_one]
    congr 1
    rw [add_assoc]; congr 1; apply BitVec.eq_of_toNat_eq; simp [Nat.add_comm]

end Sys2Proof.Machine
end

