-- ==== Sys2Proof/Laws/Decode.lean ====
section
/-! SUPPORT. The fields of a word put together by each format (rules R111, R112), for `simp`. -/

namespace Sys2Proof

@[simp] theorem reg_regBits (r : Reg) : reg (regBits r) = r := rfl

@[simp] theorem regBits_reg (b : BitVec 5) : regBits (reg b) = b := rfl

theorem regBits_eq_zero {r : Reg} : regBits r = 0 ↔ r = 0 := by revert r; decide

/-! ## The fields of each format -/

@[simp] theorem opOf_rWord (op : BitVec 6) (rs : BitVec 5) (rt : BitVec 5) (rd : BitVec 5) (sh : BitVec 5) (fn : BitVec 6) :
    opOf (rWord op rs rt rd sh fn) = op := by
  show BitVec.extractLsb' (n := 6 + 5 + 5 + 5 + 5 + 6) 26 6 (op ++ rs ++ rt ++ rd ++ sh ++ fn) = op
  rw [BitVec.extractLsb'_append_eq_of_le (by decide), BitVec.extractLsb'_append_eq_of_le (by decide), BitVec.extractLsb'_append_eq_of_le (by decide), BitVec.extractLsb'_append_eq_of_le (by decide), BitVec.extractLsb'_append_eq_of_le (by decide)]
  exact BitVec.extractLsb'_eq_self

@[simp] theorem rsOf_rWord (op : BitVec 6) (rs : BitVec 5) (rt : BitVec 5) (rd : BitVec 5) (sh : BitVec 5) (fn : BitVec 6) :
    rsOf (rWord op rs rt rd sh fn) = rs := by
  show BitVec.extractLsb' (n := 6 + 5 + 5 + 5 + 5 + 6) 21 5 (op ++ rs ++ rt ++ rd ++ sh ++ fn) = rs
  rw [BitVec.extractLsb'_append_eq_of_le (by decide), BitVec.extractLsb'_append_eq_of_le (by decide), BitVec.extractLsb'_append_eq_of_le (by decide), BitVec.extractLsb'_append_eq_of_le (by decide), BitVec.extractLsb'_append_eq_of_add_le (by decide)]
  exact BitVec.extractLsb'_eq_self

@[simp] theorem rtOf_rWord (op : BitVec 6) (rs : BitVec 5) (rt : BitVec 5) (rd : BitVec 5) (sh : BitVec 5) (fn : BitVec 6) :
    rtOf (rWord op rs rt rd sh fn) = rt := by
  show BitVec.extractLsb' (n := 6 + 5 + 5 + 5 + 5 + 6) 16 5 (op ++ rs ++ rt ++ rd ++ sh ++ fn) = rt
  rw [BitVec.extractLsb'_append_eq_of_le (by decide), BitVec.extractLsb'_append_eq_of_le (by decide), BitVec.extractLsb'_append_eq_of_le (by decide), BitVec.extractLsb'_append_eq_of_add_le (by decide)]
  exact BitVec.extractLsb'_eq_self

@[simp] theorem rdOf_rWord (op : BitVec 6) (rs : BitVec 5) (rt : BitVec 5) (rd : BitVec 5) (sh : BitVec 5) (fn : BitVec 6) :
    rdOf (rWord op rs rt rd sh fn) = rd := by
  show BitVec.extractLsb' (n := 6 + 5 + 5 + 5 + 5 + 6) 11 5 (op ++ rs ++ rt ++ rd ++ sh ++ fn) = rd
  rw [BitVec.extractLsb'_append_eq_of_le (by decide), BitVec.extractLsb'_append_eq_of_le (by decide), BitVec.extractLsb'_append_eq_of_add_le (by decide)]
  exact BitVec.extractLsb'_eq_self

@[simp] theorem shamtOf_rWord (op : BitVec 6) (rs : BitVec 5) (rt : BitVec 5) (rd : BitVec 5) (sh : BitVec 5) (fn : BitVec 6) :
    shamtOf (rWord op rs rt rd sh fn) = sh := by
  show BitVec.extractLsb' (n := 6 + 5 + 5 + 5 + 5 + 6) 6 5 (op ++ rs ++ rt ++ rd ++ sh ++ fn) = sh
  rw [BitVec.extractLsb'_append_eq_of_le (by decide), BitVec.extractLsb'_append_eq_of_add_le (by decide)]
  exact BitVec.extractLsb'_eq_self

@[simp] theorem functOf_rWord (op : BitVec 6) (rs : BitVec 5) (rt : BitVec 5) (rd : BitVec 5) (sh : BitVec 5) (fn : BitVec 6) :
    functOf (rWord op rs rt rd sh fn) = fn := by
  show BitVec.extractLsb' (n := 6 + 5 + 5 + 5 + 5 + 6) 0 6 (op ++ rs ++ rt ++ rd ++ sh ++ fn) = fn
  rw [BitVec.extractLsb'_append_eq_of_add_le (by decide)]
  exact BitVec.extractLsb'_eq_self

@[simp] theorem opOf_iWord (op : BitVec 6) (rs : BitVec 5) (rt : BitVec 5) (imm : BitVec 16) :
    opOf (iWord op rs rt imm) = op := by
  show BitVec.extractLsb' (n := 6 + 5 + 5 + 16) 26 6 (op ++ rs ++ rt ++ imm) = op
  rw [BitVec.extractLsb'_append_eq_of_le (by decide), BitVec.extractLsb'_append_eq_of_le (by decide), BitVec.extractLsb'_append_eq_of_le (by decide)]
  exact BitVec.extractLsb'_eq_self

@[simp] theorem rsOf_iWord (op : BitVec 6) (rs : BitVec 5) (rt : BitVec 5) (imm : BitVec 16) :
    rsOf (iWord op rs rt imm) = rs := by
  show BitVec.extractLsb' (n := 6 + 5 + 5 + 16) 21 5 (op ++ rs ++ rt ++ imm) = rs
  rw [BitVec.extractLsb'_append_eq_of_le (by decide), BitVec.extractLsb'_append_eq_of_le (by decide), BitVec.extractLsb'_append_eq_of_add_le (by decide)]
  exact BitVec.extractLsb'_eq_self

@[simp] theorem rtOf_iWord (op : BitVec 6) (rs : BitVec 5) (rt : BitVec 5) (imm : BitVec 16) :
    rtOf (iWord op rs rt imm) = rt := by
  show BitVec.extractLsb' (n := 6 + 5 + 5 + 16) 16 5 (op ++ rs ++ rt ++ imm) = rt
  rw [BitVec.extractLsb'_append_eq_of_le (by decide), BitVec.extractLsb'_append_eq_of_add_le (by decide)]
  exact BitVec.extractLsb'_eq_self

@[simp] theorem immOf_iWord (op : BitVec 6) (rs : BitVec 5) (rt : BitVec 5) (imm : BitVec 16) :
    immOf (iWord op rs rt imm) = imm := by
  show BitVec.extractLsb' (n := 6 + 5 + 5 + 16) 0 16 (op ++ rs ++ rt ++ imm) = imm
  rw [BitVec.extractLsb'_append_eq_of_add_le (by decide)]
  exact BitVec.extractLsb'_eq_self

@[simp] theorem opOf_jWord (op : BitVec 6) (tg : BitVec 26) :
    opOf (jWord op tg) = op := by
  show BitVec.extractLsb' (n := 6 + 26) 26 6 (op ++ tg) = op
  rw [BitVec.extractLsb'_append_eq_of_le (by decide)]
  exact BitVec.extractLsb'_eq_self

@[simp] theorem targetOf_jWord (op : BitVec 6) (tg : BitVec 26) :
    targetOf (jWord op tg) = tg := by
  show BitVec.extractLsb' (n := 6 + 26) 0 26 (op ++ tg) = tg
  rw [BitVec.extractLsb'_append_eq_of_add_le (by decide)]
  exact BitVec.extractLsb'_eq_self

@[simp] theorem opOf_codeWord (op : BitVec 6) (code : BitVec 20) (fn : BitVec 6) :
    opOf (codeWord op code fn) = op := by
  show BitVec.extractLsb' (n := 6 + 20 + 6) 26 6 (op ++ code ++ fn) = op
  rw [BitVec.extractLsb'_append_eq_of_le (by decide), BitVec.extractLsb'_append_eq_of_le (by decide)]
  exact BitVec.extractLsb'_eq_self

@[simp] theorem codeOf_codeWord (op : BitVec 6) (code : BitVec 20) (fn : BitVec 6) :
    codeOf (codeWord op code fn) = code := by
  show BitVec.extractLsb' (n := 6 + 20 + 6) 6 20 (op ++ code ++ fn) = code
  rw [BitVec.extractLsb'_append_eq_of_le (by decide), BitVec.extractLsb'_append_eq_of_add_le (by decide)]
  exact BitVec.extractLsb'_eq_self

@[simp] theorem functOf_codeWord (op : BitVec 6) (code : BitVec 20) (fn : BitVec 6) :
    functOf (codeWord op code fn) = fn := by
  show BitVec.extractLsb' (n := 6 + 20 + 6) 0 6 (op ++ code ++ fn) = fn
  rw [BitVec.extractLsb'_append_eq_of_add_le (by decide)]
  exact BitVec.extractLsb'_eq_self

theorem condOf_rWord (op : BitVec 6) (rs rt rd sh : BitVec 5) (c : BitVec 4) :
    condOf (rWord op rs rt rd sh (0b11#2 ++ c)) = c := by
  show BitVec.extractLsb' (n := 6 + 5 + 5 + 5 + 5 + (2 + 4)) 0 4 (op ++ rs ++ rt ++ rd ++ sh ++ (0b11#2 ++ c)) = c
  rw [BitVec.extractLsb'_append_eq_of_add_le (by decide), BitVec.extractLsb'_append_eq_of_add_le (by decide)]
  exact BitVec.extractLsb'_eq_self

theorem condMarkOf_rWord (op : BitVec 6) (rs rt rd sh : BitVec 5) (c : BitVec 4) :
    condMarkOf (rWord op rs rt rd sh (0b11#2 ++ c)) = 0b11#2 := by
  show BitVec.extractLsb' (n := 6 + 5 + 5 + 5 + 5 + (2 + 4)) 4 2 (op ++ rs ++ rt ++ rd ++ sh ++ (0b11#2 ++ c)) = 0b11#2
  rw [BitVec.extractLsb'_append_eq_of_add_le (by decide), BitVec.extractLsb'_append_eq_of_le (by decide)]
  exact BitVec.extractLsb'_eq_self

/-! ## A word from its fields -/

/-- A word is the R format of its own fields. -/
theorem rWord_fields (w : Word) : rWord (opOf w) (rsOf w) (rtOf w) (rdOf w) (shamtOf w) (functOf w) = w := by
  simp only [rWord, opOf, rsOf, rtOf, rdOf, shamtOf, functOf]
  apply BitVec.eq_of_getLsbD_eq
  intro i hi
  simp only [BitVec.getLsbD_append, BitVec.getLsbD_extractLsb']
  interval_cases i <;> rfl

theorem iWord_fields (w : Word) : iWord (opOf w) (rsOf w) (rtOf w) (immOf w) = w := by
  simp only [iWord, opOf, rsOf, rtOf, immOf]
  apply BitVec.eq_of_getLsbD_eq
  intro i hi
  simp only [BitVec.getLsbD_append, BitVec.getLsbD_extractLsb']
  interval_cases i <;> rfl

theorem jWord_fields (w : Word) : jWord (opOf w) (targetOf w) = w := by
  simp only [jWord, opOf, targetOf]
  apply BitVec.eq_of_getLsbD_eq
  intro i hi
  simp only [BitVec.getLsbD_append, BitVec.getLsbD_extractLsb']
  interval_cases i <;> rfl

theorem codeWord_fields (w : Word) : codeWord (opOf w) (codeOf w) (functOf w) = w := by
  simp only [codeWord, opOf, codeOf, functOf]
  apply BitVec.eq_of_getLsbD_eq
  intro i hi
  simp only [BitVec.getLsbD_append, BitVec.getLsbD_extractLsb']
  interval_cases i <;> rfl

theorem functOf_fields (w : Word) (h : condMarkOf w = 0b11#2) : 0b11#2 ++ condOf w = functOf w := by
  rw [← h]
  simp only [condMarkOf, condOf, functOf]
  apply BitVec.eq_of_getLsbD_eq
  intro i hi
  simp only [BitVec.getLsbD_append, BitVec.getLsbD_extractLsb']
  interval_cases i <;> rfl

end Sys2Proof
end

