-- ==== Sys2Proof/Laws/Float.lean ====
section
/-! SUPPORT. The rounding of Float.lean is the rounding of rule R258: the magnitudes of a format rise with their
patterns, and `roundUnits` takes the neighbour that the mode asks for. -/

namespace Sys2Proof.Machine

/-- The value of a magnitude pattern with `fb` fraction bits, the exponent unbounded. -/
def mag (fb p : Nat) : Nat :=
  if p / 2 ^ fb = 0 then p % 2 ^ fb else (2 ^ fb + p % 2 ^ fb) * 2 ^ (p / 2 ^ fb - 1)

theorem mag_succ (fb p : Nat) : mag fb (p + 1) = mag fb p + 2 ^ (p / 2 ^ fb - 1) := by
  have hpos := Nat.two_pow_pos fb
  have hdm := Nat.div_add_mod p (2 ^ fb)
  have hlt := Nat.mod_lt p hpos
  generalize he : p / 2 ^ fb = e at *
  generalize hf : p % 2 ^ fb = f at *
  by_cases hc : f + 1 < 2 ^ fb
  · have h1 : (p + 1) / 2 ^ fb = e := by
      rw [← hdm, add_assoc, Nat.mul_add_div hpos, Nat.div_eq_of_lt hc, add_zero]
    have h2 : (p + 1) % 2 ^ fb = f + 1 := by
      rw [← hdm, add_assoc, Nat.mul_add_mod, Nat.mod_eq_of_lt hc]
    simp only [mag, h1, h2, he, hf]
    split
    · next h0 => simp [h0]
    · ring
  · have hf' : f + 1 = 2 ^ fb := by omega
    have hp1 : p + 1 = 2 ^ fb * (e + 1) := by rw [← hdm, add_assoc, hf']; ring
    have h1 : (p + 1) / 2 ^ fb = e + 1 := by rw [hp1, Nat.mul_div_cancel_left _ hpos]
    have h2 : (p + 1) % 2 ^ fb = 0 := by rw [hp1, Nat.mul_mod_right]
    simp only [mag, h1, h2, he, hf]
    rw [if_neg (by omega), add_zero, Nat.add_sub_cancel]
    split
    · next h0 => subst h0; simp only [pow_zero, mul_one, Nat.zero_sub]; omega
    · next h0 =>
      obtain ⟨k, rfl⟩ := Nat.exists_eq_succ_of_ne_zero h0
      simp only [Nat.succ_eq_add_one, Nat.add_sub_cancel]
      have : 2 ^ fb + f = 2 * 2 ^ fb - 1 := by omega
      have h3 : (2 ^ fb + f) * 2 ^ k + 2 ^ k = (2 ^ fb + (f + 1)) * 2 ^ k := by ring
      rw [h3, hf', pow_succ]; ring

theorem mag_strictMono (fb : Nat) : StrictMono (mag fb) :=
  strictMono_nat_of_lt_succ fun p => by rw [mag_succ]; exact Nat.lt_add_of_pos_right (Nat.two_pow_pos _)

theorem infBits_lt (F : Fmt) : infBits F < 2 ^ (expBits F + fracBits F) := by cases F <;> decide

/-- A magnitude's pattern unpacks to its value. -/
theorem unpack_of_lt {F : Fmt} {p : Nat} (h : p < infBits F) : unpack F p = .fin false (mag (fracBits F) p) := by
  have hpos := Nat.two_pow_pos (fracBits F)
  have h1 : p / 2 ^ (expBits F + fracBits F) = 0 := Nat.div_eq_of_lt (h.trans (infBits_lt F))
  have h2 : p / 2 ^ fracBits F < 2 ^ expBits F - 1 := (Nat.div_lt_iff_lt_mul hpos).mpr h
  have h3 : p / 2 ^ fracBits F % 2 ^ expBits F = p / 2 ^ fracBits F := Nat.mod_eq_of_lt (h2.trans_le (Nat.sub_le _ _))
  unfold unpack mag
  simp only [h1, h3, Nat.zero_mod, Nat.ne_of_lt h2, if_false]
  split <;> simp

theorem unitsOf_of_lt {F : Fmt} {p : Nat} (h : p < infBits F) : unitsOf F p = mag (fracBits F) p := by
  simp [unitsOf, unpack_of_lt h]

/-- A magnitude with a sign unpacks to its value with that sign. -/
theorem unpack_withSign {F : Fmt} {p : Nat} (neg : Bool) (h : p < infBits F) :
    unpack F (withSign F neg p) = .fin neg (mag (fracBits F) p) := by
  cases neg
  · exact unpack_of_lt h
  · have hb := h.trans (infBits_lt F)
    have hpos := Nat.two_pow_pos (expBits F + fracBits F)
    have h1 : (2 ^ (expBits F + fracBits F) + p) / 2 ^ (expBits F + fracBits F) = 1 := by
      rw [Nat.add_div_left _ hpos, Nat.div_eq_of_lt hb]
    have h2 : (2 ^ (expBits F + fracBits F) + p) / 2 ^ fracBits F % 2 ^ expBits F = p / 2 ^ fracBits F % 2 ^ expBits F := by
      rw [pow_add, mul_comm, Nat.mul_add_div (Nat.two_pow_pos _), Nat.add_mod_left]
    have h3 : (2 ^ (expBits F + fracBits F) + p) % 2 ^ fracBits F = p % 2 ^ fracBits F := by
      rw [pow_add, mul_comm, Nat.mul_add_mod]
    have := unpack_of_lt h
    unfold unpack at this ⊢
    simp only [withSign, if_true, h1, h2, h3] at *
    split at this
    · split at this <;> simp at this
    · next he =>
      rw [if_neg he]
      split at this
      · next h0 => simp only [h0, if_true] at *; simpa using (FloatVal.fin.inj this).2
      · next h0 => simp only [h0, if_false] at *; simpa using (FloatVal.fin.inj this).2

theorem unpack_withSign_inf (F : Fmt) (neg : Bool) : unpack F (withSign F neg (infBits F)) = .inf neg := by
  cases F <;> cases neg <;> decide

/-! ## Rounding -/

/-- The floor: the pattern below the exact value and the value of its two neighbours. -/
theorem floor_spec (fb num den : Nat) :
    let j := Nat.log2 (num / den) - fb
    let q := num / (den * 2 ^ j)
    mag fb (j * 2 ^ fb + q) = q * 2 ^ j ∧ mag fb (j * 2 ^ fb + q + 1) = (q + 1) * 2 ^ j := by
  intro j q
  have hpos := Nat.two_pow_pos fb
  have hq : q = num / den / 2 ^ j := Nat.div_div_eq_div_mul .. |>.symm
  have hlt : q < 2 ^ (fb + 1) := by
    rw [hq, Nat.div_lt_iff_lt_mul (Nat.two_pow_pos _), ← pow_add]
    rcases Nat.eq_zero_or_pos (num / den) with h0 | h0
    · rw [h0]; exact Nat.two_pow_pos _
    · exact (Nat.log2_lt (by omega)).mp (by omega)
  have hge : 0 < j → 2 ^ fb ≤ q := fun hj => by
    have h0 : num / den ≠ 0 := by
      intro h; simp only [j, h] at hj; simp at hj
    have := (Nat.le_log2 h0).mp (Nat.le_refl _)
    rw [hq, Nat.le_div_iff_mul_le (Nat.two_pow_pos _), ← pow_add]
    refine (Nat.pow_le_pow_right (by omega) ?_).trans this
    omega
  have hdiv : (j * 2 ^ fb + q) / 2 ^ fb = j + q / 2 ^ fb := by
    rw [mul_comm, Nat.mul_add_div hpos]
  have hmod : (j * 2 ^ fb + q) % 2 ^ fb = q % 2 ^ fb := by rw [mul_comm, Nat.mul_add_mod]
  have hq2 : q / 2 ^ fb < 2 := by
    rw [Nat.div_lt_iff_lt_mul hpos]; rw [pow_succ] at hlt; omega
  have hdm := Nat.div_add_mod q (2 ^ fb)
  have hcase : q / 2 ^ fb = 0 ∨ q / 2 ^ fb = 1 := Nat.le_one_iff_eq_zero_or_eq_one.mp (Nat.lt_succ_iff.mp hq2)
  have hfloor : mag fb (j * 2 ^ fb + q) = q * 2 ^ j := by
    simp only [mag, hdiv, hmod]
    rcases Nat.eq_zero_or_pos j with h0 | h0
    · rw [h0]
      rcases hcase with h | h
      · rw [h] at hdm ⊢; simpa using hdm
      · rw [h] at hdm ⊢; simpa using hdm
    · have : q / 2 ^ fb = 1 := hcase.resolve_left
        (Nat.pos_iff_ne_zero.mp ((Nat.one_le_div_iff hpos).mpr (hge h0)))
      rw [if_neg (by omega), this]
      rw [this] at hdm
      simp only [mul_one] at hdm
      rw [hdm, Nat.add_sub_cancel]
  refine ⟨hfloor, ?_⟩
  rw [mag_succ, hfloor, hdiv]
  have : j + q / 2 ^ fb - 1 = j := by
    rcases Nat.eq_zero_or_pos j with h0 | h0
    · rcases hcase with h | h <;> rw [h] <;> omega
    · rw [hcase.resolve_left (Nat.pos_iff_ne_zero.mp ((Nat.one_le_div_iff hpos).mpr (hge h0)))]; omega
  rw [this]; ring

theorem mag_infBits (F : Fmt) : mag (fracBits F) (infBits F) = 2 ^ fracBits F * 2 ^ (2 ^ expBits F - 2) := by
  have hpos := Nat.two_pow_pos (fracBits F)
  have h1 : infBits F / 2 ^ fracBits F = 2 ^ expBits F - 1 := by
    rw [infBits, Nat.mul_div_cancel _ hpos]
  have h2 : infBits F % 2 ^ fracBits F = 0 := by rw [infBits, Nat.mul_mod_left]
  rw [mag, h1, h2, if_neg (by cases F <;> decide), add_zero, Nat.sub_sub]

/-- Half way between the greatest magnitude and infinity. -/
theorem half_way (F : Fmt) : 2 * ((2 ^ (fracBits F + 2) - 1) * 2 ^ (2 ^ expBits F - 4)) =
    mag (fracBits F) (infBits F - 1) + mag (fracBits F) (infBits F) := by
  have h1 : infBits F = infBits F - 1 + 1 := by cases F <;> decide
  have h2 : (infBits F - 1) / 2 ^ fracBits F = 2 ^ expBits F - 2 := by cases F <;> decide
  have h3 := mag_succ (fracBits F) (infBits F - 1)
  rw [← h1, h2, mag_infBits] at h3
  rw [mag_infBits]
  obtain ⟨k, hk⟩ : ∃ k, 2 ^ expBits F = k + 4 := ⟨2 ^ expBits F - 4, by cases F <;> decide⟩
  rw [hk] at h3 ⊢
  simp only [Nat.add_sub_cancel, show k + 4 - 2 = k + 2 by omega, show k + 2 - 1 = k + 1 by omega] at h3 ⊢
  have hp : 0 < 2 ^ (fracBits F + 2) := Nat.two_pow_pos _
  have e1 : (2 ^ (fracBits F + 2) - 1) * 2 ^ k = 2 ^ (fracBits F + 2) * 2 ^ k - 2 ^ k := by
    rw [Nat.sub_mul, one_mul]
  have e2 : 2 ^ fracBits F * 2 ^ (k + 2) = 2 ^ (fracBits F + 2) * 2 ^ k := by ring
  have e3 : (2 : Nat) ^ (k + 1) = 2 * 2 ^ k := by ring
  have : 2 ^ k ≤ 2 ^ (fracBits F + 2) * 2 ^ k := Nat.le_mul_of_pos_left _ hp
  rw [e1]; omega

section Rounding

variable {F : Fmt} {neg : Bool} {num den P : Nat}

/-- Between two neighbouring patterns, a magnitude is at most the lower or at least the upper one. -/
theorem mag_le_or_ge (fb P q : Nat) : (q ≤ P ∧ mag fb q ≤ mag fb P) ∨ (P + 1 ≤ q ∧ mag fb (P + 1) ≤ mag fb q) := by
  rcases Nat.lt_or_ge P q with h | h
  · exact .inr ⟨h, (mag_strictMono fb).monotone h⟩
  · exact .inl ⟨h, (mag_strictMono fb).monotone h⟩

theorem roundedIn_of_floor (hlo : mag (fracBits F) P * den ≤ num) (hhi : num < mag (fracBits F) (P + 1) * den) :
    RoundedIn F neg num den (withSign F neg (if P < infBits F then P else infBits F - 1)) := by
  have hinf : 0 < infBits F := by cases F <;> decide
  refine ⟨_, ?_, rfl, ?_, fun q hq hqn => ?_⟩
  · split <;> omega
  · rw [unitsOf_of_lt (by split <;> omega)]
    refine (Nat.mul_le_mul_right den ((mag_strictMono _).monotone ?_)).trans hlo
    split <;> omega
  · rw [unitsOf_of_lt hq] at hqn
    rcases mag_le_or_ge (fracBits F) P q with ⟨h, -⟩ | ⟨h, h'⟩
    · split <;> omega
    · have := Nat.mul_le_mul_right den h'
      omega

theorem roundedOut_of_ceil {N : Nat} (hhi : num ≤ mag (fracBits F) N * den)
    (hlo : ∀ q < N, mag (fracBits F) q * den < num) :
    RoundedOut F neg num den (withSign F neg (if N < infBits F then N else infBits F)) := by
  by_cases h : N < infBits F
  · rw [if_pos h]
    refine .inl ⟨N, h, rfl, by rwa [unitsOf_of_lt h], fun q hq hqn => ?_⟩
    rw [unitsOf_of_lt hq] at hqn
    by_contra hc
    have := hlo q (by omega)
    omega
  · rw [if_neg h]
    refine .inr ⟨fun q hq => ?_, rfl⟩
    rw [unitsOf_of_lt hq]
    exact hlo q (by omega)

theorem roundedNear_of_floor {r D : Nat} (hlo : mag (fracBits F) P * den + r = num)
    (hhi : mag (fracBits F) (P + 1) * den = mag (fracBits F) P * den + D) (hr : r < D) (hd : 0 < den) {up : Prop}
    [Decidable up] (hup : up ↔ D < 2 * r ∨ (2 * r = D ∧ P % 2 = 1)) :
    RoundedNear F neg num den
      (withSign F neg (if (if up then P + 1 else P) < infBits F then (if up then P + 1 else P) else infBits F)) := by
  have hodd : infBits F % 2 = 0 := by cases F <;> decide
  have hinf : 0 < infBits F := by cases F <;> decide
  have hw := half_way F
  have hmono := mag_strictMono (fracBits F)
  have hthr : (2 ^ (fracBits F + 2) - 1) * 2 ^ (2 ^ expBits F - 4) * den ≤ num ↔
      infBits F ≤ (if up then P + 1 else P) := by
    have h2 : (2 ^ (fracBits F + 2) - 1) * 2 ^ (2 ^ expBits F - 4) * den ≤ num ↔
        mag (fracBits F) (infBits F - 1) * den + mag (fracBits F) (infBits F) * den ≤ 2 * num := by
      rw [← Nat.add_mul, ← hw, Nat.mul_assoc 2 _ den]; omega
    rw [h2]
    rcases Nat.lt_trichotomy P (infBits F - 1) with h | h | h
    · have e1 := Nat.mul_le_mul_right den (hmono.monotone (show P + 1 ≤ infBits F - 1 by omega))
      have e2 := Nat.mul_lt_mul_of_pos_right (hmono (show P + 1 < infBits F by omega)) hd
      have : ¬ infBits F ≤ (if up then P + 1 else P) := by split <;> omega
      simp only [this, iff_false]
      omega
    · have e : P + 1 = infBits F := by omega
      rw [e] at hhi
      rw [← h]
      have hP : P % 2 = 1 := by omega
      rw [hP] at hup
      simp only [and_true] at hup
      by_cases hu : up
      · rw [if_pos hu]; have := hup.mp hu; omega
      · rw [if_neg hu]; have := mt hup.mpr hu; omega
    · have e1 := Nat.mul_le_mul_right den (hmono.monotone (show infBits F ≤ P by omega))
      have e2 := Nat.mul_le_mul_right den (hmono.monotone (show infBits F - 1 ≤ P by omega))
      have : infBits F ≤ (if up then P + 1 else P) := by split <;> omega
      simp only [this, iff_true]
      omega
  unfold RoundedNear
  by_cases ht : (2 ^ (fracBits F + 2) - 1) * 2 ^ (2 ^ expBits F - 4) * den ≤ num
  · rw [if_pos ht, if_neg (by have := hthr.mp ht; omega)]
  · have hN : (if up then P + 1 else P) < infBits F := by have := mt hthr.mpr ht; omega
    rw [if_neg ht, if_pos hN]
    refine ⟨_, hN, rfl, fun q hq => ?_⟩
    have dq : distance F num den q = ((mag (fracBits F) q * den : Int) - num).natAbs := by
      rw [distance, unitsOf_of_lt hq]
    have dN : distance F num den (if up then P + 1 else P) =
        ((mag (fracBits F) (if up then P + 1 else P) * den : Int) - num).natAbs := by
      rw [distance, unitsOf_of_lt hN]
    have heq : ∀ x, mag (fracBits F) q * den = mag (fracBits F) x * den → q = x := fun x hx =>
      hmono.injective (Nat.eq_of_mul_eq_mul_right hd hx)
    have hq' : (q ≤ P ∧ mag (fracBits F) q * den ≤ mag (fracBits F) P * den) ∨
        (P + 1 ≤ q ∧ mag (fracBits F) (P + 1) * den ≤ mag (fracBits F) q * den) :=
      (mag_le_or_ge (fracBits F) P q).imp (And.imp_right (Nat.mul_le_mul_right den))
        (And.imp_right (Nat.mul_le_mul_right den))
    rw [dq, dN]
    have c1 : (mag (fracBits F) q * den : Int) = ((mag (fracBits F) q * den : Nat) : Int) := by push_cast; rfl
    have e0 := heq P
    have e1 := heq (P + 1)
    by_cases hu : up
    · have hu' := hup.mp hu
      simp only [if_pos hu]
      have c2 : (mag (fracBits F) (P + 1) * den : Int) = ((mag (fracBits F) (P + 1) * den : Nat) : Int) := by
        push_cast; rfl
      rw [c1, c2]
      generalize mag (fracBits F) q * den = Q at *
      generalize mag (fracBits F) (P + 1) * den = U at *
      generalize mag (fracBits F) P * den = L at *
      omega
    · have hu' := mt hup.mpr hu
      simp only [if_neg hu]
      have c2 : (mag (fracBits F) P * den : Int) = ((mag (fracBits F) P * den : Nat) : Int) := by
        push_cast; rfl
      rw [c1, c2]
      generalize mag (fracBits F) q * den = Q at *
      generalize mag (fracBits F) (P + 1) * den = U at *
      generalize mag (fracBits F) P * den = L at *
      omega

/-- Rule R258: `roundUnits` rounds once, in the mode given. -/
theorem roundUnits_rounded (F : Fmt) (rm : RoundMode) (neg : Bool) (num den : Nat) (hd : 0 < den) :
    Rounded F rm neg num den (roundUnits F rm neg num den) := by
  obtain ⟨hf, hc⟩ := floor_spec (fracBits F) num den
  simp only [roundUnits]
  generalize hj : Nat.log2 (num / den) - fracBits F = j at *
  have hD : 0 < den * 2 ^ j := Nat.mul_pos hd (Nat.two_pow_pos _)
  have hdm := Nat.div_add_mod num (den * 2 ^ j)
  have hr := Nat.mod_lt num hD
  have heven : 2 ^ fracBits F % 2 = 0 := by cases F <;> decide
  generalize hq : num / (den * 2 ^ j) = q at *
  generalize hr' : num % (den * 2 ^ j) = r at *
  have hlo : mag (fracBits F) (j * 2 ^ fracBits F + q) * den + r = num := by rw [hf, ← hdm]; ring
  have hhi : mag (fracBits F) (j * 2 ^ fracBits F + q + 1) * den =
      mag (fracBits F) (j * 2 ^ fracBits F + q) * den + den * 2 ^ j := by rw [hc, hf]; ring
  have hpar : (j * 2 ^ fracBits F + q) % 2 = q % 2 := by
    rw [Nat.add_mod, Nat.mul_mod, heven]; simp
  have hin : RoundedIn F neg num den (withSign F neg
      (if j * 2 ^ fracBits F + q < infBits F then j * 2 ^ fracBits F + q else infBits F - 1)) :=
    roundedIn_of_floor (by omega) (by omega)
  have hout : RoundedOut F neg num den (withSign F neg
      (if j * 2 ^ fracBits F + (if r ≠ 0 then q + 1 else q) < infBits F
        then j * 2 ^ fracBits F + (if r ≠ 0 then q + 1 else q) else infBits F)) := by
    have hmono := mag_strictMono (fracBits F)
    by_cases h0 : r = 0
    · simp only [h0, ne_eq, not_true, if_false]
      refine roundedOut_of_ceil (by omega) fun p hp => ?_
      have := Nat.mul_lt_mul_of_pos_right (hmono hp) hd
      omega
    · simp only [h0, ne_eq, not_false_iff, if_true]
      refine roundedOut_of_ceil (by rw [← Nat.add_assoc, hhi]; omega) fun p hp => ?_
      have := Nat.mul_le_mul_right den (hmono.monotone (show p ≤ j * 2 ^ fracBits F + q by omega))
      omega
  cases rm with
  | towardZero =>
    simp only [Rounded, roundQuot, overflowBits, hq, Bool.false_eq_true, if_false]
    exact hin
  | towardPlus =>
    cases neg
    · simp only [Rounded, roundQuot, overflowBits, hq, hr', Bool.not_false, Bool.and_true, Bool.false_eq_true, if_false,
        decide_eq_true_eq]
      exact hout
    · simp only [Rounded, roundQuot, overflowBits, hq, hr', Bool.not_true, Bool.and_false, Bool.false_eq_true, if_false,
        if_true]
      exact hin
  | towardMinus =>
    cases neg
    · simp only [Rounded, roundQuot, overflowBits, hq, hr', Bool.and_false, Bool.false_eq_true, if_false]
      exact hin
    · simp only [Rounded, roundQuot, overflowBits, hq, hr', Bool.and_true, if_true, decide_eq_true_eq]
      exact hout
  | nearestEven =>
    have := roundedNear_of_floor (F := F) (neg := neg) hlo hhi hr hd
      (up := den * 2 ^ j < 2 * r ∨ (2 * r = den * 2 ^ j ∧ q % 2 = 1)) (by rw [hpar])
    simp only [Rounded, roundQuot, overflowBits, hq, hr', Bool.or_eq_true, Bool.and_eq_true, decide_eq_true_eq]
    convert this using 2
    split <;> simp [*, Nat.add_assoc]

end Rounding

/-! ## Patterns of a format -/

/-- The number of patterns of a format. -/
def patterns (F : Fmt) : Nat := 2 ^ (expBits F + fracBits F + 1)

theorem withSign_lt {F : Fmt} {neg : Bool} {m : Nat} (h : m < 2 ^ (expBits F + fracBits F)) :
    withSign F neg m < patterns F := by
  unfold withSign patterns
  rw [pow_succ]
  split <;> omega

theorem overflowBits_le (F : Fmt) (rm : RoundMode) (neg : Bool) : overflowBits F rm neg ≤ infBits F := by
  cases rm <;> cases neg <;> simp [overflowBits]

theorem roundUnits_lt (F : Fmt) (rm : RoundMode) (neg : Bool) (num den : Nat) :
    roundUnits F rm neg num den < patterns F := by
  have := infBits_lt F
  have := overflowBits_le F rm neg
  refine withSign_lt ?_
  split <;> omega

/-- Exactly zero stays zero, with its sign. -/
theorem roundUnits_zero (F : Fmt) (rm : RoundMode) (neg : Bool) (den : Nat) :
    roundUnits F rm neg 0 den = withSign F neg 0 := by
  have hinf : 0 < infBits F := by cases F <;> decide
  have hl : Nat.log2 0 = 0 := by decide
  have hq : ∀ d, roundQuot rm neg 0 d = 0 ∨ d = 0 := fun d => by
    rcases Nat.eq_zero_or_pos d with h | h
    · exact .inr h
    · left
      cases rm <;> cases neg <;> simp [roundQuot]
  simp only [roundUnits, Nat.zero_div, hl, Nat.zero_sub, Nat.zero_mul, Nat.zero_add, pow_zero, Nat.mul_one]
  rcases hq den with h | h
  · rw [h, if_pos hinf]
  · subst h
    have h0 : roundQuot rm neg 0 0 < infBits F ∧ roundQuot rm neg 0 0 = 0 := by
      cases rm <;> cases neg <;> simp [roundQuot, hinf]
    rw [if_pos h0.1, h0.2]

theorem nanBits_nan (F : Fmt) (raw : Nat) : unpack F (nanBits F raw) = .nan ∧ nanBits F raw < patterns F := by
  have hpos := Nat.two_pow_pos (fracBits F)
  have hone : 1 < 2 ^ fracBits F := by cases F <;> decide
  generalize hf : (if raw % 2 ^ fracBits F = 0 then 1 else raw % 2 ^ fracBits F) = f
  have hf1 : 0 < f ∧ f < 2 ^ fracBits F := by
    have := Nat.mod_lt raw hpos
    rw [← hf]; split <;> omega
  have he : infBits F + f < 2 ^ (expBits F + fracBits F) := by
    have h2 : 2 ^ (expBits F + fracBits F) = infBits F + 2 ^ fracBits F := by cases F <;> decide
    omega
  have hdiv : (infBits F + f) / 2 ^ fracBits F = 2 ^ expBits F - 1 := by
    rw [infBits, mul_comm, Nat.mul_add_div hpos, Nat.div_eq_of_lt hf1.2, add_zero]
  have hmod : (infBits F + f) % 2 ^ fracBits F = f := by
    rw [infBits, mul_comm, Nat.mul_add_mod, Nat.mod_eq_of_lt hf1.2]
  have hall : ∀ neg, unpack F (withSign F neg (infBits F + f)) = .nan := fun neg => by
    have h2 : withSign F neg (infBits F + f) / 2 ^ fracBits F % 2 ^ expBits F = 2 ^ expBits F - 1 := by
      cases neg
      · simp only [withSign, Bool.false_eq_true, if_false, hdiv]
        exact Nat.mod_eq_of_lt (by have := Nat.two_pow_pos (expBits F); omega)
      · simp only [withSign, if_true]
        rw [pow_add, mul_comm, Nat.mul_add_div hpos, Nat.add_mod_left, hdiv]
        exact Nat.mod_eq_of_lt (by have := Nat.two_pow_pos (expBits F); omega)
    have h3 : withSign F neg (infBits F + f) % 2 ^ fracBits F = f := by
      cases neg
      · simp only [withSign, Bool.false_eq_true, if_false, hmod]
      · simp only [withSign, if_true]
        rw [pow_add, mul_comm, Nat.mul_add_mod, hmod]
    unfold unpack
    simp only [h2, h3, if_true]
    rw [if_neg (by omega)]
  unfold nanBits
  simp only [hf]
  exact ⟨hall _, withSign_lt he⟩

theorem fpNan_nan (F : Fmt) (op : FpOp) (a b : Nat) :
    unpack F (fpNan F op a b) = .nan ∧ fpNan F op a b < patterns F := nanBits_nan F _

/-! ## The operations -/

theorem addVals_none {F : Fmt} {rm : RoundMode} {x y : FloatVal} {v : Nat} (h : addVals F rm x y = none)
    (hv : unpack F v = .nan) : SumIs F rm x y v := by
  cases x <;> cases y <;> simp_all [addVals, SumIs]

theorem addVals_some {F : Fmt} {rm : RoundMode} {x y : FloatVal} {v : Nat} (h : addVals F rm x y = some v) :
    SumIs F rm x y v ∧ v < patterns F := by
  have hi := infBits_lt F
  have hinf : 0 < infBits F := by cases F <;> decide
  cases x with
  | nan => simp [addVals] at h
  | inf p =>
    cases y with
    | nan => simp [addVals] at h
    | inf q =>
      simp only [addVals] at h
      split at h
      · next hpq =>
        simp only [Option.some.injEq] at h; subst h
        exact ⟨by simp [SumIs, hpq, unpack_withSign_inf], withSign_lt hi⟩
      · simp at h
    | fin q b =>
      simp only [addVals, Option.some.injEq] at h; subst h
      exact ⟨unpack_withSign_inf F p, withSign_lt hi⟩
  | fin p a =>
    cases y with
    | nan => simp [addVals] at h
    | inf q =>
      simp only [addVals, Option.some.injEq] at h; subst h
      exact ⟨unpack_withSign_inf F q, withSign_lt hi⟩
    | fin q b =>
      simp only [addVals, Option.some.injEq] at h; subst h
      refine ⟨⟨fun he => ?_, fun he => ?_, fun he => ?_⟩, roundUnits_lt ..⟩
      · rw [if_neg (by omega), decide_eq_false (by omega)]
        exact roundUnits_rounded F rm false _ 1 (by omega)
      · rw [if_neg (by omega), decide_eq_true he]
        exact roundUnits_rounded F rm true _ 1 (by omega)
      · rw [if_pos he, he, Int.natAbs_zero, roundUnits_zero, unpack_withSign _ hinf]
        have : mag (fracBits F) 0 = 0 := by simp [mag]
        rw [this, zeroSumNeg]
        cases rm <;> rfl

theorem fpAdd_sumIs (F : Fmt) (rm : RoundMode) (a b : Nat) :
    SumIs F rm (unpack F a) (unpack F b) (fpAdd F rm a b) ∧ fpAdd F rm a b < patterns F := by
  unfold fpAdd
  rcases h : addVals F rm (unpack F a) (unpack F b) with _ | v
  · exact ⟨addVals_none h (fpNan_nan ..).1, (fpNan_nan ..).2⟩
  · exact addVals_some h

theorem fpSub_sumIs (F : Fmt) (rm : RoundMode) (a b : Nat) :
    SumIs F rm (unpack F a) (unpack F b).negate (fpSub F rm a b) ∧ fpSub F rm a b < patterns F := by
  unfold fpSub
  rcases h : addVals F rm (unpack F a) (unpack F b).negate with _ | v
  · exact ⟨addVals_none h (fpNan_nan ..).1, (fpNan_nan ..).2⟩
  · exact addVals_some h

theorem mag_zero (fb : Nat) : mag fb 0 = 0 := by simp [mag]

theorem roundUnits_unpack_zero (F : Fmt) (rm : RoundMode) (neg : Bool) (den : Nat) :
    unpack F (roundUnits F rm neg 0 den) = .fin neg 0 := by
  rw [roundUnits_zero, unpack_withSign _ (by cases F <;> decide), mag_zero]

theorem fpMul_productIs (F : Fmt) (rm : RoundMode) (a b : Nat) :
    ProductIs F rm (unpack F a) (unpack F b) (fpMul F rm a b) ∧ fpMul F rm a b < patterns F := by
  have hi := infBits_lt F
  have hnan := fpNan_nan F .mul a b
  unfold fpMul
  cases unpack F a with
  | nan => exact hnan
  | inf p =>
    cases unpack F b with
    | nan => exact hnan
    | inf q => exact ⟨unpack_withSign_inf F _, withSign_lt hi⟩
    | fin q b =>
      simp only [mulVals, ProductIs]
      split
      · exact hnan
      · exact ⟨unpack_withSign_inf F _, withSign_lt hi⟩
  | fin p a =>
    cases unpack F b with
    | nan => exact hnan
    | inf q =>
      simp only [mulVals, ProductIs]
      split
      · exact hnan
      · exact ⟨unpack_withSign_inf F _, withSign_lt hi⟩
    | fin q b =>
      refine ⟨?_, roundUnits_lt ..⟩
      simp only [mulVals, ProductIs, Option.getD_some]
      split
      · next h0 =>
        rw [show a * b = 0 by rcases h0 with h | h <;> simp [h]]
        exact roundUnits_unpack_zero ..
      · exact roundUnits_rounded F rm _ _ _ (Nat.two_pow_pos _)

theorem fpDiv_quotientIs (F : Fmt) (rm : RoundMode) (a b : Nat) :
    QuotientIs F rm (unpack F a) (unpack F b) (fpDiv F rm a b) ∧ fpDiv F rm a b < patterns F := by
  have hi := infBits_lt F
  have hinf : 0 < infBits F := by cases F <;> decide
  have hnan := fpNan_nan F .div a b
  unfold fpDiv
  cases unpack F a with
  | nan => exact hnan
  | inf p =>
    cases unpack F b with
    | nan => exact hnan
    | inf q => exact hnan
    | fin q b => exact ⟨unpack_withSign_inf F _, withSign_lt hi⟩
  | fin p a =>
    cases unpack F b with
    | nan => exact hnan
    | inf q =>
      refine ⟨?_, withSign_lt (hinf.trans hi)⟩
      simp only [divVals, QuotientIs, Option.getD_some, unpack_withSign _ hinf, mag_zero]
    | fin q b =>
      simp only [divVals, QuotientIs]
      by_cases hb : b = 0
      · rw [if_pos hb, if_pos hb]
        by_cases ha : a = 0
        · rw [if_pos ha, if_pos ha]; exact hnan
        · rw [if_neg ha, if_neg ha]; exact ⟨unpack_withSign_inf F _, withSign_lt hi⟩
      · rw [if_neg hb, if_neg hb]
        refine ⟨?_, roundUnits_lt ..⟩
        split
        · next ha => rw [ha, Nat.zero_mul]; exact roundUnits_unpack_zero ..
        · exact roundUnits_rounded F rm _ _ _ (by omega)

/-! ## Conversions and comparison -/

theorem intToSingle_rounded (rm : RoundMode) (v : Int) :
    Rounded .S rm (decide (v < 0)) (v.natAbs * 2 ^ unitBits .S) 1 (intToSingle rm v) ∧
      intToSingle rm v < patterns .S :=
  ⟨roundUnits_rounded .S rm _ _ 1 (by omega), roundUnits_lt ..⟩

/-- A value that needs no rounding is delivered as it is. -/
theorem roundUnits_exact (F : Fmt) (rm : RoundMode) (neg : Bool) (num den : Nat) (hd : 0 < den)
    (hdvd : den * 2 ^ (Nat.log2 (num / den) - fracBits F) ∣ num)
    (hlt : num < mag (fracBits F) (infBits F) * den) :
    ∃ units, unpack F (roundUnits F rm neg num den) = .fin neg units ∧ units * den = num := by
  obtain ⟨hf, -⟩ := floor_spec (fracBits F) num den
  simp only [roundUnits]
  generalize hj : Nat.log2 (num / den) - fracBits F = j at *
  have hD : 0 < den * 2 ^ j := Nat.mul_pos hd (Nat.two_pow_pos _)
  have hr : num % (den * 2 ^ j) = 0 := Nat.mod_eq_zero_of_dvd hdvd
  have hq : roundQuot rm neg num (den * 2 ^ j) = num / (den * 2 ^ j) := by
    cases rm <;> cases neg <;> simp [roundQuot, hr, Nat.ne_of_lt hD]
  have hval : mag (fracBits F) (j * 2 ^ fracBits F + num / (den * 2 ^ j)) * den = num := by
    rw [hf]
    calc num / (den * 2 ^ j) * 2 ^ j * den = den * 2 ^ j * (num / (den * 2 ^ j)) := by ring
      _ = num := Nat.mul_div_cancel' hdvd
  have hinf : j * 2 ^ fracBits F + num / (den * 2 ^ j) < infBits F := by
    by_contra hc
    have := Nat.mul_le_mul_right den ((mag_strictMono (fracBits F)).monotone (Nat.le_of_not_lt hc))
    omega
  rw [hq, if_pos hinf]
  exact ⟨_, unpack_withSign neg hinf, hval⟩

/-- The finite values of a format: fewer than `2 ^ (fracBits + 1)` steps of a power of two. -/
theorem unpack_fin {F : Fmt} {x units : Nat} {neg : Bool} (h : unpack F x = .fin neg units) :
    ∃ m e, units = m * 2 ^ e ∧ m < 2 ^ (fracBits F + 1) ∧ e < 2 ^ expBits F - 2 := by
  have hpos := Nat.two_pow_pos (fracBits F)
  have hE : 2 < 2 ^ expBits F := by cases F <;> decide
  unfold unpack at h
  simp only at h
  split at h
  · split at h <;> simp at h
  · next h1 =>
    have hlt := Nat.mod_lt x hpos
    have he := Nat.mod_lt (x / 2 ^ fracBits F) (Nat.two_pow_pos (expBits F))
    rw [pow_succ]
    split at h
    · obtain ⟨-, rfl⟩ := FloatVal.fin.inj h
      exact ⟨x % 2 ^ fracBits F, 0, by simp, by omega, by omega⟩
    · next h2 =>
      obtain ⟨-, rfl⟩ := FloatVal.fin.inj h
      exact ⟨2 ^ fracBits F + x % 2 ^ fracBits F, _, rfl, by omega, by omega⟩

/-- Rule R276: a binary32 value is a binary64 value. -/
theorem convert_S_D {rm : RoundMode} {x units : Nat} {neg : Bool} (h : unpack .S x = .fin neg units) :
    ∃ w, unpack .D (convert .S .D rm x) = .fin neg w ∧ w * 2 ^ unitBits .S = units * 2 ^ unitBits .D := by
  obtain ⟨m, e, rfl, hm, he⟩ := unpack_fin h
  simp only [convert, h]
  refine roundUnits_exact .D rm neg _ _ (Nat.two_pow_pos _) ?_ ?_
  · obtain ⟨k, hk, hu⟩ : ∃ k, k = 925 ∧ unitBits .D = unitBits .S + k := ⟨925, rfl, by decide⟩
    have hN : m * 2 ^ e * 2 ^ unitBits .D / 2 ^ unitBits .S = m * 2 ^ (e + k) := by
      rw [hu, pow_add, mul_comm (2 ^ unitBits .S), ← mul_assoc, Nat.mul_div_cancel _ (Nat.two_pow_pos _), pow_add]
      ring
    rw [hN, hu, show m * 2 ^ e * 2 ^ (unitBits .S + k) = 2 ^ unitBits .S * (m * 2 ^ (e + k)) by
      rw [pow_add, pow_add]; ring]
    refine Nat.mul_dvd_mul_left _ ?_
    refine (pow_dvd_pow 2 ?_).trans (Nat.dvd_mul_left _ _)
    rcases Nat.eq_zero_or_pos m with rfl | hm0
    · simp
    · have : Nat.log2 (m * 2 ^ (e + k)) < 24 + (e + k) := by
        rw [Nat.log2_lt (Nat.ne_of_gt (Nat.mul_pos hm0 (Nat.two_pow_pos _)))]
        exact (Nat.mul_lt_mul_of_pos_right hm (Nat.two_pow_pos (e + k))).trans_eq (pow_add 2 24 (e + k)).symm
      have : fracBits .D = 52 := rfl
      omega
  · rw [mag_infBits]
    have hm' : m < 2 ^ 24 := hm
    have he' : e ≤ 253 := by have : 2 ^ expBits .S - 2 = 254 := rfl; omega
    calc m * 2 ^ e * 2 ^ unitBits .D < 2 ^ 24 * 2 ^ 253 * 2 ^ unitBits .D := by
          refine Nat.mul_lt_mul_of_pos_right ?_ (Nat.two_pow_pos _)
          exact Nat.mul_lt_mul_of_lt_of_le hm' (Nat.pow_le_pow_right (by omega) he') (Nat.two_pow_pos _)
      _ = 2 ^ (277 + unitBits .D) := by rw [← pow_add, ← pow_add]
      _ ≤ 2 ^ (fracBits .D + (2 ^ expBits .D - 2) + unitBits .S) := Nat.pow_le_pow_right (by omega) (by decide)
      _ = 2 ^ fracBits .D * 2 ^ (2 ^ expBits .D - 2) * 2 ^ unitBits .S := by rw [pow_add, pow_add]

theorem convert_lt (F G : Fmt) (rm : RoundMode) (x : Nat) : convert F G rm x < patterns G := by
  unfold convert
  split
  · exact (fpNan_nan ..).2
  · exact withSign_lt (infBits_lt G)
  · exact roundUnits_lt ..

theorem roundQuot_roundedInt (rm : RoundMode) (neg : Bool) (num den : Nat) (hd : 0 < den) :
    RoundedInt rm (signedUnits neg num) den (signedUnits neg (roundQuot rm neg num den)) := by
  have hdm := Nat.div_add_mod num den
  have hr := Nat.mod_lt num hd
  generalize hq : num / den = q at *
  generalize hr' : num % den = r at *
  have hz : (num : Int) = q * den + r := by rw [← hdm]; push_cast; ring
  have hrz : (r : Int) < den := by exact_mod_cast hr
  cases rm with
  | towardZero =>
    have ht : (num : Int).tdiv den = q := by rw [← hq]; exact (Int.ofNat_tdiv num den).symm
    cases neg <;> simp [RoundedInt, roundQuot, signedUnits, hq, Int.neg_tdiv, ht]
  | towardPlus =>
    cases neg
    · simp only [RoundedInt, roundQuot, signedUnits, hq, hr', Bool.not_false, Bool.and_true, Bool.false_eq_true, if_false,
        decide_eq_true_eq]
      split
      · push_cast; rw [hz]; constructor <;> nlinarith [show (0 : Int) < r by omega]
      · rw [hz]; constructor <;> nlinarith [show (r : Int) = 0 by omega]
    · simp only [RoundedInt, roundQuot, signedUnits, hq, Bool.not_true, Bool.and_false, Bool.false_eq_true, if_false, if_true]
      rw [hz]; constructor <;> nlinarith
  | towardMinus =>
    cases neg
    · simp only [RoundedInt, roundQuot, signedUnits, hq, Bool.and_false, Bool.false_eq_true, if_false]
      rw [hz]; constructor <;> nlinarith
    · simp only [RoundedInt, roundQuot, signedUnits, hq, hr', Bool.and_true, if_true, decide_eq_true_eq]
      split
      · push_cast; rw [hz]; constructor <;> nlinarith [show (0 : Int) < r by omega]
      · rw [hz]; constructor <;> nlinarith [show (r : Int) = 0 by omega]
  | nearestEven =>
    have key : ∀ k : Nat, ((signedUnits neg k : Int) * den - signedUnits neg num).natAbs =
        ((k : Int) * den - num).natAbs := fun k => by
      cases neg
      · rfl
      · simp only [signedUnits, if_true]
        rw [show (-(k : Int)) * den - -(num : Int) = -((k : Int) * den - num) by ring, Int.natAbs_neg]
    have hpar : ∀ k : Nat, (signedUnits neg k) % 2 = 0 ↔ k % 2 = 0 := fun k => by
      cases neg <;> simp only [signedUnits, Bool.false_eq_true, if_false, if_true] <;> omega
    simp only [RoundedInt, key, hpar]
    simp only [roundQuot, hq, hr', Bool.or_eq_true, Bool.and_eq_true, decide_eq_true_eq]
    split
    · next h =>
      have : (((q + 1 : Nat) : Int) * den - num).natAbs = den - r := by
        rw [hz]; push_cast
        rw [show ((q : Int) + 1) * den - (q * den + r) = den - r by ring]; omega
      rw [this]
      have aux : ∀ D x k : Nat, x < D → (D < 2 * x ∨ 2 * x = D ∧ k % 2 = 1) →
          2 * (D - x) ≤ D ∧ (2 * (D - x) = D → (k + 1) % 2 = 0) := by omega
      exact aux den r q hr h
    · next h =>
      have : ((q : Int) * den - num).natAbs = r := by
        rw [hz, show (q : Int) * den - (q * den + r) = -r by ring]; omega
      rw [this]; omega

theorem toWord_is (F : Fmt) (rm : RoundMode) (x : Nat) : ToWordIs F rm (unpack F x) (toWord F rm x) := by
  unfold toWord
  cases unpack F x with
  | nan => rfl
  | inf neg => rfl
  | fin neg units =>
    refine ⟨_, roundQuot_roundedInt rm neg units _ (Nat.two_pow_pos _), fun h => ?_, fun h => ?_⟩
    · have hf : fitsWord (signedUnits neg (roundQuot rm neg units (2 ^ unitBits F))) = true := by
        simp only [fitsWord, Bool.and_eq_true, decide_eq_true_eq]; omega
      simp only [hf, if_true]
      exact BitVec.toInt_ofInt_eq_self (by omega) (by omega) (by omega)
    · have hf : ¬ fitsWord (signedUnits neg (roundQuot rm neg units (2 ^ unitBits F))) = true := by
        simp only [fitsWord, Bool.and_eq_true, decide_eq_true_eq]; omega
      simp only [hf, Bool.false_eq_true, if_false]

theorem conditionHolds_iff (cond : BitVec 4) (x y : FloatVal) :
    conditionHolds cond (relate x y) = true ↔ ConditionTrue cond x y := by
  rcases x with _ | p | ⟨p, a⟩ <;> rcases y with _ | q | ⟨q, b⟩
  case fin.fin =>
    simp only [relate, ConditionTrue, FloatVal.rank, WithBot.coe_lt_coe, WithTop.coe_lt_coe, WithBot.coe_inj,
      WithTop.coe_inj]
    rcases lt_trichotomy (signedUnits p a) (signedUnits q b) with h | h | h
    · simp [h, conditionHolds, ne_of_lt h]
    · simp [h, conditionHolds]
    · simp [conditionHolds, not_lt_of_gt h, (ne_of_lt h).symm]
  case fin.inf =>
    cases q
    · have h : ((signedUnits p a : WithTop Int) : WithBot (WithTop Int)) < ((⊤ : WithTop Int) : WithBot (WithTop Int)) :=
        WithBot.coe_lt_coe.mpr (WithTop.coe_lt_top _)
      simp only [ConditionTrue, FloatVal.rank, h, h.ne, and_true, and_false, or_false]
      simp [relate, conditionHolds]
    · simp [relate, conditionHolds, ConditionTrue, FloatVal.rank]
  all_goals
    first
    | (cases p <;> cases q <;> simp [relate, conditionHolds, ConditionTrue, FloatVal.rank])
    | (cases p <;> simp [relate, conditionHolds, ConditionTrue, FloatVal.rank])
    | (cases q <;> simp [relate, conditionHolds, ConditionTrue, FloatVal.rank])
    | simp [relate, conditionHolds, ConditionTrue, FloatVal.rank]

end Sys2Proof.Machine
end

