-- ==== Sys2Proof/Laws/StopRequest.lean ====
section
/-! SUPPORT. A step of the core neither reads nor writes STOP_REQ (rules R366, R367): every operation gives the same from
a state with STOP_REQ set otherwise, apart from STOP_REQ. -/

namespace Sys2Proof.Machine

/-- The state with STOP_REQ as given. -/
def State.withStop (s : State) (b : Bool) : State := { s with stopReq := b }

/-- Go on with the states changed. -/
def Access.mapState {α : Type} (f : State → State) : Access α → Access α
  | .done v s => .done v (f s)
  | .raised s => .raised (f s)

/-- End with the next state changed. -/
def mapNext (f : State → State) : Result → Result
  | .next s => .next (f s)
  | .fault r => .fault r
  | .refused r => .refused r

variable {α β : Type} (s : State) (b : Bool)

/-! ## Reads of the state -/

@[simp] theorem State.withStop_stopReq : (s.withStop b).stopReq = b := rfl
@[simp] theorem State.gpr_withStop (r : Reg) : (s.withStop b).gpr r = s.gpr r := rfl
@[simp] theorem State.fpr_withStop (r : FReg) : (s.withStop b).fpr r = s.fpr r := rfl
@[simp] theorem State.fd64_withStop (r : FReg) : (s.withStop b).fd64 r = s.fd64 r := rfl
@[simp] theorem State.byteAt_withStop (a : Word) : (s.withStop b).byteAt a = s.byteAt a := rfl
@[simp] theorem State.wordAt_withStop (a : Word) : (s.withStop b).wordAt a = s.wordAt a := rfl
@[simp] theorem State.effAddr_withStop (r : Reg) (o : Imm16) : (s.withStop b).effAddr r o = s.effAddr r o := rfl

/-! ## Writes of the state -/

@[simp] theorem State.setGpr_withStop (r : Reg) (v : Word) : (s.withStop b).setGpr r v = (s.setGpr r v).withStop b := by
  unfold State.setGpr; split <;> rfl
@[simp] theorem State.setFpr_withStop (r : FReg) (v : Word) : (s.withStop b).setFpr r v = (s.setFpr r v).withStop b := rfl
@[simp] theorem State.setFd64_withStop (r : FReg) (v : DWord) : (s.withStop b).setFd64 r v = (s.setFd64 r v).withStop b :=
  rfl
@[simp] theorem State.advance_withStop : (s.withStop b).advance = s.advance.withStop b := rfl
@[simp] theorem State.advanceCti_withStop (o : Option Word) : (s.withStop b).advanceCti o = (s.advanceCti o).withStop b :=
  rfl
@[simp] theorem State.raise_withStop (k : ExcKind) (p : Word) : (s.withStop b).raise k p = (s.raise k p).withStop b := rfl
@[simp] theorem State.call_withStop (c : HostCall) : (s.withStop b).call c = (s.call c).withStop b := rfl

/-! ## Sequencing -/

theorem Access.andThen_mapState {x : Access α} {k : α → State → Access β}
    (h : ∀ v s, k v (s.withStop b) = (k v s).mapState (·.withStop b)) :
    (x.mapState (·.withStop b)).andThen k = (x.andThen k).mapState (·.withStop b) := by
  cases x with
  | done v s => exact h v s
  | raised s => rfl

theorem Access.finish_mapState {x : Access α} {k : α → State → State}
    (h : ∀ v s, k v (s.withStop b) = (k v s).withStop b) :
    (x.mapState (·.withStop b)).finish k = mapNext (·.withStop b) (x.finish k) := by
  cases x with
  | done v s => exact congrArg Host.Outcome.next (h v s)
  | raised s => rfl

/-! ## Memory -/

theorem State.access_withStop (a : Word) (w : Bool) :
    (s.withStop b).access a w = (s.access a w).mapState (·.withStop b) := by
  have hm : (s.withStop b).mem.acquire (s.withStop b).params.nSlots ((s.withStop b).pageOf a) w (s.withStop b).env =
      s.mem.acquire s.params.nSlots (s.pageOf a) w s.env := rfl
  unfold State.access
  rw [hm, show (s.withStop b).memFailed = s.memFailed from rfl]
  split
  · rfl
  · rcases s.mem.acquire s.params.nSlots (s.pageOf a) w s.env with ⟨_ | m, e⟩ <;> rfl

theorem State.aligned_withStop (a : Word) (n : Nat) :
    (s.withStop b).aligned a n = (s.aligned a n).mapState (·.withStop b) := by
  unfold State.aligned; split <;> rfl

theorem State.readByte_withStop (a : Word) : (s.withStop b).readByte a = (s.readByte a).mapState (·.withStop b) := by
  simp only [State.readByte, State.access_withStop]; exact Access.andThen_mapState b fun _ _ => rfl

theorem State.readHalf_withStop (a : Word) : (s.withStop b).readHalf a = (s.readHalf a).mapState (·.withStop b) := by
  simp only [State.readHalf, State.access_withStop]; exact Access.andThen_mapState b fun _ _ => rfl

theorem State.readWord_withStop (a : Word) : (s.withStop b).readWord a = (s.readWord a).mapState (·.withStop b) := by
  simp only [State.readWord, State.access_withStop]; exact Access.andThen_mapState b fun _ _ => rfl

theorem State.readDouble_withStop (a : Word) : (s.withStop b).readDouble a = (s.readDouble a).mapState (·.withStop b) := by
  simp only [State.readDouble, State.readWord_withStop]
  refine Access.andThen_mapState b fun _ s => ?_
  rw [State.readWord_withStop]; exact Access.andThen_mapState b fun _ _ => rfl

theorem State.writeByte_withStop (a : Word) (v : Byte) :
    (s.withStop b).writeByte a v = (s.writeByte a v).mapState (·.withStop b) := by
  simp only [State.writeByte, State.access_withStop]; exact Access.andThen_mapState b fun _ _ => rfl

theorem State.writeHalf_withStop (a : Word) (v : Half) :
    (s.withStop b).writeHalf a v = (s.writeHalf a v).mapState (·.withStop b) := by
  simp only [State.writeHalf, State.access_withStop]; exact Access.andThen_mapState b fun _ _ => rfl

theorem State.writeWord_withStop (a v : Word) :
    (s.withStop b).writeWord a v = (s.writeWord a v).mapState (·.withStop b) := by
  simp only [State.writeWord, State.access_withStop]; exact Access.andThen_mapState b fun _ _ => rfl

theorem State.writeDouble_withStop (a : Word) (v : DWord) :
    (s.withStop b).writeDouble a v = (s.writeDouble a v).mapState (·.withStop b) := by
  simp only [State.writeDouble, State.writeWord_withStop]
  exact Access.andThen_mapState b fun _ s => s.writeWord_withStop b _ _

theorem State.readBytes_withStop (a : Word) (n : Nat) :
    (s.withStop b).readBytes a n = (s.readBytes a n).mapState (·.withStop b) := by
  induction n generalizing s a with
  | zero => rfl
  | succ n ih =>
    simp only [State.readBytes, State.readByte_withStop]
    refine Access.andThen_mapState b fun _ s => ?_
    rw [ih]; exact Access.andThen_mapState b fun _ _ => rfl

theorem State.putBytes_withStop (a : Word) (bs : List Byte) :
    (s.withStop b).putBytes a bs = (s.putBytes a bs).mapState (·.withStop b) := by
  induction bs generalizing s a with
  | nil => rfl
  | cons v bs ih =>
    simp only [State.putBytes, State.writeByte_withStop]
    exact Access.andThen_mapState b fun _ s => ih s (a + 1)

theorem State.cstring_withStop (a : Word) (n : Nat) :
    (s.withStop b).cstring a n = (s.cstring a n).mapState (·.withStop b) := by
  induction n generalizing s a with
  | zero => rfl
  | succ n ih =>
    simp only [State.cstring, State.readByte_withStop]
    refine Access.andThen_mapState b fun v s => ?_
    split
    · rfl
    · rw [ih]; exact Access.andThen_mapState b fun _ _ => rfl

/-! ## Shapes of instructions -/

@[simp] theorem State.put_withStop (r : Reg) (v : Word) : (s.withStop b).put r v = mapNext (·.withStop b) (s.put r v) := by
  simp [State.put, mapNext]

@[simp] theorem State.putSigned_withStop (r : Reg) (v : Int) :
    (s.withStop b).putSigned r v = mapNext (·.withStop b) (s.putSigned r v) := by
  unfold State.putSigned; split <;> simp [mapNext]

@[simp] theorem State.putQuotient_withStop (r : Reg) (d v : Word) :
    (s.withStop b).putQuotient r d v = mapNext (·.withStop b) (s.putQuotient r d v) := by
  unfold State.putQuotient; split <;> simp [mapNext]

@[simp] theorem State.putSingle_withStop (r : FReg) (v : Word) :
    (s.withStop b).putSingle r v = mapNext (·.withStop b) (s.putSingle r v) := rfl

@[simp] theorem State.putDouble_withStop (r : FReg) (v : DWord) :
    (s.withStop b).putDouble r v = mapNext (·.withStop b) (s.putDouble r v) := rfl

theorem State.whenEven_withStop (i : Instr) (rs : List FReg) {run run' : State → Result}
    (h : run' (s.withStop b) = mapNext (·.withStop b) (run s)) :
    (s.withStop b).whenEven i rs run' = mapNext (·.withStop b) (s.whenEven i rs run) := by
  unfold State.whenEven
  split
  · exact h
  · rfl

@[simp] theorem State.transfer_withStop (i : Instr) (link : Option Reg) (o : Option Word) :
    (s.withStop b).transfer i link o = mapNext (·.withStop b) (s.transfer i link o) := by
  unfold State.transfer
  rw [show (s.withStop b).ds = s.ds from rfl, show (s.withStop b).linkAddr = s.linkAddr from rfl]
  split
  · rfl
  · cases link <;> simp [mapNext]

@[simp] theorem State.branch_withStop (i : Instr) (link : Option Reg) (c : Bool) (o : Imm16) :
    (s.withStop b).branch i link c o = mapNext (·.withStop b) (s.branch i link c o) := s.transfer_withStop b i link _

theorem State.load_withStop (a : Word) (n : Nat) {read : State → Access α} {wb : α → State → State}
    (hr : ∀ s : State, read (s.withStop b) = (read s).mapState (·.withStop b))
    (hw : ∀ v (s : State), wb v (s.withStop b) = (wb v s).withStop b) :
    (s.withStop b).load a n read wb = mapNext (·.withStop b) (s.load a n read wb) := by
  unfold State.load
  rw [State.aligned_withStop, Access.andThen_mapState b fun _ s => hr s]
  exact Access.finish_mapState b fun v s => by rw [hw]; rfl

theorem State.store_withStop (a : Word) (n : Nat) {write : State → Access Unit}
    (hw : ∀ s : State, write (s.withStop b) = (write s).mapState (·.withStop b)) :
    (s.withStop b).store a n write = mapNext (·.withStop b) (s.store a n write) := by
  unfold State.store
  rw [State.aligned_withStop, Access.andThen_mapState b fun _ s => hw s]
  exact Access.finish_mapState b fun _ _ => rfl

theorem State.scSuccess_withStop (r : Reg) (a : Word) :
    (s.withStop b).scSuccess r a = mapNext (·.withStop b) (s.scSuccess r a) := by
  unfold State.scSuccess
  rw [State.gpr_withStop, State.writeWord_withStop]
  exact Access.finish_mapState b fun _ s => by rw [State.setGpr_withStop]; rfl

theorem State.scFailure_withStop (r : Reg) : (s.withStop b).scFailure r = mapNext (·.withStop b) (s.scFailure r) := by
  unfold State.scFailure
  rw [State.setGpr_withStop]; rfl

theorem execSc_withStop (rt base : Reg) (o : Imm16) :
    execSc rt base o (s.withStop b) = mapNext (·.withStop b) (execSc rt base o s) := by
  simp only [execSc, State.effAddr_withStop, State.aligned_withStop]
  rcases s.aligned (s.effAddr base o) 4 with ⟨_, u⟩ | u
  · simp only [Access.mapState, show (u.withStop b).llBit = u.llBit from rfl, show (u.withStop b).llAddr = u.llAddr from rfl]
    split
    · split
      · exact u.scSuccess_withStop b _ _
      · simp only [State.scMismatch, show (u.withStop b).env = u.env from rfl]
        cases Config.scMismatch u.env.tick
        · exact State.scFailure_withStop { u with env := { u.env with tick := u.env.tick + 1 } } b _
        · exact State.scSuccess_withStop { u with env := { u.env with tick := u.env.tick + 1 } } b _ _
    · exact u.scFailure_withStop b _
  · rfl

theorem Service.perform_withStop (v : Service) : v.perform (s.withStop b) = (v.perform s).mapState (·.withStop b) := by
  have put : ∀ (w : Word) (s : State), (Access.done () ((s.withStop b).setGpr 2 w) : Access Unit) =
      (Access.done () (s.setGpr 2 w)).mapState (·.withStop b) :=
    fun w s => congrArg (Access.done ()) (s.setGpr_withStop b 2 w)
  cases v
  case printInt | printFloat | printDouble | readFloat | readDouble | exit | fileClose => rfl
  case readInt => exact put _ { s.call .readInteger with env := s.env.drawWord.2 }
  case sbrk => exact put 0 s
  case printString =>
    simp only [Service.perform, servePrintString]
    rw [State.gpr_withStop, State.cstring_withStop]
    exact Access.andThen_mapState b fun _ _ => rfl
  case readString =>
    exact State.putBytes_withStop
      { s.call (.readString (s.gpr 5)) with env := (s.env.drawBytes (s.gpr 5).toNat).2 } b _ _
  case fileOpen =>
    simp only [Service.perform, serveFileOpen]
    rw [State.gpr_withStop, State.cstring_withStop]
    refine Access.andThen_mapState b fun name u => ?_
    rw [State.gpr_withStop, State.cstring_withStop]
    exact Access.andThen_mapState b fun flags u =>
      put _ { u.call (.openFile name flags) with env := u.env.drawWord.2 }
  case fileRead =>
    refine Eq.trans ?_ (Access.andThen_mapState b fun _ u => put (BitVec.ofNat 32 (s.env.drawBytes (s.gpr 6).toNat).1.length) u)
    rw [← State.putBytes_withStop]; rfl
  case fileWrite =>
    simp only [Service.perform, serveFileWrite]
    rw [State.gpr_withStop, State.gpr_withStop, State.readBytes_withStop]
    exact Access.andThen_mapState b fun bs u =>
      put _ { u.call (.writeFile (u.gpr 4) bs (u.gpr 6)) with env := u.env.drawWord.2 }

theorem execSyscall_withStop (code : BitVec 20) :
    execSyscall code (s.withStop b) = mapNext (·.withStop b) (execSyscall code s) := by
  unfold execSyscall
  rw [State.gpr_withStop]
  cases Service.ofNumber (s.gpr 2) with
  | none => rfl
  | some v =>
    refine (congrArg (Access.finish · _) (Service.perform_withStop { s with llBit := false } b v)).trans ?_
    exact Access.finish_mapState b fun _ _ => rfl

/-! ## All instructions, and the step -/

/-- No instruction reads or writes STOP_REQ. -/
theorem exec_withStop (i : Instr) : exec i (s.withStop b) = mapNext (·.withStop b) (exec i s) := by
  have setg : ∀ (r : Reg) (v : Word) (s : State), (s.withStop b).setGpr r v = (s.setGpr r v).withStop b :=
    fun r v s => s.setGpr_withStop b r v
  cases i
  case sc => exact execSc_withStop s b _ _ _
  case syscall => exact execSyscall_withStop s b _
  case lb | lbu => exact s.load_withStop b _ _ (fun s => s.readByte_withStop b _) fun _ s => setg _ _ s
  case lh | lhu => exact s.load_withStop b _ _ (fun s => s.readHalf_withStop b _) fun _ s => setg _ _ s
  case lw => exact s.load_withStop b _ _ (fun s => s.readWord_withStop b _) fun _ s => setg _ _ s
  case ll =>
    exact s.load_withStop b _ _ (fun s => s.readWord_withStop b _) fun v s => by rw [setg]; rfl
  case lwc1 => exact s.load_withStop b _ _ (fun s => s.readWord_withStop b _) fun _ _ => rfl
  case ldc1 =>
    simp only [exec, execLdc1]
    refine s.whenEven_withStop b _ _ ?_
    exact s.load_withStop b _ _ (fun s => s.readDouble_withStop b _) fun _ _ => rfl
  case sb => exact s.store_withStop b _ _ fun s => s.writeByte_withStop b _ _
  case sh => exact s.store_withStop b _ _ fun s => s.writeHalf_withStop b _ _
  case sw | swc1 => exact s.store_withStop b _ _ fun s => s.writeWord_withStop b _ _
  case sdc1 =>
    simp only [exec, execSdc1]
    refine s.whenEven_withStop b _ _ ?_
    exact s.store_withStop b _ _ fun s => s.writeDouble_withStop b _ _
  case add | sub | addi => exact s.putSigned_withStop b _ _
  case div | mod | divu | modu => exact s.putQuotient_withStop b _ _ _
  case beq | bne | blez | bgtz | bltz | bgez | bltzal | bgezal | j | jal | jr | jalr | jalx | bc1f | bc1t =>
    simp only [exec, execBeq, execBne, execBlez, execBgtz, execBltz, execBgez, execBltzal, execBgezal, execJ, execJal, execJr,
      execJalr, execJalx, execBc1f, execBc1t, State.branch]
    exact s.transfer_withStop b _ _ _
  case addD | subD | mulD | divD | absD | negD | cvtDS | cvtSD | cvtWD | cCondD =>
    simp only [exec, execAddD, execSubD, execMulD, execDivD, execAbsD, execNegD, execCvtDS, execCvtSD, execCvtWD,
      execCCondD, State.arithD]
    exact s.whenEven_withStop b _ _ rfl
  case addS | subS | mulS | divS | absS | negS | cvtSW | cvtWS | mtc1 | cCondS | mthi | mtlo | brk | nop => rfl
  all_goals exact s.put_withStop b _ _

/-- The step of the core neither reads nor writes STOP_REQ. -/
theorem State.coreStep_withStop : (s.withStop b).coreStep = mapNext (·.withStop b) s.coreStep := by
  have hf : (s.withStop b).fetch = s.fetch.mapState (·.withStop b) := by
    unfold State.fetch
    rw [show (s.withStop b).pc = s.pc from rfl]
    split
    · exact s.readWord_withStop b _
    · rfl
  unfold State.coreStep
  rw [hf]
  cases s.fetch with
  | raised t => rfl
  | done w t =>
    simp only [Access.mapState, State.runWord]
    cases decode w with
    | ok i => exact exec_withStop t b i
    | error _ => rfl

/-- The step of the core leaves STOP_REQ as it is. -/
theorem State.coreStep_stopReq {s t : State} (h : s.coreStep = .next t) : t.stopReq = s.stopReq := by
  have h' : s.coreStep = mapNext (·.withStop s.stopReq) s.coreStep := s.coreStep_withStop s.stopReq
  rw [h] at h'
  injection h' with h'
  exact (congrArg State.stopReq h').trans rfl

end Sys2Proof.Machine
end

