-- ==== Sys2Proof/Machine/Assembly.lean ====
section
/-! DEFINITION. The assembler names that the spec gives: register names (rule R22), the names of the sixteen conditions
(rule R280), and the pseudo-instructions with the instructions they stand for (rule R129). The hardware knows none of
them: they are names for the words of `Sys2Proof.encode`. -/

namespace Sys2Proof.Machine

/-! ## Registers (rule R22) -/

/-- The conventional names of R0 to R31, in order. -/
def regNames : List String :=
  ["$zero", "$at", "$v0", "$v1", "$a0", "$a1", "$a2", "$a3", "$t0", "$t1", "$t2", "$t3", "$t4", "$t5", "$t6", "$t7"] ++
  ["$s0", "$s1", "$s2", "$s3", "$s4", "$s5", "$s6", "$s7", "$t8", "$t9", "$k0", "$k1", "$gp", "$sp", "$fp", "$ra"]

/-- The register of a name; `$s8` is another name of `$fp`. -/
def regOfName (name : String) : Option Nat :=
  if name = "$s8" then some 30 else regNames.findIdx? (· == name)

/-! ## Conditions (rule R280) -/

/-- The names of the conditions 0 to 15, in order. -/
def condNames : List String :=
  ["F", "UN", "EQ", "UEQ", "OLT", "ULT", "OLE", "ULE", "SF", "NGLE", "SEQ", "NGL", "LT", "NGE", "LE", "NGT"]

/-! ## Pseudo-instructions (rule R129) -/

/-- EXIT: service 10. -/
def pseudoExit : List Instr := [.addiu 2 0 10, .syscall 0]
/-- MOVE. -/
def pseudoMove (rd rs : Reg) : List Instr := [.addu rd rs 0]
/-- LI of a 16-bit signed immediate. -/
def pseudoLi16 (rt : Reg) (imm : Imm16) : List Instr := [.addiu rt 0 imm]
/-- LI of a 32-bit immediate. -/
def pseudoLi32 (rt : Reg) (v : Word) : List Instr :=
  [.lui rt (v.extractLsb' 16 16), .ori rt rt (v.extractLsb' 0 16)]
/-- B. -/
def pseudoB (offset : Imm16) : List Instr := [.beq 0 0 offset]
/-- BAL. -/
def pseudoBal (offset : Imm16) : List Instr := [.bgezal 0 offset]
/-- BEQZ. -/
def pseudoBeqz (rs : Reg) (offset : Imm16) : List Instr := [.beq rs 0 offset]
/-- BNEZ. -/
def pseudoBnez (rs : Reg) (offset : Imm16) : List Instr := [.bne rs 0 offset]
/-- NOT. -/
def pseudoNot (rd rs : Reg) : List Instr := [.nor rd rs 0]
/-- NEGU. -/
def pseudoNegu (rd rs : Reg) : List Instr := [.subu rd 0 rs]

/-- The words of a sequence of instructions, as a loader places them. -/
def assemble (is : List Instr) : List Byte := is.flatMap fun i => wordBytes (encode i)

end Sys2Proof.Machine
end

