-- ==== Sys2Proof/Tests/Slice0.lean ====
section
/-! SUPPORT. Tests: the well-formedness smoke tests, decoding of words written out from the encodings, one step of each
instruction on the spec's own vectors, and a witness for every statement that has hypotheses. -/

namespace Sys2Proof.Tests

open Sys2Proof.Machine

set_option maxRecDepth 20000
set_option exponentiation.threshold 3000

/-! ## Well-formedness (rule R123): the check refuses the two words that an alias spells, and nothing else -/

theorem test_wf_refuses_sll_zero : ¬(Instr.sll 0 0 0).WellFormed := by decide
theorem test_wf_refuses_aui_of_r0 : ¬(Instr.aui 5 0 0x7FFF).WellFormed := by decide
theorem test_wf_accepts_neighbours :
    (Instr.sll 0 0 1).WellFormed ∧ (Instr.sll 1 0 0).WellFormed ∧ (Instr.aui 0 1 0).WellFormed ∧ Instr.nop.WellFormed ∧
      (Instr.lui 5 0x7FFF).WellFormed := by decide

/-! ## Decoding

Words written out field by field from the encodings of spec/40_arithmetic.md to spec/48_system.md, one or more for each
group of the instruction list. -/

theorem test_decode_arithmetic :
    decode 0b000000_00001_00010_00011_00000_100000 = .ok (.add 3 1 2) ∧
    decode 0b000000_00001_00010_00011_00010_011000 = .ok (.mul 3 1 2) ∧
    decode 0b000000_00001_00010_00011_00011_011001 = .ok (.muhu 3 1 2) ∧
    decode 0b000000_00001_00010_00011_00011_011010 = .ok (.mod 3 1 2) ∧
    decode 0b001001_00001_00010_1000000000000000 = .ok (.addiu 2 1 0x8000) := by decide
theorem test_decode_logical :
    decode 0b000000_00001_00010_00011_00000_100111 = .ok (.nor 3 1 2) ∧
    decode 0b001110_00001_00010_1111111111111111 = .ok (.xori 2 1 0xFFFF) ∧
    decode 0b001111_00001_00010_0000000000000001 = .ok (.aui 2 1 1) ∧
    decode 0b001111_00000_00001_0111111111111111 = .ok (.lui 1 0x7FFF) := by decide
theorem test_decode_shifts :
    decode 0b000000_00000_00001_00010_11111_000000 = .ok (.sll 2 1 31) ∧
    decode 0b000000_00010_00001_00011_00000_000111 = .ok (.srav 3 1 2) := by decide
theorem test_decode_compare :
    decode 0b000000_00001_00010_00011_00000_101011 = .ok (.sltu 3 1 2) ∧
    decode 0b001010_00001_00010_1111111111111111 = .ok (.slti 2 1 0xFFFF) := by decide
theorem test_decode_branches :
    decode 0b000100_00001_00010_0000000000000011 = .ok (.beq 1 2 3) ∧
    decode 0b000111_00001_00000_0000000000000011 = .ok (.bgtz 1 3) ∧
    decode 0b000001_00001_10001_0000000000000011 = .ok (.bgezal 1 3) ∧
    decode 0b010001_01000_00001_1111111111111111 = .ok (.bc1t 0xFFFF) := by decide
theorem test_decode_jumps :
    decode 0b000010_11111111111111111111111111 = .ok (.j 0x3FFFFFF) ∧
    decode 0b011101_00000000000000000000010000 = .ok (.jalx 0x10) ∧
    decode 0b000000_00001_00000_11111_00000_001001 = .ok (.jalr 31 1) ∧
    decode 0b000000_00001_00000_00000_00000_001000 = .ok (.jr 1) := by decide
theorem test_decode_loads_and_stores :
    decode 0b100000_00001_00010_1111111111111111 = .ok (.lb 2 1 0xFFFF) ∧
    decode 0b101011_00001_00010_0000000000000100 = .ok (.sw 2 1 4) ∧
    decode 0b110000_00001_00010_0000000000000000 = .ok (.ll 2 1 0) ∧
    decode 0b111000_00001_00010_0000000000000000 = .ok (.sc 2 1 0) ∧
    decode 0b110101_00001_00010_0000000000001000 = .ok (.ldc1 2 1 8) := by decide
theorem test_decode_floating_point :
    decode 0b010001_10001_00010_00000_00100_000000 = .ok (.addD 4 0 2) ∧
    decode 0b010001_10000_00000_00000_00010_100001 = .ok (.cvtDS 2 0) ∧
    decode 0b010001_10100_00000_00000_00001_100000 = .ok (.cvtSW 1 0) ∧
    decode 0b010001_10000_00001_00000_000_00_111100 = .ok (.cCondS 12 0 1) ∧
    decode 0b010001_00000_00010_00001_00000000000 = .ok (.mfc1 2 1) ∧
    decode 0b010001_00100_00010_00001_00000000000 = .ok (.mtc1 2 1) := by decide
theorem test_decode_system :
    decode 0b000000_00000000000000000111_001101 = .ok (.brk 7) ∧
    decode 0b000000_11111111111111111111_001100 = .ok (.syscall 0xFFFFF) ∧
    decode 0b000000_00000_00000_00110_00000_010000 = .ok (.mfhi 6) ∧
    decode 0b000000_00011_00000_00000_00000_010011 = .ok (.mtlo 3) ∧ decode 0 = .ok .nop := by decide
/-- Rows E3, E5 to E18, E20 and E22 of spec/95_test_vectors.md. -/
theorem test_reserved_words :
    ([0x00000018, 0x0022001A, 0x70221802, 0x40026000, 0x4442F800, 0x46000086, 0x46000004, 0x46800021, 0x45020002,
      0x45040002, 0x88220000, 0x0000000F, 0x42000018, 0x00000034, 0x7C03E83B, 0x04020003, 0xFFFFFFFF] : List Word).all
      (fun w => (decode w).toOption.isNone) = true := by decide
/-- Rows E2, E4, E19 and E21 of spec/95_test_vectors.md, through the numbering of the opcode table. -/
theorem test_table_words :
    decodeTableWord 32 0x00000040 = some (.sll 0 0 1) ∧ decodeTableWord 32 0x00221898 = some (.mul 3 1 2) ∧
    decodeTableWord 32 0x04110003 = some (.bgezal 0 3) ∧ decodeTableWord 32 0x3C017FFF = some (.lui 1 0x7FFF) := by decide

/-- Rule R129: the two words of EXIT, 0x2402000A and 0x0000000C, as they stand in memory. -/
theorem test_exit_words : assemble pseudoExit = [0x0A, 0x00, 0x02, 0x24, 0x0C, 0x00, 0x00, 0x00] := by decide
/-- Rule R22: two of the names the source itself uses, and the other name of `$fp`. -/
theorem test_register_names :
    regOfName "$v0" = some 2 ∧ regOfName "$a3" = some 7 ∧ regOfName "$s8" = regOfName "$fp" := by decide

/-! ## One step of each instruction

The names carry the row of spec/95_test_vectors.md part 2 that gives the state before, the word and the state after. -/

/-- The reset state with general registers, floating-point registers and words of memory set. -/
def start (gprs : List (Reg × Word)) (fprs : List (FReg × Word)) (words : List (Word × Word)) : State :=
  let s := gprs.foldl (fun s p => s.setGpr p.1 p.2) State.reset
  let s := fprs.foldl (fun s p => s.setFpr p.1 p.2) s
  words.foldl (fun s p =>
    match s.writeWord p.1 p.2 with
    | .done _ t => t
    | .raised t => t) s

/-- One step on the word. -/
def after (s : State) (w : Nat) : State :=
  match step (s.withFetchWord 32 w) with
  | .next t => t
  | .fault _ => s
  | .refused _ => s

/-! ### Arithmetic (rules R150 to R167) -/

theorem test_A2_add :
    let t := after (start [(1, 0x7FFFFFFF), (2, 0x00000001), (3, 0x00000055)] [] []) 0x00221820
    t.exc = ⟨.arithmeticOverflow, 0x80000000, false, 0x00000000⟩ ∧ t.exitCode = .exception := by
  decide
theorem test_A4_add :
    let t := after (start [(1, 0x7FFFFFFF), (2, 0x80000000)] [] []) 0x00221820
    t.gpr 3 = 0xFFFFFFFF := by
  decide
theorem test_A7_addu :
    let t := after (start [(1, 0xFFFFFFFF), (2, 0x00000001)] [] []) 0x00221821
    t.gpr 3 = 0x00000000 := by
  decide
theorem test_A8_sub :
    let t := after (start [(1, 0x00000005), (2, 0x00000007)] [] []) 0x00221822
    t.gpr 3 = 0xFFFFFFFE := by
  decide
theorem test_A10_sub :
    let t := after (start [(1, 0x00000000), (2, 0x80000000)] [] []) 0x00221822
    t.exc = ⟨.arithmeticOverflow, 0x80000000, false, 0x00000000⟩ ∧ t.exitCode = .exception := by
  decide
theorem test_A11_subu :
    let t := after (start [(1, 0x00000000), (2, 0x00000001)] [] []) 0x00221823
    t.gpr 3 = 0xFFFFFFFF := by
  decide
theorem test_A14_addi :
    let t := after (start [(1, 0x80000000)] [] []) 0x2022FFFF
    t.exc = ⟨.arithmeticOverflow, 0x80000000, false, 0x00000000⟩ ∧ t.exitCode = .exception := by
  decide
theorem test_A16_addi :
    let t := after (start [(1, 0x00000001)] [] []) 0x20227FFF
    t.gpr 2 = 0x00008000 := by
  decide
theorem test_A17_addiu :
    let t := after (start [(1, 0x7FFFFFFF)] [] []) 0x24220001
    t.gpr 2 = 0x80000000 := by
  decide
theorem test_A19_addiu :
    let t := after (start [(1, 0x00000000)] [] []) 0x24228000
    t.gpr 2 = 0xFFFF8000 := by
  decide
theorem test_A22_mul :
    let t := after (start [(1, 0xFFFFFFFE), (2, 0x00000003)] [] []) 0x00221898
    t.gpr 3 = 0xFFFFFFFA := by
  decide
theorem test_A24_mul :
    let t := after (start [(1, 0x80000000), (2, 0xFFFFFFFF)] [] []) 0x00221898
    t.gpr 3 = 0x80000000 := by
  decide
theorem test_A26_muh :
    let t := after (start [(1, 0xFFFFFFFE), (2, 0x00000003)] [] []) 0x002218D8
    t.gpr 3 = 0xFFFFFFFF := by
  decide
theorem test_A27_muh :
    let t := after (start [(1, 0x80000000), (2, 0x80000000)] [] []) 0x002218D8
    t.gpr 3 = 0x40000000 := by
  decide
theorem test_A28_mulu :
    let t := after (start [(1, 0xFFFFFFFF), (2, 0xFFFFFFFF)] [] []) 0x00221899
    t.gpr 3 = 0x00000001 := by
  decide
theorem test_A30_muhu :
    let t := after (start [(1, 0xFFFFFFFE), (2, 0x00000003)] [] []) 0x002218D9
    t.gpr 3 = 0x00000002 := by
  decide
theorem test_A32_div :
    let t := after (start [(1, 0xFFFFFFF9), (2, 0x00000003)] [] []) 0x0022189A
    t.gpr 3 = 0xFFFFFFFE := by
  decide
theorem test_A34_div :
    let t := after (start [(1, 0x80000000), (2, 0xFFFFFFFF)] [] []) 0x0022189A
    t.gpr 3 = 0x80000000 := by
  decide
theorem test_A37_mod :
    let t := after (start [(1, 0xFFFFFFF9), (2, 0x00000003)] [] []) 0x002218DA
    t.gpr 3 = 0xFFFFFFFF := by
  decide
theorem test_A38_mod :
    let t := after (start [(1, 0x00000007), (2, 0xFFFFFFFD)] [] []) 0x002218DA
    t.gpr 3 = 0x00000001 := by
  decide
theorem test_A41_divu :
    let t := after (start [(1, 0xFFFFFFF9), (2, 0x00000003)] [] []) 0x0022189B
    t.gpr 3 = 0x55555553 := by
  decide
theorem test_A42_divu :
    let t := after (start [(1, 0x00000007), (2, 0x00000000), (3, 0x00000055)] [] []) 0x0022189B
    t.gpr 3 = 0x00000055 := by
  decide
theorem test_A43_modu :
    let t := after (start [(1, 0xFFFFFFF9), (2, 0x00000003)] [] []) 0x002218DB
    t.gpr 3 = 0x00000000 := by
  decide
theorem test_A44_modu :
    let t := after (start [(1, 0x00000007), (2, 0x00000000), (3, 0x00000055)] [] []) 0x002218DB
    t.gpr 3 = 0x00000055 := by
  decide

/-! ### Logical (rules R170 to R179) -/

theorem test_L1_and :
    let t := after (start [(1, 0xFF00FF00), (2, 0x0FF00FF0)] [] []) 0x00221824
    t.gpr 3 = 0x0F000F00 := by
  decide
theorem test_L2_or :
    let t := after (start [(1, 0xFF00FF00), (2, 0x0FF00FF0)] [] []) 0x00221825
    t.gpr 3 = 0xFFF0FFF0 := by
  decide
theorem test_L3_xor :
    let t := after (start [(1, 0xFF00FF00), (2, 0x0FF00FF0)] [] []) 0x00221826
    t.gpr 3 = 0xF0F0F0F0 := by
  decide
theorem test_L4_nor :
    let t := after (start [(1, 0xFF00FF00), (2, 0x0FF00FF0)] [] []) 0x00221827
    t.gpr 3 = 0x000F000F := by
  decide
theorem test_L7_andi :
    let t := after (start [(1, 0x12345678)] [] []) 0x3022FFFF
    t.gpr 2 = 0x00005678 := by
  decide
theorem test_L9_ori :
    let t := after (start [(1, 0x00000000)] [] []) 0x34228000
    t.gpr 2 = 0x00008000 := by
  decide
theorem test_L11_xori :
    let t := after (start [(1, 0xFFFFFFFF)] [] []) 0x3822FFFF
    t.gpr 2 = 0xFFFF0000 := by
  decide
theorem test_L12_lui :
    let t := after (start [(1, 0xAAAA5555)] [] []) 0x3C017FFF
    t.gpr 1 = 0x7FFF0000 := by
  decide
theorem test_L14_aui :
    let t := after (start [(1, 0xFFFF1234)] [] []) 0x3C220001
    t.gpr 2 = 0x00001234 := by
  decide
theorem test_L15_aui :
    let t := after (start [(1, 0x80000001)] [] []) 0x3C228000
    t.gpr 2 = 0x00000001 := by
  decide

/-! ### Shifts (rules R185 to R191) -/

theorem test_S1_sll :
    let t := after (start [(1, 0xF000000F)] [] []) 0x00011100
    t.gpr 2 = 0x000000F0 := by
  decide
theorem test_S2_sll :
    let t := after (start [(1, 0x00000003)] [] []) 0x000117C0
    t.gpr 2 = 0x80000000 := by
  decide
theorem test_S4_srl :
    let t := after (start [(1, 0xF000000F)] [] []) 0x00011102
    t.gpr 2 = 0x0F000000 := by
  decide
theorem test_S5_srl :
    let t := after (start [(1, 0x80000000)] [] []) 0x000117C2
    t.gpr 2 = 0x00000001 := by
  decide
theorem test_S6_sra :
    let t := after (start [(1, 0xF000000F)] [] []) 0x00011103
    t.gpr 2 = 0xFF000000 := by
  decide
theorem test_S8_sra :
    let t := after (start [(1, 0x7000000F)] [] []) 0x00011103
    t.gpr 2 = 0x07000000 := by
  decide
theorem test_S9_sllv :
    let t := after (start [(1, 0x00000001), (2, 0x00000024)] [] []) 0x00411804
    t.gpr 3 = 0x00000010 := by
  decide
theorem test_S10_sllv :
    let t := after (start [(1, 0x00000001), (2, 0x00000020)] [] []) 0x00411804
    t.gpr 3 = 0x00000001 := by
  decide
theorem test_S11_srlv :
    let t := after (start [(1, 0x80000000), (2, 0xFFFFFFFF)] [] []) 0x00411806
    t.gpr 3 = 0x00000001 := by
  decide
theorem test_S12_srav :
    let t := after (start [(1, 0x80000000), (2, 0x00000021)] [] []) 0x00411807
    t.gpr 3 = 0xC0000000 := by
  decide
theorem test_S13_nop :
    let t := after (start [] [] []) 0x00000000
    t.gpr 0 = 0x00000000 := by
  decide

/-! ### Compare (rules R195 to R199) -/

theorem test_K1_slt :
    let t := after (start [(1, 0xFFFFFFFF), (2, 0x00000001)] [] []) 0x0022182A
    t.gpr 3 = 0x00000001 := by
  decide
theorem test_K2_slt :
    let t := after (start [(1, 0x80000000), (2, 0x7FFFFFFF)] [] []) 0x0022182A
    t.gpr 3 = 0x00000001 := by
  decide
theorem test_K4_sltu :
    let t := after (start [(1, 0xFFFFFFFF), (2, 0x00000001)] [] []) 0x0022182B
    t.gpr 3 = 0x00000000 := by
  decide
theorem test_K5_sltu :
    let t := after (start [(2, 0x00000007)] [] []) 0x0002182B
    t.gpr 3 = 0x00000001 := by
  decide
theorem test_K6_slti :
    let t := after (start [(1, 0xFFFFFFFE)] [] []) 0x2822FFFF
    t.gpr 2 = 0x00000001 := by
  decide
theorem test_K7_slti :
    let t := after (start [(1, 0x80000000)] [] []) 0x28220000
    t.gpr 2 = 0x00000001 := by
  decide
theorem test_K8_sltiu :
    let t := after (start [(1, 0xFFFFFFFE)] [] []) 0x2C22FFFF
    t.gpr 2 = 0x00000001 := by
  decide
theorem test_K10_sltiu :
    let t := after (start [(1, 0xFFFF7FFF)] [] []) 0x2C228000
    t.gpr 2 = 0x00000001 := by
  decide

/-! ### Branches (rules R205 to R216) -/

theorem test_B1_beq :
    let t := after ((start [(1, 0x00000005), (2, 0x00000005)] [] []).writePc 0x80000010) 0x10220003
    t.pc = 0x80000014 ∧ t.npc = 0x80000020 ∧ t.ds = true := by
  decide
theorem test_B2_beq :
    let t := after ((start [(1, 0x00000005), (2, 0x00000006)] [] []).writePc 0x80000010) 0x10220003
    t.pc = 0x80000014 ∧ t.npc = 0x80000018 ∧ t.ds = true := by
  decide
theorem test_B4_bne :
    let t := after ((start [(1, 0x00000005), (2, 0x00000006)] [] []).writePc 0x80000010) 0x1422FFFE
    t.pc = 0x80000014 ∧ t.npc = 0x8000000C ∧ t.ds = true := by
  decide
theorem test_B5_bne :
    let t := after ((start [(1, 0x00000005)] [] []).writePc 0x80000010) 0x1421FFFE
    t.pc = 0x80000014 ∧ t.npc = 0x80000018 ∧ t.ds = true := by
  decide
theorem test_B6_blez :
    let t := after ((start [(1, 0x00000000)] [] []).writePc 0x80000010) 0x18200003
    t.pc = 0x80000014 ∧ t.npc = 0x80000020 ∧ t.ds = true := by
  decide
theorem test_B8_blez :
    let t := after ((start [(1, 0x00000001)] [] []).writePc 0x80000010) 0x18200003
    t.pc = 0x80000014 ∧ t.npc = 0x80000018 ∧ t.ds = true := by
  decide
theorem test_B9_bgtz :
    let t := after ((start [(1, 0x00000000)] [] []).writePc 0x80000010) 0x1C200003
    t.pc = 0x80000014 ∧ t.npc = 0x80000018 ∧ t.ds = true := by
  decide
theorem test_B10_bgtz :
    let t := after ((start [(1, 0x7FFFFFFF)] [] []).writePc 0x80000010) 0x1C200003
    t.pc = 0x80000014 ∧ t.npc = 0x80000020 ∧ t.ds = true := by
  decide
theorem test_B12_bltz :
    let t := after ((start [(1, 0xFFFFFFFF)] [] []).writePc 0x80000010) 0x04200003
    t.pc = 0x80000014 ∧ t.npc = 0x80000020 ∧ t.ds = true := by
  decide
theorem test_B13_bltz :
    let t := after ((start [(1, 0x00000000)] [] []).writePc 0x80000010) 0x04200003
    t.pc = 0x80000014 ∧ t.npc = 0x80000018 ∧ t.ds = true := by
  decide
theorem test_B14_bgez :
    let t := after ((start [(1, 0x00000000)] [] []).writePc 0x80000010) 0x04210003
    t.pc = 0x80000014 ∧ t.npc = 0x80000020 ∧ t.ds = true := by
  decide
theorem test_B15_bgez :
    let t := after ((start [(1, 0x80000000)] [] []).writePc 0x80000010) 0x04210003
    t.pc = 0x80000014 ∧ t.npc = 0x80000018 ∧ t.ds = true := by
  decide
theorem test_B17_bltzal :
    let t := after ((start [(1, 0x00000001)] [] []).writePc 0x80000010) 0x04300003
    t.gpr 31 = 0x80000018 ∧ t.pc = 0x80000014 ∧ t.npc = 0x80000018 ∧ t.ds = true := by
  decide
theorem test_B18_bltzal :
    let t := after ((start [(31, 0xFFFFFFFF)] [] []).writePc 0x80000010) 0x07F00003
    t.gpr 31 = 0x80000018 ∧ t.pc = 0x80000014 ∧ t.npc = 0x80000020 ∧ t.ds = true := by
  decide
theorem test_B19_bgezal :
    let t := after ((start [] [] []).writePc 0x80000010) 0x04110003
    t.gpr 31 = 0x80000018 ∧ t.pc = 0x80000014 ∧ t.npc = 0x80000020 ∧ t.ds = true := by
  decide
theorem test_B20_bgezal :
    let t := after ((start [(1, 0x80000000)] [] []).writePc 0x80000010) 0x04310003
    t.gpr 31 = 0x80000018 ∧ t.pc = 0x80000014 ∧ t.npc = 0x80000018 ∧ t.ds = true := by
  decide

/-! ### Jumps (rules R220 to R227) -/

theorem test_J3_j :
    let t := after (start [] [] []) 0x0BFFFFFF
    t.pc = 0x80000004 ∧ t.npc = 0x8FFFFFFC ∧ t.ds = true := by
  decide
theorem test_J4_j :
    let t := after ((start [] [] []).writePc 0x0FFFFFFC) 0x08000000
    t.pc = 0x10000000 ∧ t.npc = 0x10000000 ∧ t.ds = true := by
  decide
theorem test_J2_jal :
    let t := after (start [] [] []) 0x0C000010
    t.gpr 31 = 0x80000008 ∧ t.pc = 0x80000004 ∧ t.npc = 0x80000040 ∧ t.ds = true := by
  decide
theorem test_J5_jalx :
    let t := after (start [] [] []) 0x74000010
    t.gpr 31 = 0x80000008 ∧ t.pc = 0x80000004 ∧ t.npc = 0x80000040 ∧ t.ds = true := by
  decide
theorem test_J6_jr :
    let t := after (start [(1, 0x80001000)] [] []) 0x00200008
    t.pc = 0x80000004 ∧ t.npc = 0x80001000 ∧ t.ds = true := by
  decide
theorem test_J7_jr :
    let t := after (start [(1, 0x80001002)] [] []) 0x00200008
    t.pc = 0x80000004 ∧ t.npc = 0x80001002 ∧ t.ds = true := by
  decide
theorem test_J8_jalr :
    let t := after (start [(1, 0x80001000)] [] []) 0x0020F809
    t.gpr 31 = 0x80000008 ∧ t.pc = 0x80000004 ∧ t.npc = 0x80001000 ∧ t.ds = true := by
  decide
theorem test_J9_jalr :
    let t := after (start [(1, 0x80001000)] [] []) 0x00200809
    t.gpr 1 = 0x80000008 ∧ t.pc = 0x80000004 ∧ t.npc = 0x80001000 ∧ t.ds = true := by
  decide

/-! ### Loads and stores (rules R235 to R247) -/

theorem test_M1_lb :
    let t := after (start [(1, 0x00001000)] [] [(0x00001000, 0xDEADBE80)]) 0x80220000
    t.gpr 2 = 0xFFFFFF80 := by
  decide
theorem test_M2_lb :
    let t := after (start [(1, 0x00001001)] [] [(0x00001000, 0xDEADBEEF)]) 0x8022FFFF
    t.gpr 2 = 0xFFFFFFEF := by
  decide
theorem test_M3_lbu :
    let t := after (start [(1, 0x00001000)] [] [(0x00001000, 0xDEADBE80)]) 0x90220000
    t.gpr 2 = 0x00000080 := by
  decide
theorem test_M4_lbu :
    let t := after (start [(1, 0x00001000)] [] [(0x00001000, 0xDEADBEEF)]) 0x90220003
    t.gpr 2 = 0x000000DE := by
  decide
theorem test_M5_lh :
    let t := after (start [(1, 0x00001000)] [] [(0x00001000, 0xDEADBEEF)]) 0x84220002
    t.gpr 2 = 0xFFFFDEAD := by
  decide
theorem test_M6_lh :
    let t := after (start [(1, 0x00001000), (2, 0x00000055)] [] [(0x00001000, 0xDEADBEEF)]) 0x84220001
    t.exc = ⟨.addressErrorData, 0x80000000, false, 0x00001001⟩ ∧ t.exitCode = .exception := by
  decide
theorem test_M7_lhu :
    let t := after (start [(1, 0x00001000)] [] [(0x00001000, 0xDEADBEEF)]) 0x94220002
    t.gpr 2 = 0x0000DEAD := by
  decide
theorem test_M8_lhu :
    let t := after (start [(1, 0x00001000)] [] [(0x00001000, 0xDEADBEEF)]) 0x94220000
    t.gpr 2 = 0x0000BEEF := by
  decide
theorem test_M12_lw :
    let t := after (start [(1, 0x00000000)] [] [(0xFFFFFFFC, 0xCAFEF00D)]) 0x8C22FFFC
    t.gpr 2 = 0xCAFEF00D := by
  decide
theorem test_M14_lw :
    let t := after (start [(1, 0x00001000)] [] []) 0x8C200002
    t.exc = ⟨.addressErrorData, 0x80000000, false, 0x00001002⟩ ∧ t.exitCode = .exception := by
  decide
theorem test_M15_sb :
    let t := after (start [(1, 0x00001000), (2, 0xAABBCCDD)] [] []) 0xA0220001
    t.wordAt 0x00001000 = 0x0000DD00 := by
  decide
theorem test_M16_sb :
    let t := after (start [(1, 0x00001000), (2, 0xAABBCCDD)] [] [(0x00001000, 0x11223344)]) 0xA0220000
    t.wordAt 0x00001000 = 0x112233DD := by
  decide
theorem test_M17_sh :
    let t := after (start [(1, 0x00001000), (2, 0xAABBCCDD)] [] []) 0xA4220002
    t.wordAt 0x00001000 = 0xCCDD0000 := by
  decide
theorem test_M18_sh :
    let t := after (start [(1, 0x00001000), (2, 0xAABBCCDD)] [] []) 0xA4220003
    t.exc = ⟨.addressErrorData, 0x80000000, false, 0x00001003⟩ ∧ t.exitCode = .exception := by
  decide
theorem test_M19_sw :
    let t := after (start [(1, 0x00000FFC), (2, 0xDEADBEEF)] [] []) 0xAC220004
    t.wordAt 0x00001000 = 0xDEADBEEF := by
  decide
theorem test_M20_sw :
    let t := after (start [(1, 0x00001000), (2, 0xDEADBEEF)] [] []) 0xAC22FFFE
    t.exc = ⟨.addressErrorData, 0x80000000, false, 0x00000FFE⟩ ∧ t.exitCode = .exception := by
  decide
theorem test_M23_ll :
    let t := after (start [(1, 0x00002000)] [] [(0x00002000, 0x00000005)]) 0xC0220000
    t.gpr 2 = 0x00000005 ∧ t.llBit = true := by
  decide
theorem test_M24_ll :
    let t := after (start [(1, 0x00002000)] [] [(0x00002000, 0x00000005)]) 0xC0220002
    t.exc = ⟨.addressErrorData, 0x80000000, false, 0x00002002⟩ ∧ t.exitCode = .exception := by
  decide
theorem test_M25_sc :
    let t := after ({ start [(1, 0x00002000), (2, 0x00000006)] [] [(0x00002000, 0x00000005)] with llBit := true, llAddr := 0x00002000 }) 0xE0220000
    t.gpr 2 = 0x00000001 ∧ t.wordAt 0x00002000 = 0x00000006 ∧ t.llBit = false := by
  decide
theorem test_M26_sc :
    let t := after (start [(1, 0x00002000), (2, 0x00000006)] [] [(0x00002000, 0x00000005)]) 0xE0220000
    t.gpr 2 = 0x00000000 ∧ t.wordAt 0x00002000 = 0x00000005 ∧ t.llBit = false := by
  decide

/-! ### Floating point (rules R255 to R291) -/

theorem test_F2_add_s :
    let t := after (start [] [(0, 0x4B800000), (1, 0x3F800000)] []) 0x46010080
    t.fpr 2 = 0x4B800000 := by
  decide
theorem test_F3_add_s :
    let t := after (start [] [(0, 0x7F7FFFFF), (1, 0x7F7FFFFF)] []) 0x46010080
    t.fpr 2 = 0x7F800000 := by
  decide
theorem test_F5_sub_s :
    let t := after (start [] [(0, 0x3F800000), (1, 0x40000000)] []) 0x46010081
    t.fpr 2 = 0xBF800000 := by
  decide
theorem test_F7_mul_s :
    let t := after (start [] [(0, 0x00800000), (1, 0x3F000000)] []) 0x46010082
    t.fpr 2 = 0x00400000 := by
  decide
theorem test_F6_mul_s :
    let t := after (start [] [(0, 0x40400000), (1, 0x40E00000)] []) 0x46010082
    t.fpr 2 = 0x41A80000 := by
  decide
theorem test_F8_div_s :
    let t := after (start [] [(0, 0x3F800000), (1, 0x40400000)] []) 0x46010083
    t.fpr 2 = 0x3EAAAAAB := by
  decide
theorem test_F9_div_s :
    let t := after (start [] [(0, 0x40E00000), (1, 0x40000000)] []) 0x46010083
    t.fpr 2 = 0x40600000 := by
  decide
theorem test_F10_add_d :
    let t := after (start [] [(0, 0x00000000), (1, 0x3FF00000), (2, 0x00000000), (3, 0x40000000)] []) 0x46220100
    t.fpr 4 = 0x00000000 ∧ t.fpr 5 = 0x40080000 := by
  decide
theorem test_F14_add_d :
    let t := after (start [] [] []) 0x46220900
    t.exc = ⟨.reservedInstruction, 0x80000000, false, 0x46220900⟩ ∧ t.exitCode = .exception := by
  decide
theorem test_F11_sub_d :
    let t := after (start [] [(0, 0x00000000), (1, 0x3FF00000), (2, 0x00000000), (3, 0x40000000)] []) 0x46220101
    t.fpr 4 = 0x00000000 ∧ t.fpr 5 = 0xBFF00000 := by
  decide
theorem test_F12_mul_d :
    let t := after (start [] [(0, 0x00000000), (1, 0x40080000), (2, 0x00000000), (3, 0x401C0000)] []) 0x46220102
    t.fpr 4 = 0x00000000 ∧ t.fpr 5 = 0x40350000 := by
  decide
theorem test_F13_div_d :
    let t := after (start [] [(0, 0x00000000), (1, 0x3FF00000), (2, 0x00000000), (3, 0x40080000)] []) 0x46220103
    t.fpr 4 = 0x55555555 ∧ t.fpr 5 = 0x3FD55555 := by
  decide
theorem test_F16_abs_s :
    let t := after (start [] [(0, 0xC0200000)] []) 0x46000045
    t.fpr 1 = 0x40200000 := by
  decide
theorem test_F17_abs_s :
    let t := after (start [] [(0, 0xFFC00001)] []) 0x46000045
    t.fpr 1 = 0x7FC00001 := by
  decide
theorem test_F18_abs_d :
    let t := after (start [] [(0, 0x12345678), (1, 0xC0040000)] []) 0x46200085
    t.fpr 2 = 0x12345678 ∧ t.fpr 3 = 0x40040000 := by
  decide
theorem test_F19_neg_s :
    let t := after (start [] [(0, 0x00000000)] []) 0x46000047
    t.fpr 1 = 0x80000000 := by
  decide
theorem test_F21_neg_d :
    let t := after (start [] [(0, 0x12345678), (1, 0x40040000)] []) 0x46200087
    t.fpr 2 = 0x12345678 ∧ t.fpr 3 = 0xC0040000 := by
  decide
theorem test_F24_cvt_s_w :
    let t := after (start [] [(0, 0x01000001)] []) 0x46800060
    t.fpr 1 = 0x4B800000 := by
  decide
theorem test_F25_cvt_s_w :
    let t := after (start [] [(0, 0x7FFFFFFF)] []) 0x46800060
    t.fpr 1 = 0x4F000000 := by
  decide
theorem test_F27_cvt_d_s :
    let t := after (start [] [(0, 0x3DCCCCCD)] []) 0x460000A1
    t.fpr 2 = 0xA0000000 ∧ t.fpr 3 = 0x3FB99999 := by
  decide
theorem test_F28_cvt_d_s :
    let t := after (start [] [(0, 0x3F800000)] []) 0x460000E1
    t.exc = ⟨.reservedInstruction, 0x80000000, false, 0x460000E1⟩ ∧ t.exitCode = .exception := by
  decide
theorem test_F29_cvt_s_d :
    let t := after (start [] [(0, 0x9999999A), (1, 0x3FB99999)] []) 0x462000A0
    t.fpr 2 = 0x3DCCCCCD := by
  decide
theorem test_F31_cvt_s_d :
    let t := after (start [] [(0, 0x00000000), (1, 0x7FE00000)] []) 0x462000A0
    t.fpr 2 = 0x7F800000 := by
  decide
theorem test_F32_cvt_w_s :
    let t := after (start [] [(0, 0x40200000)] []) 0x46000064
    t.fpr 1 = 0x00000002 := by
  decide
theorem test_F36_cvt_w_s :
    let t := after (start [] [(0, 0xCF000000)] []) 0x46000064
    t.fpr 1 = 0x80000000 := by
  decide
theorem test_F38_cvt_w_d :
    let t := after (start [] [(0, 0x00000000), (1, 0x40350000)] []) 0x462000A4
    t.fpr 2 = 0x00000015 := by
  decide
theorem test_F39_cvt_w_d :
    let t := after (start [] [(0, 0xFFC00000), (1, 0x41DFFFFF)] []) 0x462000A4
    t.fpr 2 = 0x7FFFFFFF := by
  decide
theorem test_F43_c_s :
    let t := after (start [] [(0, 0x00000000), (1, 0x80000000)] []) 0x46010032
    t.fcsr = 0x00800000 := by
  decide
theorem test_F46_c_s :
    let t := after (start [] [(0, 0x7FC00000), (1, 0x40000000)] []) 0x46010031
    t.fcsr = 0x00800000 := by
  decide
theorem test_F51_c_d :
    let t := after (start [] [(0, 0x00000000), (1, 0x3FF00000), (2, 0x00000000), (3, 0x40000000)] []) 0x4622003C
    t.fcsr = 0x00800000 := by
  decide
theorem test_F52_c_d :
    let t := after (start [] [] []) 0x4622083C
    t.exc = ⟨.reservedInstruction, 0x80000000, false, 0x4622083C⟩ ∧ t.exitCode = .exception := by
  decide
theorem test_H1_bc1f :
    let t := after ((start [] [] []).writePc 0x80000010) 0x45000003
    t.pc = 0x80000014 ∧ t.npc = 0x80000020 ∧ t.ds = true := by
  decide
theorem test_H2_bc1f :
    let t := after ({ (start [] [] []).writePc 0x80000010 with fcsr := 0x00800000 }) 0x45000003
    t.pc = 0x80000014 ∧ t.npc = 0x80000018 ∧ t.ds = true := by
  decide
theorem test_H3_bc1t :
    let t := after ({ (start [] [] []).writePc 0x80000010 with fcsr := 0x00800000 }) 0x45010003
    t.pc = 0x80000014 ∧ t.npc = 0x80000020 ∧ t.ds = true := by
  decide
theorem test_H5_bc1t :
    let t := after ({ (start [] [] []).writePc 0x80000010 with fcsr := 0x00800000 }) 0x4501FFFF
    t.pc = 0x80000014 ∧ t.npc = 0x80000010 ∧ t.ds = true := by
  decide
theorem test_F54_mfc1 :
    let t := after (start [] [(1, 0xC0200000)] []) 0x44020800
    t.gpr 2 = 0xC0200000 := by
  decide
theorem test_F55_mtc1 :
    let t := after (start [(2, 0x3F800000)] [] []) 0x44820800
    t.fpr 1 = 0x3F800000 := by
  decide
theorem test_F57_mtc1 :
    let t := after (start [(2, 0xFFFFFFFF)] [(0, 0x11111111), (1, 0x22222222)] []) 0x44820800
    t.fpr 0 = 0x11111111 ∧ t.fpr 1 = 0xFFFFFFFF := by
  decide
theorem test_F58_lwc1 :
    let t := after (start [(1, 0x00002000)] [] [(0x00002004, 0x40490FDB)]) 0xC4220004
    t.fpr 2 = 0x40490FDB := by
  decide
theorem test_F59_lwc1 :
    let t := after (start [(1, 0x00002000)] [] []) 0xC4220002
    t.exc = ⟨.addressErrorData, 0x80000000, false, 0x00002002⟩ ∧ t.exitCode = .exception := by
  decide
theorem test_F60_ldc1 :
    let t := after (start [(1, 0x00002000)] [] [(0x00002008, 0x54442D18), (0x0000200C, 0x400921FB)]) 0xD4220008
    t.fpr 2 = 0x54442D18 ∧ t.fpr 3 = 0x400921FB := by
  decide
theorem test_F63_ldc1 :
    let t := after (start [(1, 0x00002000)] [] []) 0xD4230004
    t.exc = ⟨.reservedInstruction, 0x80000000, false, 0xD4230004⟩ ∧ t.exitCode = .exception := by
  decide
theorem test_F64_swc1 :
    let t := after (start [(1, 0x00002000)] [(2, 0x40490FDB)] []) 0xE4220000
    t.wordAt 0x00002000 = 0x40490FDB := by
  decide
theorem test_F65_sdc1 :
    let t := after (start [(1, 0x00002000)] [(2, 0x54442D18), (3, 0x400921FB)] []) 0xF4220000
    t.wordAt 0x00002000 = 0x54442D18 ∧ t.wordAt 0x00002004 = 0x400921FB := by
  decide
theorem test_F66_sdc1 :
    let t := after (start [(1, 0x00002000)] [(2, 0x00000001), (3, 0x00000002)] []) 0xF4220004
    t.exc = ⟨.addressErrorData, 0x80000000, false, 0x00002004⟩ ∧ t.exitCode = .exception := by
  decide

/-! ### System (rules R310 to R316) -/

theorem test_Y1_mthi :
    let t := after (start [(1, 0x00000009)] [] []) 0x00200011
    t.hi = 0x00000009 := by
  decide
theorem test_Y2_mtlo :
    let t := after (start [(3, 0x00000077)] [] []) 0x00600013
    t.lo = 0x00000077 := by
  decide
theorem test_Y3_mfhi :
    let t := after ({ start [] [] [] with hi := 0x00000009 }) 0x00003010
    t.gpr 6 = 0x00000009 := by
  decide
theorem test_Y4_mflo :
    let t := after ({ start [] [] [] with lo := 0x00000077 }) 0x00003812
    t.gpr 7 = 0x00000077 := by
  decide
theorem test_Y7_break :
    let t := after (start [] [] []) 0x0048D14D
    t.exc = ⟨.breakpoint, 0x80000000, false, 0x00012345⟩ ∧ t.exitCode = .exception := by
  decide

/-! ### Services (rows Y14, Y20 and Y25) and the run control (rows T6, T16, T18, Z1) -/

theorem test_Y14_exit :
    let t := after (start [(2, 10)] [] []) 0x0000000C
    t.exitCode = .exit ∧ t.pc = 0x80000004 ∧ t.exc.kind = .none := by decide
theorem test_Y20_read_string :
    let s := start [(2, 8), (4, 0x3000), (5, 4)] [] []
    let t := after { s with env := { s.env with answers := [.bytes [0x61, 0x62, 0x63, 0x00, 0x64]] } } 0x0000000C
    t.wordAt 0x3000 = 0x00636261 ∧ t.wordAt 0x3004 = 0 ∧ t.gpr 2 = 8 ∧ t.calls = [.readString 4] := by decide
theorem test_T6_stop_before_start :
    step { State.reset with running := true, stopReq := true } =
      .next { State.reset with exitCode := .manualStop } := rfl
theorem test_T16_misaligned_fetch :
    step (State.reset.writePc 0x80000002) =
      .next ((State.reset.writePc 0x80000002).raise .addressErrorFetch 0x80000002) := rfl
theorem test_Z1_reset :
    let s := start [(5, 0xDEADBEEF)] [(3, 0x3F800000)] [(0x1000, 5)]
    request (.reset 0x80000000) { s with hi := 1, ds := true, stopReq := true, exitCode := .exception } =
      .next State.reset := rfl

/-! ### The memory manager (Q1 of spec/95_test_vectors.md: two slots of 4096 bytes) -/

/-- The memory after steps 1 to 3 of Q1: page 1 is swapped out. -/
def afterQ1 : State :=
  let s := State.initial { Params.default with spareSlots := 1 }
  let s := { s with env := { s.env with swapOutcomes := [true, true, true, true] } }
  [((0x1000 : Word), (0x11111111 : Word)), (0x2000, 0x22222222), (0x3000, 0x33333333)].foldl (fun s p =>
    match s.writeWord p.1 p.2 with
    | .done _ t => t
    | .raised t => t) s

theorem test_Q1_eviction_is_lru :
    afterQ1.mem.resident.map (·.page) = [2, 3] ∧ afterQ1.mem.swap.map (·.page) = [1] ∧
      afterQ1.wordAt 0x1000 = 0x11111111 := by decide
/-- The outcome of an access: whether it was done, its value, and the state after it. -/
def outcome {α : Type} (x : Access α) : Option α × State :=
  match x with
  | .done v t => (some v, t)
  | .raised t => (none, t)

theorem test_Q1_swap_in :
    let r := outcome (afterQ1.readWord 0x1000)
    r.1 = some 0x11111111 ∧ r.2.mem.resident.map (·.page) = [3, 1] ∧ r.2.mem.swap.map (·.page) = [1, 2] := by decide
theorem test_Q1f_failed_swap_out :
    let r := outcome ({ afterQ1 with env := { afterQ1.env with swapOutcomes := [false] } }.writeWord 0x4000 1)
    r.1 = none ∧ r.2.memFailed = true ∧ r.2.exc = ⟨.machineError, 0x80000000, false, 0x4000⟩ := by decide

/-! ## Witnesses: a state and operands that meet the hypotheses of each statement -/

theorem witness_DecodeOfEncodeIsTheInstruction :
    (Instr.sdc1 31 31 0xFFFF).WellFormed ∧ (Instr.sll 0 0 1).WellFormed ∧ (Instr.aui 0 1 0).WellFormed := by decide
theorem witness_EncodeOfDecodeIsTheWord :
    decode 0 = .ok .nop ∧ decode 0xF7FFFFFF = .ok (.sdc1 31 31 0xFFFF) := by decide
theorem witness_DecodeIsTheOpcodeTable : decodeRow 0 = .ok (.sll 0 0 0) := by decide
theorem witness_TrappingAddAndSubtract :
    let s := start [(1, 0x7FFFFFFF), (2, 0x80000000), (3, 1), (4, 0xFFFFFFFF)] [] []
    let adds := fun a b : Word => a.msb = b.msb ∧ (a + b).msb ≠ a.msb
    let subs := fun a b : Word => a.msb ≠ b.msb ∧ (a - b).msb = b.msb
    ¬adds (s.gpr 1) (s.gpr 2) ∧ adds (s.gpr 1) (s.gpr 3) ∧ ¬subs (s.gpr 4) (s.gpr 2) ∧ subs (s.gpr 0) (s.gpr 2) ∧
      ¬adds (s.gpr 1) ((0xFFFF : Imm16).signExtend 32) ∧ adds (s.gpr 2) ((0xFFFF : Imm16).signExtend 32) := by decide
theorem witness_QuotientAndRemainder : (start [(1, 0x80000000), (2, 0xFFFFFFFF)] [] []).gpr 2 ≠ 0 := by decide
theorem witness_DivisionByZeroWritesNothing : State.reset.gpr 0 = 0 := by decide
theorem witness_ConditionalBranches : State.reset.ds = false ∧ (State.reset.writePc 0xFFFFFFF8).ds = false := by decide
theorem witness_LinkingBranches : State.reset.ds = false := by decide
theorem witness_JumpsAndLinks : State.reset.ds = false := by decide
theorem witness_TransferInADelaySlotIsReserved :
    isCti (.bc1t 0xFFFF) = true ∧ { State.reset with ds := true }.ds = true := by decide
theorem witness_OtherInstructionsAdvanceOrRaise :
    isCti .nop = false ∧ exec .nop State.reset = .next State.reset.advance ∧ isCti (.brk 0) = false ∧
      exec (.brk 0) State.reset = .next (State.reset.raise .breakpoint 0) := ⟨rfl, rfl, rfl, rfl⟩
/-- A word at the top of the address space, with registers and the even register of a double beside it. -/
def topWord : State := start [(1, 0xFFFFFFF8), (2, 0xAABBCCDD)] [(2, 1), (3, 2)] [(0xFFFFFFF8, 0x54442D18)]

theorem topWord_memWf : topWord.memWf := by decide
theorem topWord_accessible (w : Bool) : topWord.accessible 0xFFFFFFF8 w := ⟨by decide, by cases w <;> decide⟩
/-- The page of address 0, absent, is accessible too. -/
theorem topWord_accessible_absent (w : Bool) : topWord.accessible 0 w := ⟨by decide, by cases w <;> decide⟩

theorem witness_IntegerLoads :
    topWord.memWf ∧ topWord.accessible (topWord.gpr 1 + (0 : Imm16).signExtend 32) false ∧
      topWord.accessible (topWord.gpr 0 + (0 : Imm16).signExtend 32) false ∧
      (topWord.gpr 1 + (0 : Imm16).signExtend 32).toNat % 4 = 0 :=
  ⟨topWord_memWf, topWord_accessible false, topWord_accessible_absent false, by decide⟩
theorem witness_IntegerStores :
    topWord.memWf ∧ topWord.accessible (topWord.gpr 1 + (0 : Imm16).signExtend 32) true ∧
      (topWord.gpr 1 + (0 : Imm16).signExtend 32).toNat % 4 = 0 :=
  ⟨topWord_memWf, topWord_accessible true, by decide⟩
theorem witness_MisalignedAccessRaises :
    let a := fun o : Imm16 => topWord.gpr 1 + o.signExtend 32
    (a 1).toNat % 2 ≠ 0 ∧ (a 2).toNat % 4 ≠ 0 ∧ (a 4).toNat % 8 ≠ 0 ∧ (30 : FReg).val % 2 = 0 := by decide
theorem witness_LoadLinkedReserves :
    topWord.memWf ∧ topWord.accessible (topWord.gpr 1 + (0 : Imm16).signExtend 32) false ∧
      (topWord.gpr 1 + (0 : Imm16).signExtend 32).toNat % 4 = 0 :=
  ⟨topWord_memWf, topWord_accessible false, by decide⟩
theorem witness_StoreConditionalOutcomes_unreserved :
    topWord.memWf ∧ (topWord.gpr 1 + (0 : Imm16).signExtend 32).toNat % 4 = 0 ∧ topWord.llBit = false :=
  ⟨topWord_memWf, by decide, by decide⟩
theorem witness_StoreConditionalOutcomes_reserved :
    let s := { topWord with llBit := true, llAddr := 0xFFFFFFF8 }
    s.memWf ∧ s.accessible (s.gpr 1 + (0 : Imm16).signExtend 32) true ∧ s.llBit = true ∧
      s.gpr 1 + (0 : Imm16).signExtend 32 = s.llAddr :=
  ⟨topWord_memWf, topWord_accessible true, rfl, by decide⟩
theorem witness_StoreConditionalOutcomes_elsewhere :
    let s := { topWord with llBit := true, llAddr := 0 }
    s.memWf ∧ s.memFailed = false ∧ s.noTransfer (s.gpr 1 + (0 : Imm16).signExtend 32) true ∧ s.llBit = true ∧
      s.gpr 1 + (0 : Imm16).signExtend 32 ≠ s.llAddr :=
  ⟨topWord_memWf, by decide, Or.inl (by decide), rfl, by decide⟩
theorem witness_ReservationLostOnlyBy :
    let s := { State.reset with llBit := true, exitCode := .exception }
    exec (.brk 0) s = .next (s.raise .breakpoint 0) ∧ s.llBit = true ∧ (s.raise .breakpoint 0).llBit = false ∧
      exec (.ll 0 0 0) State.reset = .next { State.reset.advance with llBit := true } := ⟨rfl, rfl, rfl, rfl⟩
theorem witness_FloatingPointLoads :
    topWord.memWf ∧ topWord.accessible (topWord.gpr 1 + (0 : Imm16).signExtend 32) false ∧
      (topWord.gpr 1 + (0 : Imm16).signExtend 32).toNat % 8 = 0 ∧ (30 : FReg).val % 2 = 0 :=
  ⟨topWord_memWf, topWord_accessible false, by decide, by decide⟩
theorem witness_FloatingPointStores :
    topWord.memWf ∧ topWord.accessible (topWord.gpr 1 + (0 : Imm16).signExtend 32) true ∧
      (topWord.gpr 1 + (0 : Imm16).signExtend 32).toNat % 8 = 0 ∧ (30 : FReg).val % 2 = 0 :=
  ⟨topWord_memWf, topWord_accessible true, by decide, by decide⟩
theorem witness_OddDoubleRegisterIsReserved : (1 : FReg).val % 2 = 1 ∧ (31 : FReg).val % 2 = 1 := by decide
theorem witness_FloatingPointSums : (0 : FReg).val % 2 = 0 ∧ (30 : FReg).val % 2 = 0 := by decide
theorem witness_FloatingPointProducts : (0 : FReg).val % 2 = 0 ∧ (30 : FReg).val % 2 = 0 := by decide
theorem witness_FloatingPointQuotients : (0 : FReg).val % 2 = 0 ∧ (30 : FReg).val % 2 = 0 := by decide
theorem witness_SignOperations : (0 : FReg).val % 2 = 0 ∧ (30 : FReg).val % 2 = 0 := by decide
theorem witness_ConversionsToFloatingPoint : (0 : FReg).val % 2 = 0 ∧ (30 : FReg).val % 2 = 0 := by decide
theorem witness_ConversionsToInteger : (0 : FReg).val % 2 = 0 ∧ (30 : FReg).val % 2 = 0 := by decide
theorem witness_FloatingPointCompares : (0 : FReg).val % 2 = 0 ∧ (30 : FReg).val % 2 = 0 := by decide
theorem witness_ServicesWithoutInput (n : Word) : (start [(2, n)] [] []).gpr 2 = n := rfl
theorem witness_InputServices :
    let s := fun n : Word => start [(2, n)] [] []
    (s 5).gpr 2 = 5 ∧ (s 6).gpr 2 = 6 ∧ (s 7).gpr 2 = 7 ∧
      { (s 5).env with answers := [.word 7] }.answers = HostAnswer.word 7 :: [] ∧
      { (s 7).env with answers := [.double 7] }.answers = HostAnswer.double 7 :: [] := by decide
/-- Row Y19: both strings in untouched memory, where no read meets a transfer. -/
theorem witness_StringServices (n : Word) :
    let s := start [(2, n)] [] []
    let bytes := addressesFrom 0 ((s.stringAt 0 s.params.strMax).length + 1)
    s.memWf ∧ s.gpr 2 = n ∧ s.gpr 4 = 0 ∧ s.gpr 5 = 0 ∧ s.readable (bytes ++ bytes) :=
  ⟨(by decide : State.reset.memWf), rfl, rfl, rfl, rfl, Or.inl fun _ _ => Or.inr ⟨rfl, Or.inl rfl⟩⟩
/-- Page 1 swapped out with the bytes 11 11 11 11 at 0x1000, STR_MAX = 4, and transfers that complete. -/
def swappedString (n : Word) : State :=
  { (afterQ1.setGpr 2 n).setGpr 4 0x1000 with
    params := { afterQ1.params with strRoom := 3 }
    env := { afterQ1.env with swapOutcomes := List.replicate 10 true } }
theorem swappedString_transfers (n : Word) : (swappedString n).transfersComplete 10 := by
  unfold State.transfersComplete
  rw [show (swappedString n).env.swapOutcomes = List.replicate 10 true from rfl]
  decide
theorem swappedString_memWf (n : Word) : (swappedString n).memWf := (by decide : afterQ1.memWf)
theorem witness_StringServices_swapped :
    (swappedString 4).memWf ∧ (swappedString 4).gpr 2 = 4 ∧ (swappedString 4).gpr 4 = 0x1000 ∧
      (swappedString 4).stringAt 0x1000 (swappedString 4).params.strMax = [0x11, 0x11, 0x11, 0x11] ∧
      (swappedString 4).readable (addressesFrom 0x1000 5) :=
  ⟨swappedString_memWf 4, by decide, by decide, by decide, by decide, Or.inr (swappedString_transfers 4)⟩
/-- Row Y20: a buffer in an absent page, and one of two bytes over the top of the address space in two. -/
def absentBuffer (a n : Word) : State := start [(2, 8), (4, a), (5, n)] [] []
theorem absentBuffer_room (a n : Word) (as : List Word) (ps : List Nat) (hl : ps.length ≤ 131072)
    (h : ∀ x ∈ as.map (·.toNat / 2 ^ 12), x ∈ ps) : (absentBuffer a n).writable as :=
  ⟨rfl, Or.inl ⟨ps, (Nat.zero_add _).trans_le hl, fun _ hx => Or.inr ⟨rfl, h _ (List.mem_map_of_mem hx)⟩⟩⟩
theorem witness_BufferServices_absent :
    (absentBuffer 0x3000 4).memWf ∧ (absentBuffer 0x3000 4).gpr 2 = 8 ∧
      (absentBuffer 0x3000 4).writable (addressesFrom 0x3000 4) ∧
      (absentBuffer 0xFFFFFFFF 2).writable (addressesFrom 0xFFFFFFFF 2) :=
  ⟨(by decide : State.reset.memWf), rfl,
    absentBuffer_room _ _ _ [3] (by simp) (by simp [addressesFrom]),
    absentBuffer_room _ _ _ [0xFFFFF, 0] (by simp) (by simp [addressesFrom])⟩
/-- A buffer of two bytes over the top of the address space, in resident pages. -/
def buffer : State := start [(5, 0xFFFFFFFF), (6, 2)] [] [(0xFFFFFFFC, 1), (0, 1)]
theorem buffer_resident :
    ∀ a ∈ addressesFrom 0xFFFFFFFF 2, (buffer.mem.slotOf (buffer.pageOf a)).isSome = true := by
  simp only [addressesFrom, List.mem_cons, List.not_mem_nil, or_false, forall_eq_or_imp, forall_eq]
  exact ⟨by decide, by decide⟩
theorem buffer_writable : buffer.writable (addressesFrom 0xFFFFFFFF 2) :=
  ⟨by decide, Or.inl ⟨[], by decide, fun a ha => Or.inl (buffer_resident a ha)⟩⟩
theorem buffer_readable : buffer.readable (addressesFrom 0xFFFFFFFF 2) :=
  ⟨by decide, Or.inl fun a ha => Or.inl (buffer_resident a ha)⟩
theorem witness_BufferServices_file (n : Word) :
    (buffer.setGpr 2 n).memWf ∧ (buffer.setGpr 2 n).gpr 2 = n ∧ (buffer.setGpr 2 n).gpr 5 = 0xFFFFFFFF ∧
      (buffer.setGpr 2 n).gpr 6 = 2 ∧ (buffer.setGpr 2 n).writable (addressesFrom 0xFFFFFFFF 2) ∧
      (buffer.setGpr 2 n).readable (addressesFrom 0xFFFFFFFF 2) :=
  ⟨(by decide : buffer.memWf), rfl, (by decide : buffer.gpr 5 = 0xFFFFFFFF), (by decide : buffer.gpr 6 = 2),
    buffer_writable.congr (by simp) (by simp) (by simp) (by simp),
    buffer_readable.congr (by simp) (by simp) (by simp) (by simp)⟩
/-- A buffer in the page that is swapped out, with transfers that complete. -/
theorem witness_BufferServices_swapped :
    (swappedString 15).memWf ∧ (swappedString 15).gpr 2 = 15 ∧ (swappedString 15).readable (addressesFrom 0x1000 5) ∧
      (swappedString 15).writable (addressesFrom 0x1000 5) :=
  ⟨swappedString_memWf 15, by decide, ⟨by decide, Or.inr (swappedString_transfers 15)⟩,
    ⟨by decide, Or.inr (swappedString_transfers 15)⟩⟩
theorem witness_UnknownServiceIsReserved :
    let x := fun n : Word => (start [(2, n)] [] []).gpr 2
    x 0 = 0 ∧ x 11 = 11 ∧ x 12 = 12 ∧ 17 ≤ (x 17).toNat ∧ 17 ≤ (x 0xFFFFFFFF).toNat := by decide
theorem witness_ExceptionsArePrecise :
    let t := State.reset.raise .breakpoint 0
    State.reset.memWf ∧ State.reset.exitCode = .none ∧ exec (.brk 0) State.reset = .next t ∧ t.exitCode = .exception ∧
      t.memFailed = false := ⟨by decide, rfl, rfl, rfl, rfl⟩
theorem witness_OnlyComparesWriteTheStatusRegister :
    exec (.cCondS 2 0 0) State.reset = .next { State.reset.advance with fcsr := 0x00800000 } := rfl
theorem witness_OnlyTheirMovesWriteHiAndLo :
    let s := start [(1, 5)] [] []
    exec (.mthi 1) s = .next { s.advance with hi := 5 } ∧ exec (.mtlo 1) s = .next { s.advance with lo := 5 } :=
  ⟨rfl, rfl⟩
theorem witness_FailedMemoryRaisesMachineError :
    let s := { topWord with memFailed := true, llBit := true, llAddr := 0xFFFFFFF8 }
    let a := s.gpr 1 + (0 : Imm16).signExtend 32
    s.memFailed = true ∧ s.pc.toNat % 4 = 0 ∧ a.toNat % 8 = 0 ∧ (30 : FReg).val % 2 = 0 ∧ a = s.llAddr := by decide
theorem witness_StepRunsTheDecodedInstruction :
    let s := { State.reset with running := true }
    State.reset.memWf ∧ State.reset.pc.toNat % 4 = 0 ∧ State.reset.accessible State.reset.pc false ∧
      decode (State.reset.wordAt State.reset.pc) = .ok .nop ∧ State.reset.running = false ∧
      s.running = true ∧ s.stopReq = false ∧ exec .nop s = .next s.advance :=
  ⟨by decide, by decide, ⟨by decide, by decide⟩, by decide, rfl, rfl, rfl, rfl⟩
theorem witness_UndecodedWordIsReserved :
    let s := start [] [] [(0x80000000, 0xFFFFFFFF)]
    s.memWf ∧ s.pc.toNat % 4 = 0 ∧ s.accessible s.pc false ∧ ∀ i, decode (s.wordAt s.pc) ≠ .ok i := by
  refine ⟨by decide, by decide, ⟨by decide, by decide⟩, fun i h => ?_⟩
  have : decode (State.wordAt (start [] [] [(0x80000000, 0xFFFFFFFF)]) 0x80000000) = .error .reservedOpcode := by decide
  have h' : Except.error Reject.reservedOpcode = Except.ok i := this.symm.trans h
  simp at h'
theorem witness_MisalignedPcRaises :
    (State.reset.writePc 0x80000002).pc.toNat % 4 ≠ 0 ∧ State.reset.ds = false ∧
      (start [(1, 0x80001002)] [] []).gpr 1 = 0x80001002 := by decide
theorem witness_RunLoopObservesTheStopRequest :
    let s := { State.reset with running := true, stopReq := true }
    s.running = true ∧ s.stopReq = true ∧ State.reset.running = false ∧
      step State.reset = .next State.reset.advance := ⟨rfl, rfl, rfl, rfl⟩
theorem reset_inv : State.reset.Inv :=
  ⟨by decide, by decide, by decide, by decide, by decide, by decide, by decide, by decide⟩
theorem witness_StepKeepsTheInvariant : State.reset.Inv ∧ step State.reset = .next State.reset.advance :=
  ⟨reset_inv, rfl⟩
theorem witness_RequestsKeepTheInvariant :
    State.reset.Inv ∧ request .start State.reset = .next { State.reset with running := true } ∧
      ramRead State.reset 0xFFFFFFFF 2 = .ok ([0, 0], State.reset) ∧ State.reset.memFailed = false :=
  ⟨reset_inv, rfl, rfl, rfl⟩
theorem witness_AccessesAreTransparent :
    afterQ1.memWf ∧ (∃ t, afterQ1.access 0x1000 false = .done () t) ∧ ∃ t, afterQ1.access 0x1000 true = .done () t :=
  ⟨by decide, State.accessible_iff.mp ⟨by decide, by decide⟩, State.accessible_iff.mp ⟨by decide, by decide⟩⟩
theorem witness_StoreThenLoadGivesTheValue :
    topWord.memWf ∧ (0xFFFFFFF8 : Word).toNat % 4 = 0 ∧ (∃ t, topWord.writeWord 0xFFFFFFF8 5 = .done () t) ∧
      ∃ t, topWord.readWord 0xFFFFFFF8 = .done 0x54442D18 t :=
  ⟨topWord_memWf, by decide, State.writeWord_of_accessible 5 (topWord_accessible true),
    let ⟨t, h, _⟩ := State.readWord_of_accessible topWord_memWf (topWord_accessible false); ⟨t, h⟩⟩
theorem witness_FailureOnlyOnATransfer :
    let s := { State.reset with memFailed := true }
    State.reset.memFailed = false ∧ State.reset.noTransfer 0xFFFFFFFF true ∧
      s.access 0 false = .raised (s.raise .machineError 0) :=
  ⟨rfl, Or.inr ⟨rfl, Or.inr (by decide)⟩, rfl⟩
theorem witness_MemoryFailureIsForEver :
    let s := { State.reset with memFailed := true }
    s.memFailed = true ∧ Transition s { s with stopReq := true } ∧ ∃ t, Transition s t ∧ t.env.tick = 1 :=
  ⟨by decide, .request .stop rfl, _, .ramRead 0 1 _ rfl, rfl⟩
theorem witness_ResetRequestState : State.reset.running = false := by decide
theorem witness_RequestsOnlyWhileIdle :
    { State.reset with running := true }.running = true ∧ Request.start ≠ .stop ∧ State.reset.running = false := by decide
/-- Two bytes over the top of the address space. -/
theorem witness_BulkWriteThenBulkRead :
    let t := State.reset.ramWrite 0xFFFFFFFF [1, 2]
    State.reset.memWf ∧ State.reset.running = false ∧ request (.ramWrite 0xFFFFFFFF [1, 2]) State.reset = .next t ∧
      t.memFailed = false ∧ ∃ u, ramRead t 0xFFFFFFFF 2 = .ok ([1, 2], u) ∧ u.memFailed = false :=
  ⟨by decide, rfl, rfl, by decide, _, rfl, by decide⟩
theorem witness_ConstructionParameters :
    12 ≤ 12 ∧ 16 ≤ 16 ∧ 1 ≤ 1 ∧ (0 = 0 ∨ 0 % 2 ^ 12 ≠ 0) ∧ (4097 = 0 ∨ 4097 % 2 ^ 12 ≠ 0) ∧
      ¬(65536 = 0 ∨ 65536 % 2 ^ 16 ≠ 0) := by decide
end Sys2Proof.Tests
end

