-- ==== Sys2Proof/Proofs/StatusRegister.lean ====
section
/-! SUPPORT. What an instruction can do to FCSR (rule R32), and the proof of O43 from it. -/

namespace Sys2Proof.Machine

/-- The mask by which `setCc` clears CC keeps every bit but bit 23. -/
theorem ccMask_getLsbD : ∀ k < 32, k ≠ 23 → (0xFF7FFFFF : Word).getLsbD k = true := by decide

/-- The bit that `setCc` sets is bit 23. -/
theorem ccBit_getLsbD : ∀ k < 32, k ≠ 23 → (0x00800000 : Word).getLsbD k = false := by decide

/-- Setting CC leaves every other bit of FCSR as it was. -/
theorem State.setCc_fcsr_getLsbD (s : State) (c : Bool) {k : Nat} (hk : k < 32) (hne : k ≠ 23) :
    (s.setCc c).fcsr.getLsbD k = s.fcsr.getLsbD k := by
  rw [State.setCc_fcsr, BitVec.getLsbD_or, BitVec.getLsbD_and, ccMask_getLsbD k hk hne, Bool.and_true]
  cases c
  case false => simp
  case true => rw [if_pos rfl, ccBit_getLsbD k hk hne, Bool.or_false]

/-- A failed memory access leaves FCSR as it was. -/
theorem State.Faulted.fcsr {s t : State} (h : s.Faulted t) : t.fcsr = s.fcsr := by
  obtain ⟨u, a, htouched, rfl⟩ := h
  rw [State.raise_fcsr, htouched.1]

/-- An instruction keeps FCSR, or it is a compare and sets CC only. -/
theorem exec_fcsr {i : Instr} {s t : State} (h : exec i s = .next t) :
    t.fcsr = s.fcsr ∨
      ((∃ c fs ft, i = .cCondS c fs ft) ∨ ∃ c fs ft, i = .cCondD c fs ft) ∧ ∃ b, t.fcsr = (s.setCc b).fcsr := by
  obtain ⟨k, p, rfl, -, -⟩ | ⟨cs, e, b, hfault⟩ | ⟨u, hran, ⟨rfl, -⟩ | ⟨o, rfl, -⟩⟩ := exec_cases h
  · exact Or.inl (s.raise_fcsr k p)
  · exact Or.inl hfault.fcsr
  · exact hran.fcsr
  · exact hran.fcsr

/-- Settles O43: FCSR is kept, or a compare has set CC in it, which is bit 23. -/
theorem onlyComparesWriteTheStatusRegister : Obligations.OnlyComparesWriteTheStatusRegister := by
  intro i s t h
  obtain hkept | ⟨hcompare, b, hset⟩ := exec_fcsr h
  · exact ⟨fun hne => absurd hkept hne, fun k _ _ => by rw [hkept]⟩
  · exact ⟨fun _ => hcompare, fun k hk hne => by rw [hset, s.setCc_fcsr_getLsbD b hk hne]⟩

end Sys2Proof.Machine
end

