-- ==== Sys2Proof/Proofs/StoreThenLoad.lean ====
section
/-! SUPPORT. A stored word is read back as it was written (rules R62, R67), and the proof of O54 from it. -/

namespace Sys2Proof.Machine

/-- The stored byte at offset `k` is found at the address `a + k` (modulo 2^32). -/
theorem State.Stored.byteAt_add {s t : State} {a : Word} {bs : List Byte} (h : s.Stored t a bs) {k : Nat}
    (hlen : k < bs.length) (hk : k < 2 ^ 32) : t.byteAt (a + BitVec.ofNat 32 k) = bs[k] := by
  have hoffset : (a + BitVec.ofNat 32 k - a).toNat = k := by
    rw [add_sub_cancel_left, BitVec.toNat_ofNat, Nat.mod_eq_of_lt hk]
  rw [h, hoffset, List.getElem?_eq_getElem hlen, Option.getD_some]

/-- A word is its four bytes put together, the most significant first (rule R62). -/
theorem Word.bytes (v : Word) :
    v.extractLsb' 24 8 ++ v.extractLsb' 16 8 ++ v.extractLsb' 8 8 ++ v.extractLsb' 0 8 = v := by
  rw [BitVec.extractLsb'_append_extractLsb'_eq_extractLsb' (rfl : 24 = 16 + 8),
    BitVec.extractLsb'_append_extractLsb'_eq_extractLsb' (rfl : 16 = 8 + 8),
    BitVec.extractLsb'_append_extractLsb'_eq_extractLsb' (rfl : 8 = 0 + 8), BitVec.extractLsb'_eq_self]

/-- The word at the address where the bytes of `v` are stored is `v`. -/
theorem State.Stored.wordAt {s t : State} {a v : Word} (h : s.Stored t a (wordBytes v)) : t.wordAt a = v := by
  have hbyte {k : Nat} (hk : k < 4) : t.byteAt (a + BitVec.ofNat 32 k) = (wordBytes v)[k]'hk :=
    h.byteAt_add hk (by omega)
  have h0 : t.byteAt a = v.extractLsb' 0 8 := by rw [← add_zero a]; exact hbyte (k := 0) (by decide)
  have h1 : t.byteAt (a + 1) = v.extractLsb' 8 8 := hbyte (k := 1) (by decide)
  have h2 : t.byteAt (a + 2) = v.extractLsb' 16 8 := hbyte (k := 2) (by decide)
  have h3 : t.byteAt (a + 3) = v.extractLsb' 24 8 := hbyte (k := 3) (by decide)
  rw [State.wordAt, h0, h1, h2, h3, Word.bytes]

/-- Settles O54: the write stores the bytes of `v`, paging keeps every byte, and the read puts them together. -/
theorem storeThenLoadGivesTheValue : Obligations.StoreThenLoadGivesTheValue := by
  intro s t a v hwf haligned hwrite
  obtain ⟨-, hstored, htwf, -, -⟩ := State.writeWord_done hwf haligned hwrite
  refine ⟨htwf, hstored, fun u u' w hpaging huwf hread => ?_⟩
  obtain ⟨hw, -, -⟩ := State.readWord_done huwf hread
  calc w = u.wordAt a := hw
    _ = t.wordAt a := hpaging.wordAt a
    _ = v := hstored.wordAt

end Sys2Proof.Machine
end

