-- ==== Sys2Proof/Proofs/ReservedWord.lean ====
section
/-! SUPPORT. The step of the core at an accessible PC is the run of the word there (rule R36), and the proof of O47. -/

namespace Sys2Proof.Machine

/-- Rule R36 steps 1 and 2: with the PC aligned and accessible, the fetch gives the word there, after paging only. -/
theorem State.coreStep_of_accessible {s : State} (hwf : s.memWf) (haligned : s.pc.toNat % 4 = 0)
    (hacc : s.accessible s.pc false) :
    ∃ u, s.OnlyPaging u ∧ u.memWf ∧ s.coreStep = u.runWord (s.wordAt s.pc) := by
  obtain ⟨u, hread, hpaging, huwf⟩ := State.readWord_of_accessible hwf hacc
  exact ⟨u, hpaging, huwf, by rw [State.coreStep, State.fetch, if_pos haligned, hread]⟩

/-- Rule R125: the run of a word that decodes to no instruction. -/
theorem State.runWord_of_undecoded (s : State) {w : Word} (h : ∀ i, decode w ≠ .ok i) :
    s.runWord w = .next (s.raise .reservedInstruction w) := by
  unfold State.runWord
  cases hdecode : decode w
  case error => rfl
  case ok i => exact absurd hdecode (h i)

/-- Settles O47: the fetch pages only, and the run of the word it gives raises. -/
theorem undecodedWordIsReserved : Obligations.UndecodedWordIsReserved := by
  intro s hwf haligned hacc w hundecoded
  obtain ⟨u, hpaging, -, hstep⟩ := State.coreStep_of_accessible hwf haligned hacc
  exact ⟨u, u.raise .reservedInstruction w, hpaging, hstep.trans (u.runWord_of_undecoded hundecoded),
    u.raise_raised _ _⟩

end Sys2Proof.Machine
end

