-- ==== Sys2Proof/Proofs/OpcodeTable.lean ====
section
/-! SUPPORT. When a word matches a row of the opcode table, said field by field (rules R111, R120), that the opcode maps
decode the words of the rows and no others, and the proof of O4 from it. -/

namespace Sys2Proof

/-! ## Matching a row, by fields -/

/-- The word is in the row. -/
def Row.Matches (r : Row) (w : Word) : Prop := w &&& r.mask = r.value

theorem Word.eq_iff_fields (v w : Word) :
    v = w ↔ opOf v = opOf w ∧ rsOf v = rsOf w ∧ rtOf v = rtOf w ∧ rdOf v = rdOf w ∧ shamtOf v = shamtOf w ∧
      functOf v = functOf w := by
  constructor
  · rintro rfl
    exact ⟨rfl, rfl, rfl, rfl, rfl, rfl⟩
  · rintro ⟨hop, hrs, hrt, hrd, hshamt, hfunct⟩
    rw [← rWord_fields v, ← rWord_fields w, hop, hrs, hrt, hrd, hshamt, hfunct]

/-- The fields of mask and value are written out as bits, so that `simp` computes them for a row of the table. -/
theorem Row.matches_iff (r : Row) (w : Word) :
    r.Matches w ↔
      opOf w &&& r.mask.extractLsb' 26 6 = r.value.extractLsb' 26 6 ∧
      rsOf w &&& r.mask.extractLsb' 21 5 = r.value.extractLsb' 21 5 ∧
      rtOf w &&& r.mask.extractLsb' 16 5 = r.value.extractLsb' 16 5 ∧
      rdOf w &&& r.mask.extractLsb' 11 5 = r.value.extractLsb' 11 5 ∧
      shamtOf w &&& r.mask.extractLsb' 6 5 = r.value.extractLsb' 6 5 ∧
      functOf w &&& r.mask.extractLsb' 0 6 = r.value.extractLsb' 0 6 := by
  rw [Row.Matches, Word.eq_iff_fields]
  simp only [opOf, rsOf, rtOf, rdOf, shamtOf, functOf, BitVec.extractLsb'_and]

theorem and_31 (b : BitVec 5) : b &&& 31#5 = b := BitVec.and_allOnes

theorem and_63 (b : BitVec 6) : b &&& 63#6 = b := BitVec.and_allOnes

theorem condMarkOf_eq (w : Word) : condMarkOf w = (functOf w).extractLsb' 4 2 := by
  rw [functOf, condMarkOf, BitVec.extractLsb'_extractLsb'_of_le (by decide)]

/-- The two rows of C.cond.fmt fix only bits 5:4 of funct (rule R118). -/
theorem functOf_and_48 (w : Word) : functOf w &&& 48#6 = 48#6 ↔ condMarkOf w = 3#2 := by
  have hmark : ∀ b : BitVec 6, b &&& 48#6 = 48#6 ↔ b.extractLsb' 4 2 = 3#2 := by decide
  rw [hmark, condMarkOf_eq]

/-! ## The rows are disjoint -/

theorem opcodeRows_values_differ :
    opcodeRows.Pairwise fun r r' => r.value &&& r'.mask ≠ r'.value &&& r.mask := by decide

/-- What a word in two rows has under both masks, the values of both rows say. -/
theorem Row.Matches.values_agree {r r' : Row} {w : Word} (h : r.Matches w) (h' : r'.Matches w) :
    r.value &&& r'.mask = r'.value &&& r.mask := by
  rw [← h, ← h', BitVec.and_assoc, BitVec.and_assoc, BitVec.and_comm r.mask]

theorem opcodeRows_disjoint : opcodeRows.Pairwise fun r r' => ∀ w : Word, ¬(r.Matches w ∧ r'.Matches w) :=
  opcodeRows_values_differ.imp fun hdiffer _ ⟨h, h'⟩ => hdiffer (h.values_agree h')

/-! ## Every word that decodes is in the row of its mnemonic -/

/-- The word is in a row of the table that has the instruction's mnemonic. -/
def InRow (w : Word) (i : Instr) : Prop := ∃ r ∈ opcodeRows, r.mnemonic = i.mnemonic ∧ r.Matches w

/-- If an opcode map gives an instruction for the word, the word is in that instruction's row. -/
def DecodedInRow (w : Word) (x : Except Reject Instr) : Prop := ∀ i, x = .ok i → InRow w i

/-- The row is found by its mnemonic, which computes for every instruction, whatever its operands. -/
theorem inRow_of_find {w : Word} {i : Instr} {r : Row} (hrow : opcodeRows.find? (·.mnemonic == i.mnemonic) = some r)
    (h : r.Matches w) : InRow w i :=
  ⟨r, List.mem_of_find?_eq_some hrow, beq_iff_eq.mp (List.find?_some hrow :), h⟩

theorem decodedInRow_ok {w : Word} {i : Instr} : DecodedInRow w (.ok i) ↔ InRow w i := by
  simp [DecodedInRow]

theorem decodedInRow_error {w : Word} {e : Reject} : DecodedInRow w (.error e) := by
  simp [DecodedInRow]

theorem decodedInRow_whenZero {w : Word} {zero : Bool} {i : Instr} :
    DecodedInRow w (whenZero zero i) ↔ (zero = true → InRow w i) := by
  cases zero <;> simp [whenZero, decodedInRow_ok, decodedInRow_error]

theorem decodedInRow_bySubFunction {w : Word} {two three : Instr} (h2 : shamtOf w = 2#5 → InRow w two)
    (h3 : shamtOf w = 3#5 → InRow w three) : DecodedInRow w (bySubFunction w two three) := by
  unfold bySubFunction
  split
  · next h => exact decodedInRow_ok.mpr (h2 h)
  · next h => exact decodedInRow_ok.mpr (h3 h)
  · exact decodedInRow_error

/-- Rule R115. -/
theorem decodeSpecial_inRow {w : Word} (hop : opOf w = 0x00#6) : DecodedInRow w (decodeSpecial w) := by
  unfold decodeSpecial
  split
  case h_15 | h_16 | h_17 | h_18 =>
    refine decodedInRow_bySubFunction ?_ ?_
    all_goals exact fun _ => inRow_of_find rfl (by simp [Row.matches_iff, *])
  all_goals simp only [decodedInRow_ok, decodedInRow_error, decodedInRow_whenZero, Bool.and_eq_true, beq_iff_eq]
  all_goals intros; exact inRow_of_find rfl (by simp [Row.matches_iff, *])

/-- Rule R116. -/
theorem decodeRegimm_inRow {w : Word} (hop : opOf w = 0x01#6) : DecodedInRow w (decodeRegimm w) := by
  unfold decodeRegimm
  split
  case h_5 => exact decodedInRow_error
  all_goals exact decodedInRow_ok.mpr (inRow_of_find rfl (by simp [Row.matches_iff, *]))

/-- Rule R118, fmt S. -/
theorem decodeFmtS_inRow {w : Word} (hop : opOf w = 0x11#6) (hfmt : rsOf w = 0x10#5) :
    DecodedInRow w (decodeFmtS w) := by
  unfold decodeFmtS
  split
  case h_9 =>
    split
    · simp only [decodedInRow_whenZero, beq_iff_eq]
      exact fun hshamt => inRow_of_find rfl (by simp [Row.matches_iff, functOf_and_48, *])
    · exact decodedInRow_error
  all_goals simp only [decodedInRow_ok, decodedInRow_whenZero, beq_iff_eq]
  all_goals intros; exact inRow_of_find rfl (by simp [Row.matches_iff, *])

/-- Rule R118, fmt D. -/
theorem decodeFmtD_inRow {w : Word} (hop : opOf w = 0x11#6) (hfmt : rsOf w = 0x11#5) :
    DecodedInRow w (decodeFmtD w) := by
  unfold decodeFmtD
  split
  case h_9 =>
    split
    · simp only [decodedInRow_whenZero, beq_iff_eq]
      exact fun hshamt => inRow_of_find rfl (by simp [Row.matches_iff, functOf_and_48, *])
    · exact decodedInRow_error
  all_goals simp only [decodedInRow_ok, decodedInRow_whenZero, beq_iff_eq]
  all_goals intros; exact inRow_of_find rfl (by simp [Row.matches_iff, *])

/-- Rule R119. -/
theorem decodeFmtW_inRow {w : Word} (hop : opOf w = 0x11#6) (hfmt : rsOf w = 0x14#5) :
    DecodedInRow w (decodeFmtW w) := by
  unfold decodeFmtW
  split
  · simp only [decodedInRow_whenZero, beq_iff_eq]
    exact fun hrt => inRow_of_find rfl (by simp [Row.matches_iff, *])
  · exact decodedInRow_error

/-- Rule R117, row BC1. -/
theorem decodeBc1_inRow {w : Word} (hop : opOf w = 0x11#6) (hrs : rsOf w = 0x08#5) :
    DecodedInRow w (decodeBc1 w) := by
  unfold decodeBc1
  split
  case h_3 => exact decodedInRow_error
  all_goals exact decodedInRow_ok.mpr (inRow_of_find rfl (by simp [Row.matches_iff, *]))

/-- Rule R117. -/
theorem decodeCop1_inRow {w : Word} (hop : opOf w = 0x11#6) : DecodedInRow w (decodeCop1 w) := by
  unfold decodeCop1
  split
  case h_3 hrs => exact decodeBc1_inRow hop hrs
  case h_4 hrs => exact decodeFmtS_inRow hop hrs
  case h_5 hrs => exact decodeFmtD_inRow hop hrs
  case h_6 hrs => exact decodeFmtW_inRow hop hrs
  case h_7 => exact decodedInRow_error
  all_goals simp only [decodedInRow_whenZero, Bool.and_eq_true, beq_iff_eq]
  all_goals exact fun ⟨_, _⟩ => inRow_of_find rfl (by simp [Row.matches_iff, *])

/-- Rule R114. -/
theorem decodeRow_inRow (w : Word) : DecodedInRow w (decodeRow w) := by
  unfold decodeRow
  split
  case h_1 hop => exact decodeSpecial_inRow hop
  case h_2 hop => exact decodeRegimm_inRow hop
  case h_17 hop => exact decodeCop1_inRow hop
  all_goals simp only [decodedInRow_ok, decodedInRow_error, decodedInRow_whenZero, beq_iff_eq]
  all_goals intros; exact inRow_of_find rfl (by simp [Row.matches_iff, *])

/-! ## Every word in a row decodes

A row fixes the fields that the opcode maps ask for; with these put in, the maps compute. -/

/-- No other row of the map has both bits 5:4 of funct set. -/
theorem decodeFmtS_of_condMark {w : Word} (hmark : condMarkOf w = 3#2) :
    decodeFmtS w = whenZero (shamtOf w == 0) (.cCondS (condOf w) (reg (rdOf w)) (reg (rtOf w))) := by
  unfold decodeFmtS
  split
  case h_9 => exact if_pos hmark
  all_goals next hfunct => rw [condMarkOf_eq, hfunct] at hmark; exact absurd hmark (by decide)

/-- No other row of the map has both bits 5:4 of funct set. -/
theorem decodeFmtD_of_condMark {w : Word} (hmark : condMarkOf w = 3#2) :
    decodeFmtD w = whenZero (shamtOf w == 0) (.cCondD (condOf w) (reg (rdOf w)) (reg (rtOf w))) := by
  unfold decodeFmtD
  split
  case h_9 => exact if_pos hmark
  all_goals next hfunct => rw [condMarkOf_eq, hfunct] at hmark; exact absurd hmark (by decide)

/-- The rows of the COP1 maps; the two of C.cond.fmt, the 18th and the 19th, do not fix all of funct. -/
theorem decodeRow_of_rowsFpu (w : Word) : ∀ r ∈ rowsFpu, r.Matches w → ∃ i, decodeRow w = .ok i := by
  simp only [rowsFpu, List.forall_mem_cons, List.not_mem_nil, false_implies, implies_true, and_true, true_and,
    Row.matches_iff, BitVec.reduceExtractLsb', BitVec.and_zero, and_31, and_63, functOf_and_48]
  unfold decodeRow decodeCop1 decodeBc1 decodeFmtW
  and_intros
  on_goal 19 =>
    rintro ⟨hop, hfmt, hshamt, hmark⟩
    simp only [hop, hfmt, decodeFmtD_of_condMark hmark, hshamt]
    exact ⟨_, rfl⟩
  on_goal 18 =>
    rintro ⟨hop, hfmt, hshamt, hmark⟩
    simp only [hop, hfmt, decodeFmtS_of_condMark hmark, hshamt]
    exact ⟨_, rfl⟩
  all_goals
    unfold decodeFmtS decodeFmtD
    intros
    simp only [*]
    exact ⟨_, rfl⟩

theorem decodeRow_of_matches (w : Word) : ∀ r ∈ opcodeRows, r.Matches w → ∃ i, decodeRow w = .ok i := by
  simp only [opcodeRows, List.forall_mem_append]
  refine ⟨⟨⟨⟨⟨⟨⟨⟨?_, ?_⟩, ?_⟩, ?_⟩, ?_⟩, ?_⟩, ?_⟩, decodeRow_of_rowsFpu w⟩, ?_⟩
  all_goals
    simp only [rowsArithmetic, rowsLogical, rowsShift, rowsCompare, rowsBranch, rowsJump, rowsMemory, rowsSystem,
      List.forall_mem_cons, List.not_mem_nil, false_implies, implies_true, and_true, true_and,
      Row.matches_iff, BitVec.reduceExtractLsb', BitVec.and_zero, and_31, and_63]
    unfold decodeRow decodeSpecial bySubFunction decodeRegimm
    and_intros
  all_goals
    intros
    simp only [*]
    exact ⟨_, rfl⟩

theorem decodeRow_ok_iff_matches (w : Word) : (∃ i, decodeRow w = .ok i) ↔ ∃ r ∈ opcodeRows, r.Matches w := by
  constructor
  · rintro ⟨i, hi⟩
    obtain ⟨r, hr, -, hmatches⟩ := decodeRow_inRow w i hi
    exact ⟨r, hr, hmatches⟩
  · rintro ⟨r, hr, hmatches⟩
    exact decodeRow_of_matches w r hr hmatches

end Sys2Proof

namespace Sys2Proof.Machine

/-- Settles O4: two rows differ in value under both masks, and the opcode maps decode exactly the words of the rows. -/
theorem decodeIsTheOpcodeTable : Obligations.DecodeIsTheOpcodeTable :=
  ⟨rfl, opcodeRows_disjoint, decodeRow_ok_iff_matches, decodeRow_inRow⟩

end Sys2Proof.Machine
end

