-- ==== Sys2Proof/Proofs/Arithmetic.lean ====
section
/-! SUPPORT. The sums, differences and products of words as integers (rules R153, R155, R157 to R161), and the proofs of
O6 and O7 from them. -/

namespace Sys2Proof.Machine

/-- An instruction that ends in `put` completes, and writes its word to its destination. -/
theorem State.put_writes (s : State) (r : Reg) (v : Word) : ∃ t, s.put r v = .next t ∧ s.WroteGpr t r v :=
  ⟨(s.setGpr r v).advance, State.put_next.mpr rfl, s.wroteGpr r v⟩

/-! ## Words and integers -/

/-- A word stands for its unsigned value. -/
theorem Word.ofInt_toNat (a : Word) : BitVec.ofInt 32 a.toNat = a := by
  rw [BitVec.ofInt_natCast, BitVec.ofNat_toNat, BitVec.setWidth_eq]

/-- The word of an integer is the integer modulo 2^32. -/
theorem Word.toNat_ofInt (v : Int) : ((BitVec.ofInt 32 v).toNat : Int) = v % 2 ^ 32 := by
  rw [BitVec.toNat_ofInt, Int.toNat_of_nonneg (Int.emod_nonneg v (by decide))]
  rfl

/-! ## Sums and differences -/

theorem Word.sub_eq_ofInt (a b : Word) : a - b = BitVec.ofInt 32 (a.toNat - b.toNat) := by
  rw [Int.sub_eq_add_neg, BitVec.ofInt_add, BitVec.ofInt_neg, Word.ofInt_toNat, Word.ofInt_toNat,
    BitVec.sub_eq_add_neg]

/-- Rule R113: the immediate stands for its signed value. -/
theorem Word.add_signImm_eq_ofInt (a : Word) (imm : Imm16) :
    a + signImm imm = BitVec.ofInt 32 (a.toNat + imm.toInt) := by
  rw [BitVec.ofInt_add, Word.ofInt_toNat, signImm, BitVec.signExtend]

/-- Settles O6: each word is its integer sum or difference, taken modulo 2^32. -/
theorem wrappingAddAndSubtract : Obligations.WrappingAddAndSubtract := by
  intro s rd rs rt imm
  obtain ⟨t, haddu, hsum⟩ := s.put_writes rd (s.gpr rs + s.gpr rt)
  obtain ⟨u, hsubu, hdifference⟩ := s.put_writes rd (s.gpr rs - s.gpr rt)
  obtain ⟨w, haddiu, himmSum⟩ := s.put_writes rt (s.gpr rs + signImm imm)
  refine ⟨t, u, w, _, _, _, haddu, hsum, BitVec.toNat_add _ _, hsubu, hdifference, ?_, haddiu, himmSum, ?_⟩
  · rw [Word.sub_eq_ofInt, Word.toNat_ofInt]
  · rw [Word.add_signImm_eq_ofInt, Word.toNat_ofInt]

/-! ## Products -/

/-- The low word of the product does not depend on the sign (rule R158). -/
theorem Word.lowProduct_unsigned_eq_signed (a b : Word) :
    BitVec.ofNat 32 (a.toNat * b.toNat) = BitVec.ofInt 32 (a.toInt * b.toInt) := by
  rw [← BitVec.ofInt_natCast, Nat.cast_mul, BitVec.ofInt_mul, BitVec.ofInt_mul, Word.ofInt_toNat, Word.ofInt_toNat,
    BitVec.ofInt_toInt, BitVec.ofInt_toInt]

/-- The high word, rounded down, above the low word: the integer modulo 2^64. -/
theorem Word.ofInt_halves (p : Int) : BitVec.ofInt 32 (p / 2 ^ 32) ++ BitVec.ofInt 32 p = BitVec.ofInt 64 p := by
  apply BitVec.eq_of_toNat_eq
  rw [BitVec.toNat_append, ← Nat.shiftLeft_add_eq_or_of_lt (BitVec.isLt _), Nat.shiftLeft_eq]
  simp only [BitVec.toNat_ofInt]
  omega

theorem Word.ofNat_halves (p : Nat) : BitVec.ofNat 32 (p / 2 ^ 32) ++ BitVec.ofNat 32 p = BitVec.ofNat 64 p := by
  simp only [← BitVec.ofInt_natCast]
  exact Word.ofInt_halves p

/-- The signed product lies between -2^62 and 2^62, so 64 bits hold it. -/
theorem Word.signedProduct_halves (a b : Word) :
    (BitVec.ofInt 32 (a.toInt * b.toInt / 2 ^ 32) ++ BitVec.ofInt 32 (a.toInt * b.toInt)).toInt = a.toInt * b.toInt := by
  have hlower : -2 ^ 62 ≤ a.toInt * b.toInt := BitVec.le_toInt_mul_toInt
  have hupper : a.toInt * b.toInt ≤ 2 ^ 62 := BitVec.toInt_mul_toInt_le
  rw [Word.ofInt_halves, BitVec.toInt_ofInt_eq_self (by decide) (by omega) (by omega)]

/-- The unsigned product is below 2^64, so 64 bits hold it. -/
theorem Word.unsignedProduct_halves (a b : Word) :
    (BitVec.ofNat 32 (a.toNat * b.toNat / 2 ^ 32) ++ BitVec.ofNat 32 (a.toNat * b.toNat)).toNat = a.toNat * b.toNat := by
  have hupper : a.toNat * b.toNat < 2 ^ 32 * 2 ^ 32 := Nat.mul_lt_mul'' a.isLt b.isLt
  rw [Word.ofNat_halves, BitVec.toNat_ofNat, pow_add, Nat.mod_eq_of_lt hupper]

/-- Settles O7: MUL and MULU write one low word; MUH and MUHU write the high words of the two products above it. -/
theorem productHalves : Obligations.ProductHalves := by
  intro s rd rs rt
  have hlow := Word.lowProduct_unsigned_eq_signed (s.gpr rs) (s.gpr rt)
  obtain ⟨t, hmul, hlo⟩ := s.put_writes rd (BitVec.ofInt 32 ((s.gpr rs).toInt * (s.gpr rt).toInt))
  obtain ⟨u, hmuh, hhi⟩ := s.put_writes rd (BitVec.ofInt 32 ((s.gpr rs).toInt * (s.gpr rt).toInt / 2 ^ 32))
  obtain ⟨v, hmulu, hlou⟩ := s.put_writes rd (BitVec.ofNat 32 ((s.gpr rs).toNat * (s.gpr rt).toNat))
  obtain ⟨w, hmuhu, hhiu⟩ := s.put_writes rd (BitVec.ofNat 32 ((s.gpr rs).toNat * (s.gpr rt).toNat / 2 ^ 32))
  refine ⟨_, _, _, t, u, v, w, hmul, hlo, hmuh, hhi, hmulu, hlow ▸ hlou, hmuhu, hhiu,
    Word.signedProduct_halves _ _, ?_⟩
  rw [← hlow]
  exact Word.unsignedProduct_halves _ _

end Sys2Proof.Machine
end

