-- ==== Sys2Proof/Proofs/Logical.lean ====
section
/-! SUPPORT. The bits of a zero-extended immediate (rule R113) and the value of an upper immediate (rules R178, R179),
and the proofs of O10 and O11 from them. -/

namespace Sys2Proof.Machine

/-! ## Immediates -/

theorem zeroImm_getLsbD_of_lt (imm : Imm16) {k : Nat} (h : k < 16) : (zeroImm imm).getLsbD k = imm.getLsbD k := by
  rw [zeroImm, BitVec.getLsbD_setWidth, decide_eq_true (h.trans (by decide)), Bool.true_and]

theorem zeroImm_getLsbD_of_ge (imm : Imm16) {k : Nat} (h : 16 ≤ k) : (zeroImm imm).getLsbD k = false := by
  rw [zeroImm, BitVec.getLsbD_setWidth, BitVec.getLsbD_of_ge imm k h, Bool.and_false]

theorem upperImm_toNat (imm : Imm16) : (upperImm imm).toNat = imm.toNat * 2 ^ 16 := by
  rw [upperImm, BitVec.toNat_append, BitVec.toNat_zero, Nat.or_zero, Nat.shiftLeft_eq]

/-! ## Register forms -/

/-- Settles O10: each form puts the word whose bits are the operation on the bits of the operands. -/
theorem logicalRegisterForms : Obligations.LogicalRegisterForms := by
  intro s rd rs rt
  obtain ⟨t, hand, ha⟩ := s.put_writes rd (s.gpr rs &&& s.gpr rt)
  obtain ⟨u, hor, ho⟩ := s.put_writes rd (s.gpr rs ||| s.gpr rt)
  obtain ⟨v, hxor, hx⟩ := s.put_writes rd (s.gpr rs ^^^ s.gpr rt)
  obtain ⟨w, hnor, hn⟩ := s.put_writes rd (~~~(s.gpr rs ||| s.gpr rt))
  refine ⟨_, _, _, _, t, u, v, w, hand, ha, hor, ho, hxor, hx, hnor, hn, fun k hk => ⟨?_, ?_, ?_, ?_⟩⟩
  · exact BitVec.getLsbD_and
  · exact BitVec.getLsbD_or
  · exact BitVec.getLsbD_xor
  · rw [BitVec.getLsbD_not, BitVec.getLsbD_or, decide_eq_true hk, Bool.true_and]

/-! ## Immediate forms -/

/-- Settles O11: the low bits of the zero-extended immediate are its own and the high bits are false; the upper
immediate is the immediate times 2^16. -/
theorem logicalImmediateForms : Obligations.LogicalImmediateForms := by
  intro s rt rs imm
  obtain ⟨t, handi, ha⟩ := s.put_writes rt (s.gpr rs &&& zeroImm imm)
  obtain ⟨u, hori, ho⟩ := s.put_writes rt (s.gpr rs ||| zeroImm imm)
  obtain ⟨v, hxori, hx⟩ := s.put_writes rt (s.gpr rs ^^^ zeroImm imm)
  obtain ⟨w, haui, hsum⟩ := s.put_writes rt (s.gpr rs + upperImm imm)
  obtain ⟨y, hlui, hupper⟩ := s.put_writes rt (upperImm imm)
  refine ⟨_, _, _, _, _, t, u, v, w, y, handi, ha, hori, ho, hxori, hx, haui, hsum, hlui, hupper,
    fun k hk => ?low, fun k hk _ => ?high, ?sum, upperImm_toNat imm⟩
  case low => simp [zeroImm_getLsbD_of_lt imm hk]
  case high => simp [zeroImm_getLsbD_of_ge imm hk]
  case sum => rw [BitVec.toNat_add, upperImm_toNat]

end Sys2Proof.Machine
end

