-- ==== Sys2Proof/Proofs/Shifts.lean ====
section
/-! SUPPORT. The shifts as a multiplication and as divisions (rules R186 to R191), and the proof of O12 from them. -/

namespace Sys2Proof.Machine

theorem Word.toNat_shiftLeft_eq_mul (a : Word) (n : Nat) : (a <<< n).toNat = a.toNat * 2 ^ n % 2 ^ 32 := by
  rw [BitVec.toNat_shiftLeft, Nat.shiftLeft_eq]

theorem Word.toNat_ushiftRight_eq_div (a : Word) (n : Nat) : (a >>> n).toNat = a.toNat / 2 ^ n := by
  rw [BitVec.toNat_ushiftRight, Nat.shiftRight_eq_div_pow]

/-- `Int` division by a positive number rounds down, as the arithmetic shift does. -/
theorem Word.toInt_sshiftRight_eq_div (a : Word) (n : Nat) : (a.sshiftRight n).toInt = a.toInt / 2 ^ n := by
  rw [BitVec.toInt_sshiftRight, Int.shiftRight_eq_div_pow, Nat.cast_pow, Nat.cast_ofNat]

/-- Rules R189 to R191: the low five bits of a register are its value modulo 32. -/
theorem shiftAmount_eq_mod (a : Word) : shiftAmount a = a.toNat % 32 := by
  rw [shiftAmount, BitVec.extractLsb'_toNat, Nat.shiftRight_zero]

/-- Settles O12: each shift is the multiplication or the division by the power of two of its amount. -/
theorem shiftResults : Obligations.ShiftResults := by
  intro s rd rt rs shamt
  obtain ⟨t, hsll, hl⟩ := s.put_writes rd (s.gpr rt <<< shamt.toNat)
  obtain ⟨u, hsrl, hr⟩ := s.put_writes rd (s.gpr rt >>> shamt.toNat)
  obtain ⟨v, hsra, ha⟩ := s.put_writes rd ((s.gpr rt).sshiftRight shamt.toNat)
  obtain ⟨w, hsllv, hlv⟩ := s.put_writes rd (s.gpr rt <<< shiftAmount (s.gpr rs))
  obtain ⟨x, hsrlv, hrv⟩ := s.put_writes rd (s.gpr rt >>> shiftAmount (s.gpr rs))
  obtain ⟨y, hsrav, hav⟩ := s.put_writes rd ((s.gpr rt).sshiftRight (shiftAmount (s.gpr rs)))
  rw [← shiftAmount_eq_mod]
  exact ⟨_, _, _, _, _, _, t, u, v, w, x, y,
    hsll, hl, Word.toNat_shiftLeft_eq_mul _ _,
    hsrl, hr, Word.toNat_ushiftRight_eq_div _ _,
    hsra, ha, Word.toInt_sshiftRight_eq_div _ _,
    hsllv, hlv, Word.toNat_shiftLeft_eq_mul _ _,
    hsrlv, hrv, Word.toNat_ushiftRight_eq_div _ _,
    hsrav, hav, Word.toInt_sshiftRight_eq_div _ _⟩

end Sys2Proof.Machine
end

