-- ==== Sys2Proof/Proofs/Compare.lean ====
section
/-! SUPPORT. The value of a sign-extended immediate (rule R113) and the word of a comparison (rule R195), signed and
unsigned, and the proof of O13 from them. -/

namespace Sys2Proof.Machine

theorem signImm_toInt (imm : Imm16) : (signImm imm).toInt = imm.toInt :=
  BitVec.toInt_signExtend_of_le (by decide)

/-- Rule R199: read unsigned, a sign-extended immediate is its signed value modulo 2^32. -/
theorem signImm_toNat (imm : Imm16) : ((signImm imm).toNat : Int) = imm.toInt % 2 ^ 32 := by
  rw [signImm, BitVec.signExtend, Word.toNat_ofInt]

theorem boolWord_slt (a b : Word) : boolWord (a.slt b) = if a.toInt < b.toInt then 1 else 0 := by
  simp only [boolWord, BitVec.slt_iff_toInt_lt]

theorem boolWord_ult (a b : Word) : boolWord (a.ult b) = if a.toNat < b.toNat then 1 else 0 := by
  simp only [boolWord, BitVec.ult_iff_toNat_lt]

/-- Settles O13: each form puts the word of its comparison, and the immediate stands for its signed value, modulo 2^32
where the comparison is unsigned. -/
theorem compareResults : Obligations.CompareResults := by
  intro s rd rs rt imm
  obtain ⟨t, hslt, ht⟩ := s.put_writes rd (boolWord ((s.gpr rs).slt (s.gpr rt)))
  obtain ⟨u, hsltu, hu⟩ := s.put_writes rd (boolWord ((s.gpr rs).ult (s.gpr rt)))
  obtain ⟨v, hslti, hv⟩ := s.put_writes rt (boolWord ((s.gpr rs).slt (signImm imm)))
  obtain ⟨w, hsltiu, hw⟩ := s.put_writes rt (boolWord ((s.gpr rs).ult (signImm imm)))
  refine ⟨t, u, v, w, hslt, ?slt, hsltu, ?sltu, hslti, ?slti, hsltiu, ?sltiu⟩
  case slt => rwa [boolWord_slt] at ht
  case sltu => rwa [boolWord_ult] at hu
  case slti => rwa [boolWord_slt, signImm_toInt] at hv
  case sltiu => simpa only [boolWord_ult, ← Int.ofNat_lt, signImm_toNat] using hw

end Sys2Proof.Machine
end

