-- ==== Sys2Proof/Proofs/LoadStore.lean ====
section
/-! SUPPORT. The value of a little-endian half-word and word (rule R62), what an aligned load and an aligned store give
(rule R236), and the proofs of O19, O20 and O22 from them. -/

namespace Sys2Proof.Machine

/-! ## Little-endian values -/

theorem Byte.toNat_append {w : Nat} (hi : BitVec w) (lo : Byte) : (hi ++ lo).toNat = lo.toNat + 256 * hi.toNat := by
  rw [BitVec.toNat_append, ← Nat.shiftLeft_add_eq_or_of_lt lo.isLt, Nat.shiftLeft_eq]
  omega

theorem State.halfAt_toNat (s : State) (a : Word) :
    (s.halfAt a).toNat = (s.byteAt a).toNat + 256 * (s.byteAt (a + 1)).toNat :=
  Byte.toNat_append _ _

/-- The half-word is negative when the top bit of its high byte is set. -/
theorem State.halfAt_toInt (s : State) (a : Word) :
    (s.halfAt a).toInt = (((s.byteAt a).toNat + 256 * (s.byteAt (a + 1)).toNat : Nat) : Int) -
      (if 128 ≤ (s.byteAt (a + 1)).toNat then 65536 else 0) := by
  rw [BitVec.toInt_eq_toNat_cond, State.halfAt_toNat]
  have hlow : (s.byteAt a).toNat < 256 := (s.byteAt a).isLt
  split <;> split <;> omega

theorem State.wordAt_toNat (s : State) (a : Word) :
    (s.wordAt a).toNat = (s.byteAt a).toNat + 256 * (s.byteAt (a + 1)).toNat + 65536 * (s.byteAt (a + 2)).toNat +
      16777216 * (s.byteAt (a + 3)).toNat := by
  rw [State.wordAt, Byte.toNat_append, Byte.toNat_append, Byte.toNat_append]
  omega

/-! ## Aligned loads -/

/-- Paging, then the write-back and the move of the PC, is a load. -/
theorem State.OnlyPaging.loadedGpr {s u : State} (h : s.OnlyPaging u) (r : Reg) (v : Word) :
    s.LoadedGpr (u.setGpr r v).advance r v := by
  obtain ⟨hframe, hself, hother⟩ := u.wroteGpr r v
  obtain ⟨hpaging, hbytes⟩ := h
  refine ⟨?frame, hself, fun q hq => ?register, fun x => ?byte⟩
  case frame => rw [hframe, hpaging]
  case register => exact (hother q hq).trans (State.gpr_congr (by rw [hpaging]) q)
  case byte => rw [hframe]; exact hbytes x

/-- Rule R236: an aligned load whose read only pages completes, and loads its word. -/
theorem State.load_loads {α : Type} {s : State} {a : Word} {n : Nat} (read : State → Access α) {x : α} (rt : Reg)
    (value : α → Word) (haligned : a.toNat % n = 0)
    (hread : ∃ u, read s = .done x u ∧ s.OnlyPaging u ∧ u.memWf) :
    ∃ t, s.load a n read (fun y u => u.setGpr rt (value y)) = .next t ∧ s.LoadedGpr t rt (value x) := by
  obtain ⟨u, hdone, hpaging, -⟩ := hread
  exact ⟨_, State.load_next.mpr (.inr ⟨haligned, .inr ⟨x, u, hdone, rfl⟩⟩), hpaging.loadedGpr rt _⟩

/-- Settles O19: each load reads the byte, half-word or word at the address and extends it. -/
theorem integerLoads : Obligations.IntegerLoads := by
  intro s rt base offset hwf a b hacc
  have hbyte := State.readByte_of_accessible hwf hacc
  have hhalf := State.readHalf_of_accessible hwf hacc
  have hword := State.readWord_of_accessible hwf hacc
  have hb0 : b 0 = (s.byteAt a).toNat := congrArg (fun x => (s.byteAt x).toNat) (add_zero a)
  rw [hb0]
  refine ⟨?lb, ?lbu, fun h2 => ⟨?lh, ?lhu⟩, fun h4 => ?lw⟩
  case lb =>
    obtain ⟨t, hexec, hloads⟩ := State.load_loads (·.readByte a) rt (BitVec.signExtend 32) (Nat.mod_one _) hbyte
    exact ⟨t, _, hexec, hloads, BitVec.toInt_signExtend_of_le (by decide)⟩
  case lbu =>
    obtain ⟨t, hexec, hloads⟩ := State.load_loads (·.readByte a) rt (BitVec.setWidth 32) (Nat.mod_one _) hbyte
    exact ⟨t, _, hexec, hloads, BitVec.toNat_setWidth_of_le (by decide)⟩
  case lh =>
    obtain ⟨t, hexec, hloads⟩ := State.load_loads (·.readHalf a) rt (BitVec.signExtend 32) h2 hhalf
    exact ⟨t, _, hexec, hloads, (BitVec.toInt_signExtend_of_le (by decide)).trans (s.halfAt_toInt a)⟩
  case lhu =>
    obtain ⟨t, hexec, hloads⟩ := State.load_loads (·.readHalf a) rt (BitVec.setWidth 32) h2 hhalf
    exact ⟨t, _, hexec, hloads, (BitVec.toNat_setWidth_of_le (by decide)).trans (s.halfAt_toNat a)⟩
  case lw =>
    obtain ⟨t, hexec, hloads⟩ := State.load_loads (·.readWord a) rt id h4 hword
    exact ⟨t, _, hexec, hloads, s.wordAt_toNat a⟩

/-! ## LL -/

/-- Rule R31: hold the reservation of an address. -/
def State.reserve (s : State) (a : Word) : State := { s with llBit := true, llAddr := a }

theorem State.reserve_setGpr (s : State) (r : Reg) (v a : Word) :
    (s.setGpr r v).reserve a = (s.reserve a).setGpr r v := by
  unfold State.setGpr
  split <;> rfl

/-- Paging does not depend on the reservation. -/
theorem State.OnlyPaging.reserve {s u : State} (h : s.OnlyPaging u) (a : Word) :
    (s.reserve a).OnlyPaging (u.reserve a) := by
  obtain ⟨hpaging, hbytes⟩ := h
  exact ⟨congrArg (·.reserve a) hpaging, hbytes⟩

/-- Settles O22: LL is the load of the word, and reserves the address. -/
theorem loadLinkedReserves : Obligations.LoadLinkedReserves := by
  intro s rt base offset hwf a b hacc haligned
  obtain ⟨u, hread, hpaging, -⟩ := State.readWord_of_accessible hwf hacc
  have hexec : exec (.ll rt base offset) s = .next ((u.setGpr rt (s.wordAt a)).reserve a).advance :=
    State.load_next.mpr (.inr ⟨haligned, .inr ⟨_, u, hread, rfl⟩⟩)
  have hloads : (s.reserve a).LoadedGpr ((u.setGpr rt (s.wordAt a)).reserve a).advance rt (s.wordAt a) := by
    rw [State.reserve_setGpr]
    exact (hpaging.reserve a).loadedGpr rt _
  have hb0 : b 0 = (s.byteAt a).toNat := congrArg (fun x => (s.byteAt x).toNat) (add_zero a)
  exact ⟨_, _, hexec, rfl, rfl, hloads, hb0 ▸ s.wordAt_toNat a⟩

/-! ## Aligned stores -/

/-- Rule R236: an aligned store whose write stores the bytes `bs` completes, and stores them. -/
theorem State.store_stores {s u : State} {a : Word} {n : Nat} {write : State → Access Unit} {bs : List Byte}
    (haligned : a.toNat % n = 0) (hwrite : write s = .done () u) (hframe : u = { s with mem := u.mem, env := u.env })
    (hstored : s.Stored u a bs) : ∃ t, s.store a n write = .next t ∧ s.StoredBytes t a bs :=
  ⟨u.advance, State.store_next.mpr (.inr ⟨haligned, .inr ⟨u, hwrite, rfl⟩⟩), congrArg State.advance hframe,
    hstored⟩

/-- Settles O20: each store writes the low bytes of the register at the address. -/
theorem integerStores : Obligations.IntegerStores := by
  intro s rt base offset hwf a b hacc
  refine ⟨?sb, fun h2 => ?sh, fun h4 => ?sw⟩
  case sb =>
    obtain ⟨u, hwrite⟩ := State.writeByte_of_accessible (b 0) hacc
    obtain ⟨hframe, hstored, -, -, -⟩ := State.writeByte_done hwf hwrite
    exact State.store_stores (Nat.mod_one _) hwrite hframe hstored
  case sh =>
    obtain ⟨u, hwrite⟩ := State.writeHalf_of_accessible ((s.gpr rt).extractLsb' 0 16) hacc
    obtain ⟨hframe, hstored, -, -, -⟩ := State.writeHalf_done hwf h2 hwrite
    rw [BitVec.extractLsb'_extractLsb'_of_le (by decide), BitVec.extractLsb'_extractLsb'_of_le (by decide)] at hstored
    exact State.store_stores h2 hwrite hframe hstored
  case sw =>
    obtain ⟨u, hwrite⟩ := State.writeWord_of_accessible (s.gpr rt) hacc
    obtain ⟨hframe, hstored, -, -, -⟩ := State.writeWord_done hwf h4 hwrite
    exact State.store_stores h4 hwrite hframe hstored

end Sys2Proof.Machine
end

