-- ==== Sys2Proof/Proofs/FloatingPoint.lean ====
section
/-! SUPPORT. What each shape of a floating-point instruction writes (rules R257, R262, R280), and the proofs of O28,
O29, O30, O32 and O34 from it and from the laws of rounding. -/

namespace Sys2Proof.Machine

/-! ## Shapes -/

/-- An instruction that ends in `putSingle` completes, and writes its word to its destination. -/
theorem State.putSingle_writes (s : State) (fd : FReg) (v : Word) :
    ∃ t, s.putSingle fd v = .next t ∧ s.WroteFprs t [(fd, v)] :=
  ⟨(s.setFpr fd v).advance, State.putSingle_next.mpr rfl, s.wroteFpr fd v⟩

/-- An instruction that ends in `putDouble` completes, and writes both halves to its destination pair. -/
theorem State.putDouble_writes (s : State) (fd : FReg) (v : DWord) :
    ∃ t, s.putDouble fd v = .next t ∧ s.WroteFprs t [(fd, v.extractLsb' 0 32), (fd + 1, v.extractLsb' 32 32)] :=
  ⟨(s.setFd64 fd v).advance, State.putDouble_next.mpr rfl, s.wroteFd64 fd v⟩

/-- Rule R257: on even registers the check passes. -/
theorem State.whenEven_of_even {s : State} {i : Instr} {doubles : List FReg} {run : State → Result}
    (heven : ∀ r ∈ doubles, r.val % 2 = 0) : s.whenEven i doubles run = run s :=
  if_pos (List.all_eq_true.mpr fun r hr => beq_iff_eq.mpr (heven r hr))

/-- A register holds every pattern of binary32. -/
theorem toNat_ofNat_patterns_S {n : Nat} (h : n < patterns .S) : (BitVec.ofNat 32 n).toNat = n :=
  (BitVec.toNat_ofNat n _).trans (Nat.mod_eq_of_lt h)

/-- A pair holds every pattern of binary64. -/
theorem toNat_ofNat_patterns_D {n : Nat} (h : n < patterns .D) : (BitVec.ofNat 64 n).toNat = n :=
  (BitVec.toNat_ofNat n _).trans (Nat.mod_eq_of_lt h)

/-! ## Arithmetic -/

/-- An instruction that is an arithmetic operation of fmt S computes what the operation computes on patterns. -/
theorem computesS_of_arithS {i : FReg → FReg → FReg → Instr} {op : Fmt → RoundMode → Nat → Nat → Nat}
    {result : RoundMode → FloatVal → FloatVal → Nat → Prop}
    (hexec : ∀ s fd fs ft, exec (i fd fs ft) s = s.arithS op fd fs ft)
    (hop : ∀ rm a b, result rm (unpack .S a) (unpack .S b) (op .S rm a b) ∧ op .S rm a b < patterns .S) :
    ComputesS i result := by
  intro s fd fs ft
  obtain ⟨hresult, hlt⟩ := hop s.rm (s.fpr fs).toNat (s.fpr ft).toNat
  obtain ⟨t, hput, hwrote⟩ := s.putSingle_writes fd (BitVec.ofNat 32 (op .S s.rm (s.fpr fs).toNat (s.fpr ft).toNat))
  refine ⟨t, _, (hexec s fd fs ft).trans hput, hwrote, ?_⟩
  rwa [toNat_ofNat_patterns_S hlt]

/-- The same in fmt D, where the registers are even. -/
theorem computesD_of_arithD {i : FReg → FReg → FReg → Instr} {op : Fmt → RoundMode → Nat → Nat → Nat}
    {result : RoundMode → FloatVal → FloatVal → Nat → Prop}
    (hexec : ∀ s fd fs ft, exec (i fd fs ft) s = s.arithD (i fd fs ft) op fd fs ft)
    (hop : ∀ rm a b, result rm (unpack .D a) (unpack .D b) (op .D rm a b) ∧ op .D rm a b < patterns .D) :
    ComputesD i result := by
  intro s fd fs ft hfd hfs hft
  obtain ⟨hresult, hlt⟩ := hop s.rm (s.fd64 fs).toNat (s.fd64 ft).toNat
  obtain ⟨t, hput, hwrote⟩ := s.putDouble_writes fd (BitVec.ofNat 64 (op .D s.rm (s.fd64 fs).toNat (s.fd64 ft).toNat))
  have heven : ∀ r ∈ [fd, fs, ft], r.val % 2 = 0 := by simp [hfd, hfs, hft]
  refine ⟨t, _, (hexec s fd fs ft).trans ((State.whenEven_of_even heven).trans hput), hwrote, ?_⟩
  rwa [toNat_ofNat_patterns_D hlt]

/-- Settles O28: the four instructions are `fpAdd` and `fpSub` on the patterns, whose result is the sum. -/
theorem floatingPointSums : Obligations.FloatingPointSums :=
  ⟨computesS_of_arithS (fun _ _ _ _ => rfl) (fpAdd_sumIs .S), computesS_of_arithS (fun _ _ _ _ => rfl) (fpSub_sumIs .S),
    computesD_of_arithD (fun _ _ _ _ => rfl) (fpAdd_sumIs .D), computesD_of_arithD (fun _ _ _ _ => rfl) (fpSub_sumIs .D)⟩

/-- Settles O29: the two instructions are `fpMul` on the patterns, whose result is the product. -/
theorem floatingPointProducts : Obligations.FloatingPointProducts :=
  ⟨computesS_of_arithS (fun _ _ _ _ => rfl) (fpMul_productIs .S),
    computesD_of_arithD (fun _ _ _ _ => rfl) (fpMul_productIs .D)⟩

/-- Settles O30: the two instructions are `fpDiv` on the patterns, whose result is the quotient. -/
theorem floatingPointQuotients : Obligations.FloatingPointQuotients :=
  ⟨computesS_of_arithS (fun _ _ _ _ => rfl) (fpDiv_quotientIs .S),
    computesD_of_arithD (fun _ _ _ _ => rfl) (fpDiv_quotientIs .D)⟩

/-! ## Conversions -/

/-- Rule R259: a converted NaN is a NaN. -/
theorem unpack_convert_nan {F G : Fmt} {rm : RoundMode} {x : Nat} (h : unpack F x = .nan) :
    unpack G (convert F G rm x) = .nan := by
  simp only [convert, h]
  exact (fpNan_nan G .cvt x x).1

/-- Rules R276, R277: a converted infinity keeps its sign. -/
theorem unpack_convert_inf {F G : Fmt} {rm : RoundMode} {x : Nat} {neg : Bool} (h : unpack F x = .inf neg) :
    unpack G (convert F G rm x) = .inf neg := by
  simp only [convert, h]
  exact unpack_withSign_inf G neg

/-- Rules R276, R277: a converted finite value is rounded once, from its units to the units of the new format. -/
theorem convert_rounded {F G : Fmt} {rm : RoundMode} {x units : Nat} {neg : Bool} (h : unpack F x = .fin neg units) :
    Rounded G rm neg (units * 2 ^ unitBits G) (2 ^ unitBits F) (convert F G rm x) := by
  simp only [convert, h]
  exact roundUnits_rounded G rm neg _ _ (Nat.two_pow_pos _)

theorem execCvtDS_of_even {fd : FReg} (fs : FReg) (s : State) (hfd : fd.val % 2 = 0) :
    execCvtDS fd fs s = s.putDouble fd (BitVec.ofNat 64 (convert .S .D s.rm (s.fpr fs).toNat)) :=
  State.whenEven_of_even (by simpa using hfd)

theorem execCvtSD_of_even {fs : FReg} (fd : FReg) (s : State) (hfs : fs.val % 2 = 0) :
    execCvtSD fd fs s = s.putSingle fd (BitVec.ofNat 32 (convert .D .S s.rm (s.fd64 fs).toNat)) :=
  State.whenEven_of_even (by simpa using hfs)

/-- Settles O32: each conversion writes the pattern that `intToSingle` or `convert` gives, which fits its register or
pair. -/
theorem conversionsToFloatingPoint : Obligations.ConversionsToFloatingPoint := by
  intro s fd fs
  refine ⟨?cvtSW, fun hfd => ?cvtDS, fun hfs => ?cvtSD⟩
  case cvtSW =>
    obtain ⟨hrounded, hlt⟩ := intToSingle_rounded s.rm (s.fpr fs).toInt
    obtain ⟨t, hput, hwrote⟩ := s.putSingle_writes fd (BitVec.ofNat 32 (intToSingle s.rm (s.fpr fs).toInt))
    refine ⟨t, _, hput, hwrote, ?_⟩
    rwa [toNat_ofNat_patterns_S hlt]
  case cvtDS =>
    obtain ⟨t, hput, hwrote⟩ := s.putDouble_writes fd (BitVec.ofNat 64 (convert .S .D s.rm (s.fpr fs).toNat))
    refine ⟨t, _, (execCvtDS_of_even fs s hfd).trans hput, hwrote, ?_⟩
    rw [toNat_ofNat_patterns_D (convert_lt ..)]
    split
    case h_1 h => exact unpack_convert_nan h
    case h_2 h => exact unpack_convert_inf h
    case h_3 h => exact convert_S_D h
  case cvtSD =>
    obtain ⟨t, hput, hwrote⟩ := s.putSingle_writes fd (BitVec.ofNat 32 (convert .D .S s.rm (s.fd64 fs).toNat))
    refine ⟨t, _, (execCvtSD_of_even fd s hfs).trans hput, hwrote, ?_⟩
    rw [toNat_ofNat_patterns_S (convert_lt ..)]
    split
    case h_1 h => exact unpack_convert_nan h
    case h_2 h => exact unpack_convert_inf h
    case h_3 h => exact convert_rounded h

/-! ## Compares -/

/-- Rules R281, R282: CC becomes 1 exactly when `c` holds; no other bit of FCSR and nothing else but the PC changes. -/
def State.Compared (s t : State) (c : Prop) : Prop :=
  (t = { s with fcsr := t.fcsr, pc := s.npc, npc := s.npc + 4, ds := false } ∧
    ∀ k < 32, k ≠ 23 → t.fcsr.getLsbD k = s.fcsr.getLsbD k) ∧ (t.fcsr.getLsbD 23 = true ↔ c)

/-- The move of the PC after CC is set to whether a condition holds is a compare by that condition. -/
theorem State.compared_setCc (s : State) (cond : BitVec 4) (x y : FloatVal) :
    s.Compared (s.setCc (conditionHolds cond (relate x y))).advance (ConditionTrue cond x y) := by
  refine ⟨⟨rfl, fun k hk hne => s.setCc_fcsr_getLsbD _ hk hne⟩, ?_⟩
  have hcc : (s.setCc (conditionHolds cond (relate x y))).advance.fcsr.getLsbD 23 = conditionHolds cond (relate x y) :=
    s.cc_setCc _
  rw [hcc, conditionHolds_iff]

theorem execCCondD_of_even (cond : BitVec 4) {fs ft : FReg} (s : State) (hfs : fs.val % 2 = 0) (hft : ft.val % 2 = 0) :
    execCCondD cond fs ft s = .next (s.setCc (conditionHolds cond
      (relate (unpack .D (s.fd64 fs).toNat) (unpack .D (s.fd64 ft).toNat)))).advance :=
  State.whenEven_of_even (by simp [hfs, hft])

/-- Settles O34: each compare sets CC to whether its condition holds of the two values. -/
theorem floatingPointCompares : Obligations.FloatingPointCompares := by
  intro s cond fs ft
  exact ⟨⟨_, rfl, s.compared_setCc cond _ _⟩,
    fun hfs hft => ⟨_, execCCondD_of_even cond s hfs hft, s.compared_setCc cond _ _⟩⟩

end Sys2Proof.Machine
end

