-- ==== Sys2Proof/Proofs/Moves.lean ====
section
/-! SUPPORT. The moves between the general registers, the floating-point registers, HI and LO (rules R285, R286, R312 to
R316), and the proof of O35. -/

namespace Sys2Proof.Machine

/-- Settles O35: the moves to a general register put a word, MTC1 puts a single, and the others are their update and the
move of the PC. -/
theorem registerMovesAndNop : Obligations.RegisterMovesAndNop := by
  intro s r fs
  obtain ⟨t, hmfc1, ht⟩ := s.put_writes r (s.fpr fs)
  obtain ⟨u, hmtc1, hu⟩ := s.putSingle_writes fs (s.gpr r)
  obtain ⟨v, hmfhi, hv⟩ := s.put_writes r s.hi
  obtain ⟨w, hmflo, hw⟩ := s.put_writes r s.lo
  exact ⟨t, u, v, w, hmfc1, ht, hmtc1, hu, hmfhi, hv, hmflo, hw, rfl, rfl, rfl⟩

end Sys2Proof.Machine
end

