-- ==== Sys2Proof/Proofs/UnknownService.lean ====
section
/-! SUPPORT. The numbers without a service (rules R310, R336), and the proof of O41. -/

namespace Sys2Proof.Machine

/-- Rule R336: 0, 11, 12 and every number from 17 on name no service. -/
theorem Service.ofNumber_eq_none {n : Word} (h : n = 0 ∨ n = 11 ∨ n = 12 ∨ 17 ≤ n.toNat) :
    Service.ofNumber n = none := by
  obtain rfl | rfl | rfl | hlarge := h
  · rfl
  · rfl
  · rfl
  · unfold Service.ofNumber
    split
    case h_15 => rfl
    all_goals omega

/-- Settles O41: the number names no service, so SYSCALL is one raise of its own word. -/
theorem unknownServiceIsReserved : Obligations.UnknownServiceIsReserved := by
  intro s code hunknown
  have hraise : execSyscall code s = .next (s.raise .reservedInstruction (encode (.syscall code))) :=
    execSyscall_next.mpr (Or.inl ⟨Service.ofNumber_eq_none hunknown, rfl⟩)
  exact ⟨_, hraise, s.raise_raised _ _⟩

end Sys2Proof.Machine
end

