-- ==== Sys2Proof/Proofs/Invariant.lean ====
section
/-! SUPPORT. What a step of the core can do (rules R36, R356), that it keeps the invariant, and the proof of O51. -/

namespace Sys2Proof.Machine

/-! ## What an instruction cannot have changed before the PC moves -/

theorem Ran.pc {i : Instr} {s u : State} (h : Ran i s u) : u.pc = s.pc := by rw [h.frame]

theorem Ran.npc {i : Instr} {s u : State} (h : Ran i s u) : u.npc = s.npc := by rw [h.frame]

theorem Ran.exc {i : Instr} {s u : State} (h : Ran i s u) : u.exc = s.exc := by rw [h.frame]

theorem Ran.running {i : Instr} {s u : State} (h : Ran i s u) : u.running = s.running := by rw [h.frame]

theorem Ran.memFailed {i : Instr} {s u : State} (h : Ran i s u) : u.memFailed = s.memFailed := by rw [h.frame]

/-! ## The step of the core -/

/-- What a fetch that is done gives: the word, in a state where memory may have been paged. -/
theorem State.fetch_done {s u : State} {w : Word} (h : s.fetch = .done w u) : s.Touched u := by
  unfold State.fetch at h
  split at h
  · exact (s.readWord_sound s.pc).done h
  · simp at h

/-- The two ways a fetch raises: a misaligned PC, and a failed memory. -/
theorem State.fetch_raised {s t : State} (h : s.fetch = .raised t) :
    t = s.raise .addressErrorFetch s.pc ∨ s.Faulted t := by
  unfold State.fetch at h
  split at h
  · exact .inr ((s.readWord_sound s.pc).raised h)
  · exact .inl (Access.raised.inj h).symm

/-- What the run of a word does: it raises ReservedInstruction, or executes an instruction. -/
theorem State.runWord_cases {s t : State} {w : Word} (h : s.runWord w = .next t) :
    t = s.raise .reservedInstruction w ∨ ∃ i, exec i s = .next t := by
  unfold State.runWord at h
  split at h
  · exact .inr ⟨_, h⟩
  · exact .inl (Host.Outcome.next.inj h).symm

/-- What a step of the core does after paging: it raises, meets a failed memory, or executes an instruction. -/
theorem State.coreStep_cases {s t : State} (h : s.coreStep = .next t) :
    ∃ u, s.Touched u ∧
      ((∃ k p, t = u.raise k p ∧ k ≠ .none ∧ k ≠ .syscall) ∨ u.Faulted t ∨ ∃ i, exec i u = .next t) := by
  unfold State.coreStep at h
  split at h
  · next w u hfetch =>
    refine ⟨u, State.fetch_done hfetch, ?_⟩
    obtain ht | hexec := State.runWord_cases h
    · exact .inl ⟨_, _, ht, by decide, by decide⟩
    · exact .inr (.inr hexec)
  · next u hfetch =>
    obtain rfl := Host.Outcome.next.inj h
    obtain ht | hfault := State.fetch_raised hfetch
    · exact ⟨s, .refl s, .inl ⟨_, _, ht, by decide, by decide⟩⟩
    · exact ⟨s, .refl s, .inr (.inl hfault)⟩

/-! ## The invariant of the idle state

Between a raise and the end of the pass of the run loop RUNNING and EXIT_CODE are both set, so what the parts of a step
keep is the invariant of the state with RUNNING = 0. -/

/-- The state with RUNNING = 0. -/
def State.idle (s : State) : State := { s with running := false }

theorem State.Inv.idle {s : State} (h : s.Inv) : s.idle.Inv := { h with running := fun hrun => nomatch hrun }

theorem State.Inv.of_idle {s : State} (h : s.idle.Inv) (hrun : s.running = true → s.exitCode = .none) : s.Inv :=
  { h with running := hrun }

theorem State.Inv.raise {s : State} (h : s.idle.Inv) {k : ExcKind} (p : Word) (hnone : k ≠ .none)
    (hsyscall : k ≠ .syscall) : (s.raise k p).idle.Inv :=
  { h with
    noInterrupt := by simp [State.idle]
    noSyscall := hsyscall
    recorded := fun _ => hnone
    running := fun hrun => nomatch hrun }

theorem State.Inv.touched {s u : State} (h : s.idle.Inv) (htouched : s.Touched u) : u.idle.Inv := by
  obtain ⟨hframe, hmemory⟩ := htouched
  have hwf : u.memWf := hmemory h.memory
  rw [hframe] at hwf ⊢
  exact { h with memory := hwf }

theorem State.Inv.faulted {s t : State} (h : s.idle.Inv) (hfault : s.Faulted t) : t.idle.Inv := by
  obtain ⟨u, a, htouched, rfl⟩ := hfault
  have hu : State.Inv (State.idle { u with memFailed := true }) := { h.touched htouched with }
  exact hu.raise a (by decide) (by decide)

/-- Setting CC leaves the other bits of FCSR 0. -/
theorem State.setCc_fcsr_masked {s : State} (h : s.fcsr &&& 0xFF7FFFFF = 0) (b : Bool) :
    (s.setCc b).fcsr &&& 0xFF7FFFFF = 0 := by
  rw [State.setCc_fcsr, h]
  cases b <;> decide

/-- The effect of an instruction keeps the invariant, but for the PC, which moves afterwards. -/
theorem Ran.inv_advance {i : Instr} {s u : State} (hran : Ran i s u) (h : s.idle.Inv) : u.advance.idle.Inv where
  memory := hran.memory h.memory
  zero := hran.zero h.zero
  sequential _ := rfl
  fcsr := by
    obtain hkept | ⟨-, b, hset⟩ := hran.fcsr
    · exact (congrArg (· &&& 0xFF7FFFFF) hkept).trans h.fcsr
    · exact (congrArg (· &&& 0xFF7FFFFF) hset).trans (State.setCc_fcsr_masked h.fcsr b)
  noInterrupt := by
    obtain hkept | hexit := hran.exitCode
    · exact fun hint => h.noInterrupt (hkept.symm.trans hint)
    · exact fun hint => nomatch hexit.symm.trans hint
  noSyscall hsyscall := h.noSyscall ((congrArg ExcRecord.kind hran.exc).symm.trans hsyscall)
  recorded hexc := by
    obtain hkept | hexit := hran.exitCode
    · exact fun hnone => h.recorded (hkept.symm.trans hexc) ((congrArg ExcRecord.kind hran.exc).symm.trans hnone)
    · exact nomatch hexit.symm.trans hexc
  running hrun := nomatch hrun

theorem Ran.inv_advanceCti {i : Instr} {s u : State} (hran : Ran i s u) (h : s.idle.Inv) (o : Option Word) :
    (u.advanceCti o).idle.Inv :=
  { hran.inv_advance h with sequential := fun hds => nomatch hds }

theorem State.Inv.exec {s t : State} (h : s.idle.Inv) {i : Instr} (hexec : exec i s = .next t) : t.idle.Inv := by
  obtain ⟨k, p, rfl, hnone, hsyscall⟩ | ⟨cs, e, b, hfault⟩ | ⟨u, hran, ⟨rfl, -⟩ | ⟨o, rfl, -⟩⟩ := exec_cases hexec
  · exact h.raise p hnone hsyscall
  · have hs : State.Inv (State.idle { s with calls := cs, env := e, llBit := b }) := { h with }
    exact hs.faulted hfault
  · exact hran.inv_advance h
  · exact hran.inv_advanceCti h o

theorem State.Inv.coreStep {s t : State} (h : s.idle.Inv) (hstep : s.coreStep = .next t) : t.idle.Inv := by
  obtain ⟨u, htouched, ⟨k, p, rfl, hnone, hsyscall⟩ | hfault | ⟨i, hexec⟩⟩ := State.coreStep_cases hstep
  · exact (h.touched htouched).raise p hnone hsyscall
  · exact (h.touched htouched).faulted hfault
  · exact (h.touched htouched).exec hexec

/-! ## The step of the machine -/

theorem State.Touched.running {s u : State} (h : s.Touched u) : u.running = s.running := by rw [h.1]

theorem State.Faulted.running {s t : State} (h : s.Faulted t) : t.running = s.running := by
  obtain ⟨u, a, htouched, rfl⟩ := h
  exact htouched.running

theorem exec_running {i : Instr} {s t : State} (h : exec i s = .next t) : t.running = s.running := by
  obtain ⟨k, p, rfl, -, -⟩ | ⟨cs, e, b, hfault⟩ | ⟨u, hran, ⟨rfl, -⟩ | ⟨o, rfl, -⟩⟩ := exec_cases h
  · rfl
  · exact hfault.running
  · exact hran.running
  · exact hran.running

theorem State.coreStep_running {s t : State} (h : s.coreStep = .next t) : t.running = s.running := by
  obtain ⟨u, htouched, ⟨k, p, rfl, -, -⟩ | hfault | ⟨i, hexec⟩⟩ := State.coreStep_cases h
  · exact htouched.running
  · exact hfault.running.trans htouched.running
  · exact (exec_running hexec).trans htouched.running

/-- Rule R365: leaving the loop restores the invariant of the running core. -/
theorem State.Inv.leaveLoop {t : State} (h : t.idle.Inv) : t.leaveLoop.Inv := by
  unfold State.leaveLoop
  split
  · next hnone => exact h.of_idle fun _ => hnone
  · exact h

/-- What a pass of the run loop does: it obeys the stop request, or steps the core and may leave. -/
theorem State.loopStep_cases {s t : State} (h : s.loopStep = .next t) :
    t = { s with stopReq := false, exitCode := .manualStop, running := false } ∨
      ∃ u, s.coreStep = .next u ∧ t = u.leaveLoop := by
  unfold State.loopStep at h
  split at h
  · exact .inl (Host.Outcome.next.inj h).symm
  · split at h
    · next u hstep => exact .inr ⟨u, hstep, (Host.Outcome.next.inj h).symm⟩
    · nomatch h
    · nomatch h

/-- While idle, a step of the core keeps the invariant. -/
theorem State.Inv.coreStep_of_idle {s t : State} (h : s.Inv) (hidle : s.running = false)
    (hstep : s.coreStep = .next t) : t.Inv :=
  (h.idle.coreStep hstep).of_idle fun hrun =>
    absurd (hrun.symm.trans ((State.coreStep_running hstep).trans hidle)) (by decide)

/-- Settles O51: each part of the step keeps the invariant of the idle state, and the core leaves the loop with RUNNING
cleared when EXIT_CODE is set. -/
theorem stepKeepsTheInvariant : Obligations.StepKeepsTheInvariant := by
  intro s t h hstep
  unfold step at hstep
  split at hstep
  · obtain rfl | ⟨u, hcore, rfl⟩ := State.loopStep_cases hstep
    · exact { h with
        noInterrupt := by simp
        recorded := fun hexc => nomatch hexc
        running := fun hrun => nomatch hrun }
    · exact (h.idle.coreStep hcore).leaveLoop
  · next hidle => exact h.coreStep_of_idle (by simpa using hidle) hstep

end Sys2Proof.Machine
end

