-- ==== Sys2Proof/Proofs/Encoding.lean ====
section
/-! SUPPORT. The decoder and the encoder are inverse to each other (rules R111 to R123), and the proofs of O2, O3 and
O1. -/

namespace Sys2Proof

/-! ## Decoding an encoding -/

@[simp] theorem reg_zero : reg 0#5 = 0 := rfl

/-- The opcode maps, which know no aliases, read back the fields of an encoding, and give for the aliases the
instructions they stand for. -/
theorem decodeRow_encode (i : Instr) : decodeRow (encode i) = .ok i.core := by
  cases i
  case nop => decide
  case cCondS c fs ft =>
    simp only [encode, decodeRow, decodeCop1, opOf_rWord, rsOf_rWord]
    rw [decodeFmtS_of_condMark (condMarkOf_rWord ..)]
    simp [whenZero, condOf_rWord, Instr.core]
  case cCondD c fs ft =>
    simp only [encode, decodeRow, decodeCop1, opOf_rWord, rsOf_rWord]
    rw [decodeFmtD_of_condMark (condMarkOf_rWord ..)]
    simp [whenZero, condOf_rWord, Instr.core]
  all_goals
    simp [encode, decodeRow, decodeSpecial, bySubFunction, decodeRegimm, decodeCop1, decodeBc1, decodeFmtS, decodeFmtD,
      decodeFmtW, whenZero, Instr.core]

/-- Rule R123: a well-formed instruction is the spelling of the instruction that it stands for. -/
theorem spell_core {i : Instr} (h : i.WellFormed) : spell i.core = i := by
  cases i
  case sll rd rt shamt =>
    refine if_neg fun ⟨hrd, hrt, hshamt⟩ => ?_
    subst hrd hrt hshamt
    exact absurd h (by decide)
  case aui rt rs imm =>
    refine if_neg fun hrs => ?_
    subst hrs
    exact absurd h (by simp [Instr.WellFormed, Instr.wellFormed])
  all_goals rfl

/-- Settles O2: the opcode maps give back the instruction (its core, for the aliases), and the spelling is put back. -/
theorem decodeOfEncodeIsTheInstruction : Obligations.DecodeOfEncodeIsTheInstruction := by
  intro i hwf
  rw [decode, decodeRow_encode, Except.map, spell_core hwf]

/-! ## Encoding what was decoded -/

/-- If an opcode map gives an instruction for the word, the word is its encoding. -/
def EncodedBy (w : Word) (x : Except Reject Instr) : Prop := ∀ i, x = .ok i → encode i = w

theorem encodedBy_ok {w : Word} {i : Instr} : EncodedBy w (.ok i) ↔ encode i = w := by simp [EncodedBy]

theorem encodedBy_error {w : Word} {e : Reject} : EncodedBy w (.error e) := by simp [EncodedBy]

theorem encodedBy_whenZero {w : Word} {zero : Bool} {i : Instr} :
    EncodedBy w (whenZero zero i) ↔ (zero = true → encode i = w) := by
  cases zero <;> simp [whenZero, encodedBy_ok, encodedBy_error]

theorem encodedBy_bySubFunction {w : Word} {two three : Instr} (h2 : shamtOf w = 2#5 → encode two = w)
    (h3 : shamtOf w = 3#5 → encode three = w) : EncodedBy w (bySubFunction w two three) := by
  unfold bySubFunction
  split
  · next h => exact encodedBy_ok.mpr (h2 h)
  · next h => exact encodedBy_ok.mpr (h3 h)
  · exact encodedBy_error

/-- A word of the R format, by the values its fields have. -/
theorem rWord_of_fields {w : Word} {op funct : BitVec 6} {rs rt rd shamt : BitVec 5} (hop : opOf w = op)
    (hrs : rsOf w = rs) (hrt : rtOf w = rt) (hrd : rdOf w = rd) (hshamt : shamtOf w = shamt)
    (hfunct : functOf w = funct) : rWord op rs rt rd shamt funct = w := by
  rw [← hop, ← hrs, ← hrt, ← hrd, ← hshamt, ← hfunct, rWord_fields]

theorem iWord_of_fields {w : Word} {op : BitVec 6} {rs rt : BitVec 5} {imm : Imm16} (hop : opOf w = op)
    (hrs : rsOf w = rs) (hrt : rtOf w = rt) (himm : immOf w = imm) : iWord op rs rt imm = w := by
  rw [← hop, ← hrs, ← hrt, ← himm, iWord_fields]

theorem jWord_of_fields {w : Word} {op : BitVec 6} (hop : opOf w = op) : jWord op (targetOf w) = w := by
  rw [← hop, jWord_fields]

theorem codeWord_of_fields {w : Word} {op funct : BitVec 6} (hop : opOf w = op) (hfunct : functOf w = funct) :
    codeWord op (codeOf w) funct = w := by
  rw [← hop, ← hfunct, codeWord_fields]

/-- Rule R115. -/
theorem decodeSpecial_encoded {w : Word} (hop : opOf w = 0x00#6) : EncodedBy w (decodeSpecial w) := by
  unfold decodeSpecial
  split
  case h_9 | h_10 => exact encodedBy_ok.mpr (codeWord_of_fields hop ‹_›)
  case h_15 | h_16 | h_17 | h_18 =>
    refine encodedBy_bySubFunction ?_ ?_
    all_goals exact fun hshamt => rWord_of_fields hop rfl rfl rfl hshamt ‹_›
  case h_29 => exact encodedBy_error
  all_goals simp only [encodedBy_whenZero, Bool.and_eq_true, beq_iff_eq]
  all_goals intros; apply rWord_of_fields <;> simp [*]

/-- Rule R116. -/
theorem decodeRegimm_encoded {w : Word} (hop : opOf w = 0x01#6) : EncodedBy w (decodeRegimm w) := by
  unfold decodeRegimm
  split
  case h_5 => exact encodedBy_error
  all_goals exact encodedBy_ok.mpr (iWord_of_fields hop rfl ‹_› rfl)

/-- Rule R118, fmt S. -/
theorem decodeFmtS_encoded {w : Word} (hop : opOf w = 0x11#6) (hfmt : rsOf w = 0x10#5) :
    EncodedBy w (decodeFmtS w) := by
  unfold decodeFmtS
  split
  case h_1 | h_2 | h_3 | h_4 => exact encodedBy_ok.mpr (rWord_of_fields hop hfmt rfl rfl rfl ‹_›)
  case h_9 =>
    split
    · next hmark =>
      simp only [encodedBy_whenZero, beq_iff_eq]
      exact fun hshamt => rWord_of_fields hop hfmt rfl rfl hshamt (functOf_fields w hmark).symm
    · exact encodedBy_error
  all_goals
    simp only [encodedBy_whenZero, beq_iff_eq]
    exact fun hrt => rWord_of_fields hop hfmt hrt rfl rfl ‹_›

/-- Rule R118, fmt D. -/
theorem decodeFmtD_encoded {w : Word} (hop : opOf w = 0x11#6) (hfmt : rsOf w = 0x11#5) :
    EncodedBy w (decodeFmtD w) := by
  unfold decodeFmtD
  split
  case h_1 | h_2 | h_3 | h_4 => exact encodedBy_ok.mpr (rWord_of_fields hop hfmt rfl rfl rfl ‹_›)
  case h_9 =>
    split
    · next hmark =>
      simp only [encodedBy_whenZero, beq_iff_eq]
      exact fun hshamt => rWord_of_fields hop hfmt rfl rfl hshamt (functOf_fields w hmark).symm
    · exact encodedBy_error
  all_goals
    simp only [encodedBy_whenZero, beq_iff_eq]
    exact fun hrt => rWord_of_fields hop hfmt hrt rfl rfl ‹_›

/-- Rule R117. -/
theorem decodeCop1_encoded {w : Word} (hop : opOf w = 0x11#6) : EncodedBy w (decodeCop1 w) := by
  unfold decodeCop1
  split
  case h_1 | h_2 =>
    simp only [encodedBy_whenZero, Bool.and_eq_true, beq_iff_eq]
    exact fun ⟨hshamt, hfunct⟩ => rWord_of_fields hop ‹_› rfl rfl hshamt hfunct
  case h_3 =>
    unfold decodeBc1
    split
    case h_3 => exact encodedBy_error
    all_goals exact encodedBy_ok.mpr (iWord_of_fields hop ‹rsOf w = _› ‹_› rfl)
  case h_4 => exact decodeFmtS_encoded hop ‹_›
  case h_5 => exact decodeFmtD_encoded hop ‹_›
  case h_6 =>
    unfold decodeFmtW
    split
    · simp only [encodedBy_whenZero, beq_iff_eq]
      exact fun hrt => rWord_of_fields hop ‹rsOf w = _› hrt rfl rfl ‹_›
    · exact encodedBy_error
  case h_7 => exact encodedBy_error

/-- Rule R114. -/
theorem decodeRow_encoded (w : Word) : EncodedBy w (decodeRow w) := by
  unfold decodeRow
  split
  case h_1 => exact decodeSpecial_encoded ‹_›
  case h_2 => exact decodeRegimm_encoded ‹_›
  case h_3 | h_4 | h_18 => exact encodedBy_ok.mpr (jWord_of_fields ‹_›)
  case h_7 | h_8 =>
    simp only [encodedBy_whenZero, beq_iff_eq]
    exact fun hrt => iWord_of_fields ‹_› rfl hrt rfl
  case h_17 => exact decodeCop1_encoded ‹_›
  case h_33 => exact encodedBy_error
  all_goals exact encodedBy_ok.mpr (iWord_of_fields ‹_› rfl rfl rfl)

/-- The aliases have the encodings of the instructions they stand for. -/
theorem encode_spell (i : Instr) : encode (spell i) = encode i := by
  unfold spell
  split
  case h_1 =>
    split
    · next hzero =>
      obtain ⟨rfl, rfl, rfl⟩ := hzero
      decide
    · rfl
  case h_2 =>
    split
    · next hrs => subst hrs; rfl
    · rfl
  case h_3 => rfl

/-- The decoder gives no term that the aliases spell. -/
theorem spell_wellFormed (i : Instr) : (spell i).WellFormed := by
  cases i
  case sll rd rt shamt =>
    simp only [spell]
    split
    · rfl
    · next hzero => simpa [Instr.WellFormed, Instr.wellFormed, imp_iff_not_or, or_assoc] using hzero
  case aui rt rs imm =>
    simp only [spell]
    split
    · rfl
    · next hrs => simpa [Instr.WellFormed, Instr.wellFormed] using hrs
  all_goals rfl

/-- Settles O3: the opcode maps drop no bit, and spelling the aliases changes no encoding. -/
theorem encodeOfDecodeIsTheWord : Obligations.EncodeOfDecodeIsTheWord := by
  intro w i hdecode
  unfold decode at hdecode
  cases hrow : decodeRow w with
  | error e => simp [hrow, Except.map] at hdecode
  | ok j =>
    obtain rfl : spell j = i := by simpa [hrow, Except.map] using hdecode
    exact ⟨spell_wellFormed j, (encode_spell j).trans (decodeRow_encoded w j hrow)⟩

/-! ## The words of the examples -/

/-- Settles O1: the decoder computes on the sixteen words. -/
theorem decodedWords : Obligations.DecodedWords := by
  unfold Obligations.DecodedWords
  decide

end Sys2Proof
end

