-- ==== Sys2Proof/Proofs/Requests.lean ====
section
/-! SUPPORT. The state after construction and reset, what a request and a bulk read keep, MEM_FAILED along every
transition, and the bulk write (rules R13, R14, R86, R369, R390 to R394); the proofs of O50, O52, O56, O57, O58, O59 and
O60. -/

namespace Sys2Proof.Machine

/-! ## Construction and reset -/

theorem State.initial_inv (p : Params) : (State.initial p).Inv where
  memory := by simp [State.memWf, Memory.wf, State.initial]
  zero := rfl
  sequential _ := rfl
  fcsr := (by decide : (0 : Word) &&& 0xFF7FFFFF = 0)
  noInterrupt := by simp [State.initial]
  noSyscall := by simp [State.initial]
  recorded hexc := nomatch hexc
  running hrun := nomatch hrun

theorem State.initial_gpr (p : Params) (r : Reg) : (State.initial p).gpr r = 0 := by
  simp [State.gpr, State.initial]

theorem State.initial_fpr (p : Params) (r : FReg) : (State.initial p).fpr r = 0 := by
  simp [State.fpr, State.initial]

/-- Rule R60: untouched memory reads as zero. -/
theorem State.initial_byteAt (p : Params) (x : Word) : (State.initial p).byteAt x = 0 := rfl

/-- Settles O50: construction gives each element its value, and no page. -/
theorem invariantAtReset : Obligations.InvariantAtReset := fun p =>
  ⟨State.initial_inv p, State.initial_gpr p, State.initial_fpr p, rfl, rfl, rfl, rfl, rfl, rfl, rfl, rfl, rfl, rfl, rfl,
    rfl, rfl, State.initial_byteAt p⟩

theorem State.resetRequest_inv (s : State) (boot : Word) : (s.resetRequest boot).Inv :=
  { State.initial_inv s.params with sequential := fun _ => rfl }

/-- Settles O57: the reset state is idle, has the parameters it came from, and takes from the state before only what a
reset keeps. -/
theorem resetRequestState : Obligations.ResetRequestState := fun s boot hidle =>
  ⟨s.resetRequest boot, by simp [request, hidle], rfl, rfl⟩

/-- Settles O60: `construct` checks the budget, and a budget that is a positive multiple of the page size is its
quotient times the page size. -/
theorem constructionParameters : Obligations.ConstructionParameters := by
  intro pageBits ramBudget boot strMax hlow hhigh hstr
  constructor
  · intro hbad
    exact dif_neg fun ⟨_, _, hpos, hmultiple, _⟩ => hbad.elim (by omega) (fun hne => hne hmultiple)
  · intro hgood
    obtain ⟨hpos, hmultiple⟩ : 0 < ramBudget ∧ ramBudget % 2 ^ pageBits = 0 := by
      rw [not_or, not_not] at hgood
      exact ⟨Nat.pos_of_ne_zero hgood.1, hgood.2⟩
    have hbits : 12 + (pageBits - 12) = pageBits := by omega
    have hslots : 0 < ramBudget / 2 ^ pageBits :=
      Nat.div_pos (Nat.le_of_dvd hpos (Nat.dvd_of_mod_eq_zero hmultiple)) (Nat.two_pow_pos _)
    refine ⟨_, dif_pos ⟨hlow, hhigh, hpos, hmultiple, hstr⟩, hbits, ?_, rfl, Nat.sub_add_cancel hstr⟩
    simp only [Params.ramBudget, Params.nSlots, Params.pageSize, Params.pageBits, hbits]
    rw [Nat.sub_add_cancel hslots, Nat.div_mul_cancel (Nat.dvd_of_mod_eq_zero hmultiple)]

/-! ## Requests -/

/-- Rule R369: while the core runs, every request but `stop` is refused. -/
theorem request_of_running {s : State} {r : Request} (hrun : s.running = true) (hr : r ≠ .stop) :
    request r s = .refused .requestWhileRunning := by
  cases r
  case stop => exact absurd rfl hr
  all_goals exact if_pos hrun

/-- A request other than `stop` is accepted only while the core is idle. -/
theorem idle_of_request {s t : State} {r : Request} (h : request r s = .next t) (hr : r ≠ .stop) :
    s.running = false := by
  cases hrun : s.running
  case false => rfl
  case true => rw [request_of_running hrun hr] at h; nomatch h

/-- What an accepted request does. -/
theorem request_next {s t : State} {r : Request} (h : request r s = .next t) :
    match r with
    | .stop => t = { s with stopReq := true }
    | .reset boot => t = s.resetRequest boot
    | .start => t = { s with running := true, exitCode := .none }
    | .singleStep => s.running = false ∧ s.coreStep = .next t
    | .writePc v => t = s.writePc v
    | .writeGpr q v => t = s.setGpr q v
    | .ramWrite a bs => t = s.ramWrite a bs := by
  cases r
  case stop => exact (Host.Outcome.next.inj h).symm
  all_goals
    have hidle := idle_of_request h (by simp)
    simp only [request, hidle, Bool.false_eq_true, if_false, Host.Outcome.next.injEq] at h
  case singleStep => exact ⟨hidle, h⟩
  all_goals exact h.symm

theorem State.Inv.setGpr {s : State} (h : s.Inv) (r : Reg) (v : Word) : (s.setGpr r v).Inv where
  memory := State.memWf_setGpr.mpr h.memory
  zero := (Ran.setGpr (i := .nop) (.touched (.refl s)) r v).zero h.zero
  sequential := by simpa using h.sequential
  fcsr := by simpa using h.fcsr
  noInterrupt := by simpa using h.noInterrupt
  noSyscall := by simpa using h.noSyscall
  recorded := by simpa using h.recorded
  running := by simpa using h.running

/-- A bulk access of the host keeps the invariant. -/
theorem State.Inv.hostTouched {s t : State} (h : s.Inv) (htouched : s.HostTouched t) : t.Inv := by
  have hwf : t.memWf := htouched.memory h.memory
  rw [htouched.frame] at hwf ⊢
  exact { h with memory := hwf }

theorem State.Inv.request {s t : State} (h : s.Inv) {r : Request} (hrequest : request r s = .next t) : t.Inv := by
  have hnext := request_next hrequest
  cases r <;> simp only at hnext
  case stop => subst hnext; exact { h with }
  case reset boot => subst hnext; exact s.resetRequest_inv boot
  case start =>
    subst hnext
    exact { h with
      noInterrupt := by simp
      recorded := fun hexc => nomatch hexc
      running := fun _ => rfl }
  case singleStep => exact h.coreStep_of_idle hnext.1 hnext.2
  case writePc v => subst hnext; exact { h with sequential := fun _ => rfl }
  case writeGpr q v => subst hnext; exact h.setGpr q v
  case ramWrite a bs => subst hnext; exact h.hostTouched (s.ramWrite_touched a bs)

theorem State.setGpr_frame (s : State) (r : Reg) (v : Word) :
    s.setGpr r v = { s with gprs := (s.setGpr r v).gprs } := by
  unfold State.setGpr
  split <;> rfl

/-- Settles O58: while RUNNING every request but `stop` takes the branch that refuses it; while idle, the other. -/
theorem requestsOnlyWhileIdle : Obligations.RequestsOnlyWhileIdle := by
  intro s
  refine ⟨fun hrun r hr => request_of_running hrun hr, fun hrun q a n => ?_, fun hidle q v => ?_⟩
  · exact ⟨if_pos hrun, if_pos hrun, if_pos hrun, if_pos hrun, if_pos hrun⟩
  · have hnot : ¬s.running = true := by simp [hidle]
    exact ⟨if_neg hnot, if_neg hnot, if_neg hnot,
      ⟨s.setGpr q v, if_neg hnot, s.setGpr_frame q v, s.gpr_setGpr_self q v, fun r hr => s.gpr_setGpr_of_ne q r v hr⟩,
      if_neg hnot, if_neg hnot, if_neg hnot, if_neg hnot⟩

/-! ## The bulk read -/

/-- A bulk read that is accepted gives what `ramReadBytes` gives. -/
theorem ramRead_ok {s t : State} {a : Word} {n : Nat} {bs : List Byte} (h : ramRead s a n = .ok (bs, t)) :
    s.ramReadBytes a n = (bs, t) := by
  unfold ramRead at h
  split at h
  · nomatch h
  · exact Except.ok.inj h

/-- Settles O52: each request keeps each clause of the invariant, and a bulk read changes only the memory, its failure
and the free inputs. -/
theorem requestsKeepTheInvariant : Obligations.RequestsKeepTheInvariant := by
  intro s t h
  refine ⟨fun r hrequest => h.request hrequest, fun a n bs hread => ?_⟩
  have htouched := s.ramReadBytes_touched a n
  have hdone := State.ramReadBytes_done (a := a) (n := n) h.memory
  rw [ramRead_ok hread] at htouched hdone
  exact ⟨h.hostTouched htouched, htouched.failed, fun hfailed => (hdone hfailed).symm⟩

/-! ## MEM_FAILED -/

theorem State.Touched.memFailed {s u : State} (h : s.Touched u) : u.memFailed = s.memFailed := by rw [h.1]

theorem State.Faulted.memFailed {s t : State} (h : s.Faulted t) : t.memFailed = true := by
  obtain ⟨u, a, -, rfl⟩ := h
  rfl

theorem exec_memFailed {i : Instr} {s t : State} (hfailed : s.memFailed = true) (h : exec i s = .next t) :
    t.memFailed = true := by
  obtain ⟨k, p, rfl, -, -⟩ | ⟨cs, e, b, hfault⟩ | ⟨u, hran, ⟨rfl, -⟩ | ⟨o, rfl, -⟩⟩ := exec_cases h
  · exact hfailed
  · exact hfault.memFailed
  · exact hran.memFailed.trans hfailed
  · exact hran.memFailed.trans hfailed

theorem State.coreStep_memFailed {s t : State} (hfailed : s.memFailed = true) (h : s.coreStep = .next t) :
    t.memFailed = true := by
  obtain ⟨u, htouched, ⟨k, p, rfl, -, -⟩ | hfault | ⟨i, hexec⟩⟩ := State.coreStep_cases h
  · exact htouched.memFailed.trans hfailed
  · exact hfault.memFailed
  · exact exec_memFailed (htouched.memFailed.trans hfailed) hexec

theorem State.leaveLoop_memFailed (s : State) : s.leaveLoop.memFailed = s.memFailed := by
  unfold State.leaveLoop
  split <;> rfl

theorem step_memFailed {s t : State} (hfailed : s.memFailed = true) (h : step s = .next t) : t.memFailed = true := by
  unfold step at h
  split at h
  · obtain rfl | ⟨u, hcore, rfl⟩ := State.loopStep_cases h
    · exact hfailed
    · exact u.leaveLoop_memFailed.trans (State.coreStep_memFailed hfailed hcore)
  · exact State.coreStep_memFailed hfailed h

theorem request_memFailed {s t : State} {r : Request} (hfailed : s.memFailed = true) (h : request r s = .next t) :
    t.memFailed = true := by
  have hnext := request_next h
  cases r <;> simp only at hnext
  case singleStep => exact State.coreStep_memFailed hfailed hnext.2
  case writeGpr q v => rw [hnext, State.setGpr_memFailed, hfailed]
  case ramWrite a bs => subst hnext; exact (s.ramWrite_touched a bs).failed hfailed
  all_goals subst hnext; exact hfailed

/-- Settles O56: no part of a step, no request and no bulk access clears MEM_FAILED. -/
theorem memoryFailureIsForEver : Obligations.MemoryFailureIsForEver := by
  intro s t hfailed htransition
  cases htransition with
  | step h => exact step_memFailed hfailed h
  | request r h => exact request_memFailed hfailed h
  | ramRead a n bs h =>
    have htouched := s.ramReadBytes_touched a n
    rw [ramRead_ok h] at htouched
    exact htouched.failed hfailed

/-! ## The bulk write -/

/-- A bulk write that ends without a failure is the store of its bytes one by one. -/
theorem State.putBytes_of_ramWrite {s : State} {a : Word} {bs : List Byte}
    (h : (s.ramWrite a bs).memFailed = false) : s.putBytes a bs = .done () (s.ramWrite a bs) := by
  induction bs generalizing s a with
  | nil => rfl
  | cons b bs ih =>
    have hok : s.memFailed = false := by
      cases hfailed : s.memFailed
      case false => rfl
      case true => exact absurd (((s.ramWrite_touched a (b :: bs)).failed hfailed).symm.trans h) (by decide)
    simp only [State.ramWrite, hok, Bool.false_eq_true, if_false] at h ⊢
    simp only [State.putBytes, State.writeByte, State.access, hok, Bool.false_eq_true, if_false]
    rcases hacquire : s.mem.acquire s.params.nSlots (s.pageOf a) true s.env with ⟨_ | m, e⟩
    · simp [hacquire] at h
    · rw [hacquire] at h
      exact ih h

/-- Settles O59: the bytes written are stored one by one, and the bulk read gives the bytes stored. -/
theorem bulkWriteThenBulkRead : Obligations.BulkWriteThenBulkRead := by
  intro s t a bs hwf hidle hlen hrequest hok
  obtain rfl : t = s.ramWrite a bs := request_next hrequest
  obtain ⟨-, hstored, htwf⟩ := State.putBytes_done hwf hlen (State.putBytes_of_ramWrite hok)
  refine ⟨hstored, htwf, fun cs u hread hu => ?_⟩
  have hdone := State.ramReadBytes_done (a := a) (n := bs.length) htwf
  rw [ramRead_ok hread] at hdone
  obtain ⟨rfl, -⟩ : cs = _ ∧ _ := hdone hu
  refine List.ext_getElem (by simp) fun k hk hk' => ?_
  rw [List.getElem_map, List.getElem_range]
  exact hstored.byteAt_add hk' (hk'.trans_le hlen)

end Sys2Proof.Machine
end

