-- ==== Sys2Proof/Proofs/RunLoop.lean ====
section
/-! SUPPORT. The pass of the run loop and the single step (rules R365 to R367), and the proofs of O46 and O49. -/

namespace Sys2Proof.Machine

theorem step_of_idle {s : State} (hidle : s.running = false) : step s = s.coreStep := if_neg (by simp [hidle])

theorem step_of_running {s : State} (hrun : s.running = true) : step s = s.loopStep := if_pos hrun

/-- Rule R365: a pass without a stop request is a step of the core, after which the loop may be left. -/
theorem State.loopStep_of_next {s t : State} (hstop : s.stopReq = false) (hstep : s.coreStep = .next t) :
    s.loopStep = .next t.leaveLoop := by
  rw [State.loopStep, if_neg (by simp [hstop]), hstep]

theorem State.runWord_of_decoded (s : State) {w : Word} {i : Instr} (h : decode w = .ok i) :
    s.runWord w = exec i s := by
  rw [State.runWord, h]

/-- Settles O46: the fetch pages only, the word it gives is run, and the loop is left when EXIT_CODE is set. -/
theorem stepRunsTheDecodedInstruction : Obligations.StepRunsTheDecodedInstruction := by
  intro s i hwf haligned hacc hdecode
  obtain ⟨u, hpaging, huwf, hstep⟩ := State.coreStep_of_accessible hwf haligned hacc
  have hcore : s.coreStep = exec i u := hstep.trans (u.runWord_of_decoded hdecode)
  refine ⟨u, hpaging, huwf, fun hidle => (step_of_idle hidle).trans hcore, fun hrun hstop t hexec => ?_⟩
  rw [step_of_running hrun]
  exact State.loopStep_of_next hstop (hcore.trans hexec)

/-- Every step of the core gives a next state (rule R356). -/
theorem State.coreStep_isNext (s : State) : ∃ t, s.coreStep = .next t := by
  unfold State.coreStep
  split
  · next w u _ =>
    unfold State.runWord
    split
    · next i _ => exact exec_isNext i u
    · exact ⟨_, rfl⟩
  · exact ⟨_, rfl⟩

/-- Settles O49: the loop looks at the request before the fetch, and the step of the core never does. -/
theorem runLoopObservesTheStopRequest : Obligations.RunLoopObservesTheStopRequest := by
  intro s
  refine ⟨rfl, fun hrun hstop => (step_of_running hrun).trans (if_pos hstop), fun hidle => ?_⟩
  obtain ⟨t, hstep⟩ := s.coreStep_isNext
  refine ⟨t, (step_of_idle hidle).trans hstep, State.coreStep_stopReq hstep, fun b => ?_⟩
  have hwith : (s.withStop b).coreStep = .next (t.withStop b) := by rw [s.coreStep_withStop b, hstep]; rfl
  exact (step_of_idle (s := s.withStop b) hidle).trans hwith

end Sys2Proof.Machine
end

