-- ==== Sys2Proof/Proofs/Frames.lean ====
section
/-! SUPPORT. What an instruction can change, by the three ways it can end (rules R24 to R26, R31, R356, R357), and the
proofs of O18, O24, O42 and O44. -/

namespace Sys2Proof.Machine

/-! ## A failed access -/

/-- Where an access has met a failed memory, in a state that differs in the calls, the free inputs and LLbit at most,
only what a raise in the step changes has changed. -/
theorem State.Faulted.raisedInStep {s t : State} {cs : List HostCall} {e : Env} {b : Bool}
    (h : State.Faulted { s with calls := cs, env := e, llBit := b } t) : s.RaisedInStep t := by
  obtain ⟨u, a, ⟨hframe, -⟩, rfl⟩ := h
  refine ⟨{ u with memFailed := true, llBit := s.llBit }, .machineError, a, ?_, State.raised_iff.mpr rfl⟩
  rw [hframe]

theorem State.RaisedInStep.frame {s t : State} (h : s.RaisedInStep t) :
    t = { s with exc := t.exc, llBit := false, exitCode := .exception, memFailed := t.memFailed, mem := t.mem,
                 calls := t.calls, env := t.env } := by
  obtain ⟨u, k, p, hframe, hraised⟩ := h
  rw [State.raised_iff.mp hraised, hframe]
  rfl

theorem State.raise_raisedInStep (s : State) (k : ExcKind) (p : Word) : s.RaisedInStep (s.raise k p) :=
  ⟨s, k, p, rfl, s.raise_raised k p⟩

/-! ## The ends of an instruction -/

/-- An instruction ends in an exception of this step, or has had its effect and moved the PC. -/
theorem exec_raised_or_ran {i : Instr} {s t : State} (h : exec i s = .next t) :
    s.RaisedInStep t ∨
      ∃ u, Ran i s u ∧ (t = u.advance ∧ isCti i = false ∨ ∃ o, t = u.advanceCti o ∧ isCti i = true) := by
  obtain ⟨k, p, rfl, -, -⟩ | ⟨cs, e, b, hfault⟩ | hran := exec_cases h
  · exact .inl (s.raise_raisedInStep k p)
  · exact .inl hfault.raisedInStep
  · exact .inr hran

/-- Settles O18: a raise leaves the PC, and the end of any other instruction is `advance`. -/
theorem otherInstructionsAdvanceOrRaise : Obligations.OtherInstructionsAdvanceOrRaise := by
  intro i s t hcti h
  obtain hraised | ⟨u, hran, ⟨rfl, -⟩ | ⟨o, -, hcti'⟩⟩ := exec_raised_or_ran h
  · refine .inr ⟨?_, ?_, ?_, ?_⟩ <;> rw [hraised.frame]
  · exact .inl ⟨hran.npc, congrArg (· + 4) hran.npc, rfl⟩
  · exact absurd (hcti.symm.trans hcti') (by decide)

/-- What an instruction that does not raise does to the reservation. -/
theorem exec_reservation {i : Instr} {s t : State} (h : exec i s = .next t) :
    s.RaisedInStep t ∨ (t.llBit = s.llBit ∧ t.llAddr = s.llAddr) ∨ (∃ rt b o, i = .ll rt b o ∧ t.llBit = true) ∨
      (((∃ rt b o, i = .sc rt b o) ∨ ∃ c, i = .syscall c) ∧ t.llBit = false ∧ t.llAddr = s.llAddr) := by
  obtain hraised | ⟨u, hran, ⟨rfl, -⟩ | ⟨o, rfl, -⟩⟩ := exec_raised_or_ran h
  · exact .inl hraised
  · exact .inr hran.reservation
  · exact .inr hran.reservation

/-- Settles O24: of the ends of an instruction, a raise, SC and SYSCALL clear LLbit, and LL alone sets it and LLaddr. -/
theorem reservationLostOnlyBy : Obligations.ReservationLostOnlyBy := by
  intro i s t h
  obtain hraised | ⟨hbit, haddr⟩ | ⟨rt, b, o, rfl, hbit⟩ | ⟨hclears, hbit, haddr⟩ := exec_reservation h
  case inl =>
    refine ⟨fun _ _ => .inr (.inr hraised), fun hmoved => ?_⟩
    rw [hraised.frame] at hmoved
    simp at hmoved
  case inr.inl =>
    refine ⟨fun hheld hlost => ?_, fun hmoved => ?_⟩
    · exact absurd (hheld.symm.trans (hbit.symm.trans hlost)) (by decide)
    · obtain hmoved | ⟨hclear, hset⟩ := hmoved
      · exact absurd haddr hmoved
      · exact absurd (hclear.symm.trans (hbit.symm.trans hset)) (by decide)
  case inr.inr.inl =>
    exact ⟨fun _ hlost => absurd (hbit.symm.trans hlost) (by decide), fun _ => ⟨rt, b, o, rfl⟩⟩
  case inr.inr.inr =>
    refine ⟨fun _ _ => hclears.imp_right .inl, fun hmoved => ?_⟩
    obtain hmoved | ⟨-, hset⟩ := hmoved
    · exact absurd haddr hmoved
    · exact absurd (hbit.symm.trans hset) (by decide)

/-- Settles O42: an end with EXIT_CODE = EXCEPTION is a raise, and a raise without a failed memory touches no memory. -/
theorem exceptionsArePrecise : Obligations.ExceptionsArePrecise := by
  intro i s t hwf hnone h hexception
  obtain ⟨k, p, rfl, -, -⟩ | ⟨cs, e, b, hfault⟩ | ⟨u, hran, hend⟩ := exec_cases h
  · exact ⟨rfl, fun _ => ⟨rfl, fun _ => rfl⟩⟩
  · exact ⟨hfault.raisedInStep.frame, fun hok => absurd (hfault.memFailed.symm.trans hok) (by decide)⟩
  · have hu : u.exitCode = .exception := by
      obtain ⟨rfl, -⟩ | ⟨o, rfl, -⟩ := hend
      · exact hexception
      · exact hexception
    obtain hkept | hexit := hran.exitCode
    · exact nomatch hnone.symm.trans (hkept.symm.trans hu)
    · exact nomatch hexit.symm.trans hu

/-- Settles O44: a raise keeps HI and LO, and of the instructions that run only MTHI and MTLO write them. -/
theorem onlyTheirMovesWriteHiAndLo : Obligations.OnlyTheirMovesWriteHiAndLo := by
  intro i s t h
  obtain hraised | ⟨u, hran, ⟨rfl, -⟩ | ⟨o, rfl, -⟩⟩ := exec_raised_or_ran h
  · rw [hraised.frame]
    exact ⟨fun hne => absurd rfl hne, fun hne => absurd rfl hne⟩
  · exact ⟨hran.hi.resolve_left, hran.lo.resolve_left⟩
  · exact ⟨hran.hi.resolve_left, hran.lo.resolve_left⟩

end Sys2Proof.Machine
end

