-- ==== Sys2Proof/Proofs/Division.lean ====
section
/-! SUPPORT. Signed overflow by the sign bits (rule R151) and the quotients and remainders as words (rules R162 to
R166), and the proofs of O5, O8 and O9. -/

namespace Sys2Proof.Machine

/-! ## The trapping sums and differences -/

theorem fitsWord_add (a b : Word) :
    fitsWord (a.toInt + b.toInt) = true ↔ ¬(a.msb = b.msb ∧ (a + b).msb ≠ a.msb) := by
  have hoverflow : (a.saddOverflow b = true) ↔ (a.msb = b.msb ∧ (a + b).msb ≠ a.msb) := by
    simp [BitVec.saddOverflow_eq]
  rw [← hoverflow]
  simp only [fitsWord, BitVec.saddOverflow, Bool.and_eq_true, Bool.or_eq_true, decide_eq_true_eq]
  omega

theorem fitsWord_sub (a b : Word) :
    fitsWord (a.toInt - b.toInt) = true ↔ ¬(a.msb ≠ b.msb ∧ (a - b).msb = b.msb) := by
  have hoverflow : (a.ssubOverflow b = true) ↔ (a.msb ≠ b.msb ∧ (a - b).msb = b.msb) := by
    rw [BitVec.ssubOverflow_eq]
    cases a.msb <;> cases b.msb <;> cases (a - b).msb <;> decide
  rw [← hoverflow]
  simp only [fitsWord, BitVec.ssubOverflow, Bool.and_eq_true, Bool.or_eq_true, decide_eq_true_eq]
  omega

theorem Word.ofInt_toInt_add (a b : Word) : BitVec.ofInt 32 (a.toInt + b.toInt) = a + b := by
  rw [BitVec.ofInt_add, BitVec.ofInt_toInt, BitVec.ofInt_toInt]

theorem Word.ofInt_toInt_sub (a b : Word) : BitVec.ofInt 32 (a.toInt - b.toInt) = a - b := by
  rw [Int.sub_eq_add_neg, BitVec.ofInt_add, BitVec.ofInt_neg, BitVec.ofInt_toInt, BitVec.ofInt_toInt,
    BitVec.sub_eq_add_neg]

/-- Rule R151: an instruction that ends in `putSigned` writes the word of an integer that fits, and raises otherwise. -/
theorem State.putSigned_writes_or_raises (s : State) (r : Reg) {v : Int} {w : Word} {overflow : Prop}
    (hw : BitVec.ofInt 32 v = w) (hfits : fitsWord v = true ↔ ¬overflow) :
    (¬overflow → ∃ t, s.putSigned r v = .next t ∧ s.WroteGpr t r w) ∧
      (overflow → ∃ t, s.putSigned r v = .next t ∧ s.Raised t .arithmeticOverflow 0) := by
  subst hw
  constructor
  · intro hno
    obtain ⟨t, hput, hwrote⟩ := s.put_writes r (BitVec.ofInt 32 v)
    exact ⟨t, (if_pos (hfits.mpr hno)).trans hput, hwrote⟩
  · intro hover
    exact ⟨_, if_neg fun hfit => hfits.mp hfit hover, s.raise_raised _ _⟩

/-- Settles O5: the sum or difference fits a signed word exactly when the sign bits show no overflow. -/
theorem trappingAddAndSubtract : Obligations.TrappingAddAndSubtract := by
  intro s rd rs rt imm a b c
  obtain ⟨haddOk, haddTraps⟩ := s.putSigned_writes_or_raises rd (Word.ofInt_toInt_add a b) (fitsWord_add a b)
  obtain ⟨hsubOk, hsubTraps⟩ := s.putSigned_writes_or_raises rd (Word.ofInt_toInt_sub a b) (fitsWord_sub a b)
  obtain ⟨haddiOk, haddiTraps⟩ := s.putSigned_writes_or_raises rt (Word.ofInt_toInt_add a c) (fitsWord_add a c)
  exact ⟨haddOk, haddTraps, hsubOk, hsubTraps, haddiOk, haddiTraps⟩

/-! ## Quotients and remainders -/

/-- Rule R162: the quotient rounded toward zero, which wraps in the one case -2^31 / -1. -/
theorem Word.ofInt_tdiv (a b : Word) : BitVec.ofInt 32 (a.toInt.tdiv b.toInt) = a.sdiv b := by
  apply BitVec.eq_of_toInt_eq
  rw [BitVec.toInt_ofInt, BitVec.toInt_sdiv]

/-- Rule R163. -/
theorem Word.ofInt_tmod (a b : Word) : BitVec.ofInt 32 (a.toInt.tmod b.toInt) = a.srem b := by
  rw [← BitVec.toInt_srem, BitVec.ofInt_toInt]

theorem Word.toInt_ne_zero {b : Word} (hb : b ≠ 0) : b.toInt ≠ 0 := fun h => hb (BitVec.eq_of_toInt_eq h)

/-- The signed division law, with the case that wraps (decision D6). -/
theorem Word.signed_division (a b : Word) :
    if a = 0x80000000 ∧ b = 0xFFFFFFFF then a.sdiv b = 0x80000000 ∧ a.srem b = 0
    else a.toInt = (a.sdiv b).toInt * b.toInt + (a.srem b).toInt := by
  split
  · next hwraps =>
    obtain ⟨rfl, rfl⟩ := hwraps
    decide
  · next hno =>
    have hquotient : (a.sdiv b).toInt = a.toInt.tdiv b.toInt :=
      BitVec.toInt_sdiv_of_ne_or_ne a b (not_and_or.mp hno)
    rw [hquotient, BitVec.toInt_srem, Int.tdiv_mul_add_tmod]

theorem Word.srem_lt {b : Word} (a : Word) (hb : b ≠ 0) : (a.srem b).toInt.natAbs < b.toInt.natAbs := by
  rw [BitVec.toInt_srem, Int.natAbs_tmod]
  exact Nat.mod_lt _ (Int.natAbs_pos.mpr (Word.toInt_ne_zero hb))

/-- A remainder that is not zero has the sign of the dividend. -/
theorem Word.srem_sign {a b : Word} (hr : a.srem b ≠ 0) : (a.srem b).toInt.sign = a.toInt.sign := by
  rw [BitVec.toInt_srem, Int.sign_tmod, if_neg]
  intro hdvd
  refine Word.toInt_ne_zero hr ?_
  rw [BitVec.toInt_srem, Int.tmod_eq_zero_of_dvd hdvd]

theorem Word.unsigned_division {b : Word} (a : Word) (hb : b ≠ 0) :
    a.toNat = (a / b).toNat * b.toNat + (a % b).toNat ∧ (a % b).toNat < b.toNat := by
  have hpos : 0 < b.toNat := Nat.pos_of_ne_zero fun h => hb (BitVec.eq_of_toNat_eq h)
  rw [BitVec.toNat_udiv, BitVec.toNat_umod]
  exact ⟨(Nat.div_add_mod' _ _).symm, Nat.mod_lt _ hpos⟩

theorem Word.ofNat_div (a b : Word) : BitVec.ofNat 32 (a.toNat / b.toNat) = a / b := by
  rw [← BitVec.toNat_udiv, BitVec.ofNat_toNat, BitVec.setWidth_eq]

theorem Word.ofNat_mod (a b : Word) : BitVec.ofNat 32 (a.toNat % b.toNat) = a % b := by
  rw [← BitVec.toNat_umod, BitVec.ofNat_toNat, BitVec.setWidth_eq]

/-- With a nonzero divisor, an instruction that ends in `putQuotient` writes its word to its destination. -/
theorem State.putQuotient_writes (s : State) (r : Reg) {d v w : Word} (hd : d ≠ 0) (hw : v = w) :
    ∃ t, s.putQuotient r d v = .next t ∧ s.WroteGpr t r w := by
  subst hw
  obtain ⟨t, hput, hwrote⟩ := s.put_writes r v
  exact ⟨t, (if_neg hd).trans hput, hwrote⟩

/-- Settles O8: the four words are the signed and unsigned quotient and remainder of the operands. -/
theorem quotientAndRemainder : Obligations.QuotientAndRemainder := by
  intro s rd rs rt hd
  obtain ⟨t, hdiv, hq⟩ := s.putQuotient_writes rd hd (Word.ofInt_tdiv (s.gpr rs) (s.gpr rt))
  obtain ⟨u, hmod, hr⟩ := s.putQuotient_writes rd hd (Word.ofInt_tmod (s.gpr rs) (s.gpr rt))
  obtain ⟨v, hdivu, hqu⟩ := s.putQuotient_writes rd hd (Word.ofNat_div (s.gpr rs) (s.gpr rt))
  obtain ⟨w, hmodu, hru⟩ := s.putQuotient_writes rd hd (Word.ofNat_mod (s.gpr rs) (s.gpr rt))
  obtain ⟨hlaw, hlt⟩ := Word.unsigned_division (s.gpr rs) hd
  exact ⟨_, _, _, _, t, u, v, w, hdiv, hq, hmod, hr, hdivu, hqu, hmodu, hru, Word.signed_division _ _,
    Word.srem_lt _ hd, Word.srem_sign, hlaw, hlt⟩

/-- Settles O9: with a zero divisor `putQuotient` only moves the PC. -/
theorem divisionByZeroWritesNothing : Obligations.DivisionByZeroWritesNothing := by
  intro s rd rs rt hzero
  have honly (v : Word) : s.putQuotient rd (s.gpr rt) v = .next s.advanced := if_pos hzero
  exact ⟨honly _, honly _, honly _, honly _⟩

end Sys2Proof.Machine
end

