-- ==== Sys2Proof/Proofs/Transfers.lean ====
section
/-! SUPPORT. The targets as integers (rules R205, R220) and what a control transfer does outside and inside a delay slot
(rules R206, R207), and the proofs of O14 to O17 and O48. -/

namespace Sys2Proof.Machine

/-! ## Targets -/

/-- Two zero bits below an offset multiply it by 4. -/
theorem Imm16.toInt_append_zeros (offset : Imm16) : (offset ++ 0b00#2).toInt = 4 * offset.toInt := by
  rw [BitVec.toInt_append_zero]
  omega

/-- Rule R205: the target is PC + 4 and four times the signed offset, modulo 2^32. -/
theorem State.branchTarget_toNat (s : State) (offset : Imm16) :
    ((s.branchTarget offset).toNat : Int) = (s.pc.toNat + 4 + 4 * offset.toInt) % 2 ^ 32 := by
  have htarget : s.branchTarget offset = BitVec.ofInt 32 (s.pc.toNat + 4 + 4 * offset.toInt) := by
    rw [BitVec.ofInt_add, BitVec.ofInt_add, Word.ofInt_toNat, ← Imm16.toInt_append_zeros]
    rfl
  rw [htarget, Word.toNat_ofInt]

/-- Rule R220: the region of PC + 4, and the target times 4. -/
theorem State.jumpTarget_toNat (s : State) (target : BitVec 26) :
    (s.jumpTarget target).toNat = (s.pc + 4).toNat / 2 ^ 28 * 2 ^ 28 + 4 * target.toNat := by
  have hregion : ((s.pc + 4).extractLsb' 28 4).toNat = (s.pc + 4).toNat / 2 ^ 28 := by
    rw [BitVec.extractLsb'_toNat, Nat.shiftRight_eq_div_pow]
    exact Nat.mod_eq_of_lt (Nat.div_lt_of_lt_mul (s.pc + 4).isLt)
  have hfields : ((s.pc + 4).extractLsb' 28 4 ++ target).toNat = (s.pc + 4).toNat / 2 ^ 28 * 2 ^ 26 + target.toNat := by
    rw [BitVec.toNat_append, ← Nat.shiftLeft_add_eq_or_of_lt target.isLt, Nat.shiftLeft_eq, hregion]
  rw [State.jumpTarget, BitVec.toNat_append, BitVec.toNat_ofNat, Nat.zero_mod, Nat.or_zero, Nat.shiftLeft_eq, hfields]
  omega

/-! ## Outside a delay slot -/

/-- Rules R206, R36 step 5: a control transfer outside a delay slot completes. -/
theorem State.transfer_transfers {s : State} (hds : s.ds = false) (i : Instr) (link : Option Reg) {o : Option Word}
    {taken : Prop} {target : Word} (htaken : taken → o = some target) (huntaken : ¬taken → o = none) :
    ∃ t, s.transfer i link o = .next t ∧ s.Transferred t link taken target := by
  cases link with
  | none =>
    refine ⟨s.advanceCti o, State.transfer_next.mpr (.inr ⟨hds, s, .inl ⟨rfl, rfl⟩, rfl⟩), rfl, ?_, ?_, ?_, ?_⟩
    · exact fun h => by rw [State.advanceCti_npc, htaken h, Option.getD_some]
    · exact fun h => by rw [State.advanceCti_npc, huntaken h, Option.getD_none]
    · exact fun r hr => nomatch hr
    · exact fun _ _ => rfl
  | some r =>
    refine ⟨(s.setGpr r s.linkAddr).advanceCti o,
      State.transfer_next.mpr (.inr ⟨hds, _, .inr ⟨r, rfl, rfl⟩, rfl⟩), ?_, ?_, ?_, ?_, ?_⟩
    · rw [s.setGpr_frame r]
      rfl
    · exact fun h => by rw [State.advanceCti_npc, htaken h, Option.getD_some]
    · exact fun h => by rw [State.advanceCti_npc, huntaken h, Option.getD_none, State.setGpr_npc]
    · intro q hq
      obtain rfl := Option.mem_some.mp hq
      exact s.gpr_setGpr_self r s.linkAddr
    · exact fun q hq => s.gpr_setGpr_of_ne r q s.linkAddr fun hqr => hq (hqr ▸ rfl)

/-- Rule R205: a branch outside a delay slot goes to its target when its condition holds. -/
theorem State.branch_transfers {s : State} (hds : s.ds = false) (i : Instr) (link : Option Reg) {c : Bool}
    {taken : Prop} (hc : c = true ↔ taken) (offset : Imm16) :
    ∃ t, s.branch i link c offset = .next t ∧ s.Transferred t link taken (s.branchTarget offset) :=
  State.transfer_transfers hds i link (fun h => if_pos (hc.mpr h)) fun h => if_neg fun hctrue => h (hc.mp hctrue)

theorem State.jump_transfers {s : State} (hds : s.ds = false) (i : Instr) (link : Option Reg) (target : Word) :
    ∃ t, s.transfer i link (some target) = .next t ∧ s.Transferred t link True target :=
  State.transfer_transfers hds i link (fun _ => rfl) fun h => absurd trivial h

/-- Settles O14: each branch is `branch` without a link, on its condition. -/
theorem conditionalBranches : Obligations.ConditionalBranches := by
  intro s rs rt offset hds a
  obtain ⟨t1, hbeq, h1⟩ := State.branch_transfers hds (.beq rs rt offset) none
    (beq_iff_eq (a := s.gpr rs) (b := s.gpr rt)) offset
  obtain ⟨t2, hbne, h2⟩ := State.branch_transfers hds (.bne rs rt offset) none
    (bne_iff_ne (a := s.gpr rs) (b := s.gpr rt)) offset
  obtain ⟨t3, hblez, h3⟩ := State.branch_transfers hds (.blez rs offset) none BitVec.sle_iff_toInt_le offset
  obtain ⟨t4, hbgtz, h4⟩ := State.branch_transfers hds (.bgtz rs offset) none BitVec.slt_iff_toInt_lt offset
  obtain ⟨t5, hbltz, h5⟩ := State.branch_transfers hds (.bltz rs offset) none BitVec.slt_iff_toInt_lt offset
  obtain ⟨t6, hbgez, h6⟩ := State.branch_transfers hds (.bgez rs offset) none BitVec.sle_iff_toInt_le offset
  obtain ⟨t7, hbc1f, h7⟩ := State.branch_transfers hds (.bc1f offset) none
    (by simp : (!s.cc) = true ↔ s.cc = false) offset
  obtain ⟨t8, hbc1t, h8⟩ := State.branch_transfers hds (.bc1t offset) none (Iff.refl (s.cc = true)) offset
  exact ⟨_, s.branchTarget_toNat offset, t1, t2, t3, t4, t5, t6, t7, t8, hbeq, h1, hbne, h2, hblez, h3, hbgtz, h4,
    hbltz, h5, hbgez, h6, hbc1f, h7, hbc1t, h8⟩

/-- Settles O15: both are `branch` with R31 as link register, on the condition in the state before the link. -/
theorem linkingBranches : Obligations.LinkingBranches := by
  intro s rs offset hds
  obtain ⟨t, hbltzal, ht⟩ := State.branch_transfers hds (.bltzal rs offset) (some 31) BitVec.slt_iff_toInt_lt offset
  obtain ⟨u, hbgezal, hu⟩ := State.branch_transfers hds (.bgezal rs offset) (some 31) BitVec.sle_iff_toInt_le offset
  exact ⟨_, s.branchTarget_toNat offset, t, u, hbltzal, ht, hbgezal, hu⟩

/-- Settles O16: each jump is `transfer` to its target, which is read in the state before the link. -/
theorem jumpsAndLinks : Obligations.JumpsAndLinks := by
  intro s rd rs target hds
  obtain ⟨t, hj, ht⟩ := State.jump_transfers hds (.j target) none (s.jumpTarget target)
  obtain ⟨u, hjal, hu⟩ := State.jump_transfers hds (.jal target) (some 31) (s.jumpTarget target)
  obtain ⟨v, hjalx, hv⟩ := State.jump_transfers hds (.jalx target) (some 31) (s.jumpTarget target)
  obtain ⟨w, hjr, hw⟩ := State.jump_transfers hds (.jr rs) none (s.gpr rs)
  obtain ⟨x, hjalr, hx⟩ := State.jump_transfers hds (.jalr rd rs) (some rd) (s.gpr rs)
  exact ⟨_, s.jumpTarget_toNat target, t, u, v, w, x, hj, ht, hjal, hu, hjalx, hv, hjr, hw, hjalr, hx⟩

/-! ## In a delay slot -/

/-- Rule R207. -/
theorem State.transfer_of_ds {s : State} (hds : s.ds = true) (i : Instr) (link : Option Reg) (o : Option Word) :
    s.transfer i link o = .next (s.raise .reservedInstruction (encode i)) := if_pos hds

/-- Every control transfer is `transfer`, with itself as the instruction that may raise. -/
theorem exec_eq_transfer {i : Instr} (hcti : isCti i = true) (s : State) :
    ∃ link o, exec i s = s.transfer i link o := by
  cases i
  case beq | bne | blez | bgtz | bltz | bgez | bltzal | bgezal | bc1f | bc1t =>
    simp only [exec, execBeq, execBne, execBlez, execBgtz, execBltz, execBgez, execBltzal, execBgezal, execBc1f,
      execBc1t, State.branch]
    exact ⟨_, _, rfl⟩
  case j | jal | jr | jalr | jalx =>
    simp only [exec, execJ, execJal, execJr, execJalr, execJalx]
    exact ⟨_, _, rfl⟩
  all_goals exact absurd hcti Bool.false_ne_true

/-- Settles O17: in a delay slot a control transfer is one raise, which records the branch. -/
theorem transferInADelaySlotIsReserved : Obligations.TransferInADelaySlotIsReserved := by
  intro i s hcti hds
  obtain ⟨link, o, htransfer⟩ := exec_eq_transfer hcti s
  exact ⟨_, htransfer.trans (State.transfer_of_ds hds i link o), s.raise_raised _ _, if_pos hds, hds⟩

/-! ## A misaligned PC -/

/-- Settles O48: the fetch of a misaligned PC raises before it reads, and JR does not look at its target. -/
theorem misalignedPcRaises : Obligations.MisalignedPcRaises := by
  intro s
  refine ⟨fun hmisaligned => ?_, fun rs hds _ => ?_⟩
  · have hfetch : s.fetch = .raised (s.raise .addressErrorFetch s.pc) := if_neg hmisaligned
    exact ⟨_, by rw [State.coreStep, hfetch], s.raise_raised _ _⟩
  · obtain ⟨t, hjr, hframe, htarget, -⟩ := State.jump_transfers hds (.jr rs) none (s.gpr rs)
    exact ⟨t, hjr, htarget trivial, by rw [hframe]⟩

end Sys2Proof.Machine
end

