-- ==== Sys2Proof/Proofs/MemoryErrors.lean ====
section
/-! SUPPORT. When an access completes and how it raises (rules R63, R83, R85, R86), and the proofs of O21, O45, O53 and
O55. -/

namespace Sys2Proof.Machine

/-! ## One access -/

/-- Settles O53: what an access gives when it is done. -/
theorem accessesAreTransparent : Obligations.AccessesAreTransparent := by
  intro s t a forWrite hwf hdone
  obtain ⟨hpaging, htwf, -, hresident⟩ := State.access_done hwf hdone
  have hpage : t.pageOf a = s.pageOf a := by rw [hpaging.1]; rfl
  exact ⟨hpaging, htwf, hresident⟩

/-- Rules R83, R86: an access that needs no transfer completes. -/
theorem State.accessible_of_noTransfer {s : State} {a : Word} {forWrite : Bool} (hok : s.memFailed = false)
    (h : s.noTransfer a forWrite) : s.accessible a forWrite := by
  cases hslot : s.mem.slotOf (s.pageOf a) with
  | some _ => exact State.accessible_of_resident hok (by rw [hslot]; rfl)
  | none =>
    obtain hresident | ⟨hrecord, hroom⟩ := h
    · rw [hslot] at hresident
      nomatch hresident
    · refine ⟨hok, ?_⟩
      cases forWrite with
      | false => rw [Memory.acquire_read_absent hslot hrecord]; rfl
      | true => rw [Memory.acquire_write_absent hslot hrecord (hroom.resolve_left (by decide))]; rfl

/-- Settles O55: without a transfer nothing can fail, and the one way an access raises sets MEM_FAILED. -/
theorem failureOnlyOnATransfer : Obligations.FailureOnlyOnATransfer := by
  intro s a forWrite
  refine ⟨State.accessible_of_noTransfer, fun t hraised => ?_⟩
  obtain ⟨e, rfl⟩ := State.access_raised hraised
  exact ⟨⟨e, rfl⟩, rfl, rfl⟩

/-! ## Misaligned accesses -/

theorem State.load_of_misaligned {α : Type} {s : State} {a : Word} {n : Nat} (h : a.toNat % n ≠ 0)
    (read : State → Access α) (writeBack : α → State → State) :
    ∃ t, s.load a n read writeBack = .next t ∧ s.Raised t .addressErrorData a :=
  ⟨_, State.load_next.mpr (.inl ⟨h, rfl⟩), s.raise_raised _ _⟩

theorem State.store_of_misaligned {s : State} {a : Word} {n : Nat} (h : a.toNat % n ≠ 0) (write : State → Access Unit) :
    ∃ t, s.store a n write = .next t ∧ s.Raised t .addressErrorData a :=
  ⟨_, State.store_next.mpr (.inl ⟨h, rfl⟩), s.raise_raised _ _⟩

theorem execSc_of_misaligned {s : State} {rt base : Reg} {offset : Imm16}
    (h : (s.effAddr base offset).toNat % 4 ≠ 0) :
    execSc rt base offset s = .next (s.raise .addressErrorData (s.effAddr base offset)) := by
  have haligned : s.aligned (s.effAddr base offset) 4 = .raised (s.raise .addressErrorData (s.effAddr base offset)) :=
    if_neg h
  simp only [execSc, haligned]

/-- LDC1 of an even register is its load. -/
theorem execLdc1_of_even {ft : FReg} (base : Reg) (offset : Imm16) (s : State) (hft : ft.val % 2 = 0) :
    execLdc1 ft base offset s =
      s.load (s.effAddr base offset) 8 (·.readDouble (s.effAddr base offset)) fun v s => s.setFd64 ft v :=
  State.whenEven_of_even (by simpa using hft)

/-- SDC1 of an even register is its store. -/
theorem execSdc1_of_even {ft : FReg} (base : Reg) (offset : Imm16) (s : State) (hft : ft.val % 2 = 0) :
    execSdc1 ft base offset s =
      s.store (s.effAddr base offset) 8 (·.writeDouble (s.effAddr base offset) (s.fd64 ft)) :=
  State.whenEven_of_even (by simpa using hft)

/-- Settles O21: each load and store checks the alignment first. -/
theorem misalignedAccessRaises : Obligations.MisalignedAccessRaises := by
  intro s rt base ft offset a raises
  refine ⟨fun h2 => ⟨State.load_of_misaligned h2 _ _, State.load_of_misaligned h2 _ _, State.store_of_misaligned h2 _⟩,
    fun h4 => ⟨State.load_of_misaligned h4 _ _, State.store_of_misaligned h4 _, State.load_of_misaligned h4 _ _, ?sc,
      State.load_of_misaligned h4 _ _, State.store_of_misaligned h4 _⟩,
    fun h8 hft => ⟨?ldc1, ?sdc1⟩⟩
  case sc => exact ⟨_, execSc_of_misaligned h4, s.raise_raised _ _⟩
  case ldc1 =>
    obtain ⟨t, hload, hraised⟩ := State.load_of_misaligned h8 (·.readDouble a) fun v s => s.setFd64 ft v
    exact ⟨t, (execLdc1_of_even base offset s hft).trans hload, hraised⟩
  case sdc1 =>
    obtain ⟨t, hstore, hraised⟩ := State.store_of_misaligned h8 (·.writeDouble a (s.fd64 ft))
    exact ⟨t, (execSdc1_of_even base offset s hft).trans hstore, hraised⟩

/-! ## A failed memory -/

/-- A read or a write that raises MachineError with the address, and does nothing else. -/
def Access.MachineError {α : Type} (x : Access α) (s : State) (a : Word) : Prop := x = .raised (s.raise .machineError a)

/-- Rule R86: once the memory has failed, every access raises. -/
theorem State.access_of_failed {s : State} (hfailed : s.memFailed = true) (a : Word) (forWrite : Bool) :
    (s.access a forWrite).MachineError s a := if_pos hfailed

theorem Access.MachineError.andThen {α β : Type} {x : Access α} {s : State} {a : Word} (h : x.MachineError s a)
    (k : α → State → Access β) : (x.andThen k).MachineError s a := by
  subst h
  rfl

theorem State.load_of_machineError {α : Type} {s : State} {a : Word} {n : Nat} (haligned : a.toNat % n = 0)
    {read : State → Access α} (h : (read s).MachineError s a) (writeBack : α → State → State) :
    ∃ t, s.load a n read writeBack = .next t ∧ s.Raised t .machineError a :=
  ⟨_, State.load_next.mpr (.inr ⟨haligned, .inl h⟩), s.raise_raised _ _⟩

theorem State.store_of_machineError {s : State} {a : Word} {n : Nat} (haligned : a.toNat % n = 0)
    {write : State → Access Unit} (h : (write s).MachineError s a) :
    ∃ t, s.store a n write = .next t ∧ s.Raised t .machineError a :=
  ⟨_, State.store_next.mpr (.inr ⟨haligned, .inl h⟩), s.raise_raised _ _⟩

/-- Rule R246: SC with the reservation of its address held is the store. -/
theorem execSc_of_held {s : State} {rt base : Reg} {offset : Imm16} (haligned : (s.effAddr base offset).toNat % 4 = 0)
    (hheld : s.llBit = true) (haddr : s.effAddr base offset = s.llAddr) :
    execSc rt base offset s = s.scSuccess rt (s.effAddr base offset) := by
  simp only [execSc, State.aligned, if_pos haligned, if_pos hheld, if_pos haddr]

/-- Settles O45: every access of a failed memory raises, and each load, store and fetch ends with that. -/
theorem failedMemoryRaisesMachineError : Obligations.FailedMemoryRaisesMachineError := by
  intro s rt base ft offset hfailed a raises
  have haccess := State.access_of_failed hfailed
  have hbyte : (s.readByte a).MachineError s a := (haccess a false).andThen _
  have hhalf : (s.readHalf a).MachineError s a := (haccess a false).andThen _
  have hword (x : Word) : (s.readWord x).MachineError s x := (haccess x false).andThen _
  have hdouble : (s.readDouble a).MachineError s a := (hword a).andThen _
  have hwriteByte (b : Byte) : (s.writeByte a b).MachineError s a := (haccess a true).andThen _
  have hwriteHalf (v : Half) : (s.writeHalf a v).MachineError s a := (haccess a true).andThen _
  have hwriteWord (v : Word) : (s.writeWord a v).MachineError s a := (haccess a true).andThen _
  have hwriteDouble (v : DWord) : (s.writeDouble a v).MachineError s a := (hwriteWord _).andThen _
  have h1 : a.toNat % 1 = 0 := Nat.mod_one _
  refine ⟨fun hpc => ?fetch, State.load_of_machineError h1 hbyte _, State.load_of_machineError h1 hbyte _,
    State.store_of_machineError h1 (hwriteByte _),
    fun h2 => ⟨State.load_of_machineError h2 hhalf _, State.load_of_machineError h2 hhalf _,
      State.store_of_machineError h2 (hwriteHalf _)⟩,
    fun h4 => ⟨State.load_of_machineError h4 (hword a) _, State.store_of_machineError h4 (hwriteWord _),
      State.load_of_machineError h4 (hword a) _, State.load_of_machineError h4 (hword a) _,
      State.store_of_machineError h4 (hwriteWord _), fun hheld haddr => ?sc⟩,
    fun h8 hft => ⟨?ldc1, ?sdc1⟩⟩
  case fetch =>
    have hfetch : s.fetch = .raised (s.raise .machineError s.pc) := (if_pos hpc).trans (hword s.pc)
    exact ⟨_, by rw [State.coreStep, hfetch], s.raise_raised _ _⟩
  case sc =>
    have hsc : s.scSuccess rt a = .next (s.raise .machineError a) := State.scSuccess_next.mpr (.inl (hwriteWord _))
    exact ⟨_, (execSc_of_held h4 hheld haddr).trans hsc, s.raise_raised _ _⟩
  case ldc1 =>
    obtain ⟨t, hload, hraised⟩ := State.load_of_machineError h8 (read := (·.readDouble a)) hdouble
      fun v s => s.setFd64 ft v
    exact ⟨t, (execLdc1_of_even base offset s hft).trans hload, hraised⟩
  case sdc1 =>
    obtain ⟨t, hstore, hraised⟩ :=
      State.store_of_machineError h8 (write := (·.writeDouble a (s.fd64 ft))) (hwriteDouble _)
    exact ⟨t, (execSdc1_of_even base offset s hft).trans hstore, hraised⟩

end Sys2Proof.Machine
end

