-- ==== Sys2Proof/Proofs/StoreConditional.lean ====
section
/-! SUPPORT. The ends of SC (rule R246), and the proof of O23 from them. -/

namespace Sys2Proof.Machine

/-- What SC leaves besides memory: `v` in rt, the reservation cleared, the PC moved on, and nothing else changed. -/
def State.ScEnded (s t : State) (rt : Reg) (v : Word) : Prop :=
  t = { s with gprs := t.gprs, pc := s.npc, npc := s.npc + 4, ds := false, llBit := false, mem := t.mem,
               env := t.env } ∧
    t.gpr rt = (if rt = 0 then 0 else v) ∧ ∀ q : Reg, q ≠ rt → t.gpr q = s.gpr q

/-- The end of SC after a state that differs in memory and the free inputs at most. -/
theorem State.scEnded {s u : State} (hframe : u = { s with mem := u.mem, env := u.env }) (rt : Reg) (v : Word) :
    s.ScEnded (State.advance { u.setGpr rt v with llBit := false }) rt v := by
  refine ⟨?_, u.gpr_setGpr_self rt v, fun q hq => ?_⟩
  · rw [u.setGpr_frame rt v, hframe]
    rfl
  · exact (u.gpr_setGpr_of_ne rt q v hq).trans (State.gpr_congr (by rw [hframe]) q)

theorem State.scFailure_fails (s : State) (e : Env) (rt : Reg) :
    ∃ t, State.scFailure { s with env := e } rt = .next t ∧ s.ScEnded t rt 0 ∧ ∀ x : Word, t.byteAt x = s.byteAt x := by
  have hbytes (x : Word) : (State.setGpr { s with env := e } rt 0).byteAt x = s.byteAt x := by
    rw [State.setGpr_frame]
    rfl
  exact ⟨_, rfl, State.scEnded (u := { s with env := e }) rfl rt 0, hbytes⟩

theorem State.scSuccess_stores {s : State} {e : Env} {a : Word} (hwf : s.memWf) (haligned : a.toNat % 4 = 0)
    (hacc : State.accessible { s with env := e } a true) (rt : Reg) :
    ∃ t, State.scSuccess { s with env := e } rt a = .next t ∧ s.ScEnded t rt 1 ∧
      s.Stored t a (wordBytes (s.gpr rt)) := by
  obtain ⟨u, hwrite⟩ := State.writeWord_of_accessible (s.gpr rt) hacc
  obtain ⟨hframe, hstored, -, -, -⟩ := State.writeWord_done (s := { s with env := e }) hwf haligned hwrite
  have hbytes (x : Word) : (u.setGpr rt 1).byteAt x = u.byteAt x := by
    rw [State.setGpr_frame]
    rfl
  refine ⟨_, State.scSuccess_next.mpr (.inr ⟨u, hwrite, rfl⟩), ?_, fun x => (hbytes x).trans (hstored x)⟩
  exact State.scEnded (by rw [hframe]) rt 1

/-! ## Which end -/

theorem execSc_of_clear {s : State} {rt base : Reg} {offset : Imm16} (haligned : (s.effAddr base offset).toNat % 4 = 0)
    (hclear : s.llBit = false) : execSc rt base offset s = s.scFailure rt := by
  simp [execSc, State.aligned, haligned, hclear]

/-- Rule R246, SC_MISMATCH: with another address reserved, SC draws one of its two ends. -/
theorem execSc_of_mismatch {s : State} {rt base : Reg} {offset : Imm16}
    (haligned : (s.effAddr base offset).toNat % 4 = 0) (hheld : s.llBit = true)
    (haddr : s.effAddr base offset ≠ s.llAddr) :
    ∃ e, execSc rt base offset s = State.scSuccess { s with env := e } rt (s.effAddr base offset) ∨
      execSc rt base offset s = State.scFailure { s with env := e } rt := by
  refine ⟨{ s.env with tick := s.env.tick + 1 }, ?_⟩
  simp only [execSc, State.aligned, if_pos haligned, if_pos hheld, if_neg haddr, State.scMismatch]
  cases Config.scMismatch s.env.tick
  · exact .inr rfl
  · exact .inl rfl

/-- Settles O23: LLbit and LLaddr choose the end, and the store completes where the address is accessible. -/
theorem storeConditionalOutcomes : Obligations.StoreConditionalOutcomes := by
  intro s rt base offset hwf a b frame fails succeeds haligned
  refine ⟨fun hclear => ?clear, fun hacc hheld haddr => ?held, fun hok hquiet hheld haddr => ?mismatch⟩
  case clear =>
    obtain ⟨t, hfailure, hfails⟩ := s.scFailure_fails s.env rt
    exact ⟨t, (execSc_of_clear haligned hclear).trans hfailure, hfails⟩
  case held =>
    obtain ⟨t, hsuccess, hsucceeds⟩ := State.scSuccess_stores (e := s.env) hwf haligned hacc rt
    exact ⟨t, (execSc_of_held haligned hheld haddr).trans hsuccess, hsucceeds⟩
  case mismatch =>
    obtain ⟨e, hexec | hexec⟩ := execSc_of_mismatch (rt := rt) haligned hheld haddr
    · have hacc : State.accessible { s with env := e } a true := State.accessible_of_noTransfer hok hquiet
      obtain ⟨t, hsuccess, hsucceeds⟩ := State.scSuccess_stores hwf haligned hacc rt
      exact ⟨t, hexec.trans hsuccess, .inl hsucceeds⟩
    · obtain ⟨t, hfailure, hfails⟩ := s.scFailure_fails e rt
      exact ⟨t, hexec.trans hfailure, .inr hfails⟩

end Sys2Proof.Machine
end

