-- ==== Sys2Proof/Proofs/FloatingPointMemory.lean ====
section
/-! SUPPORT. What an aligned floating-point load and store give (rules R287 to R290), and the proofs of O25 and O26. -/

namespace Sys2Proof.Machine

/-! ## Loads -/

/-- As `WroteFprs`, and the page read may have moved; every byte of memory is as before. -/
def State.LoadedFprs (s t : State) (rs : List (FReg × Word)) : Prop :=
  (t = { s with fprs := t.fprs, pc := s.npc, npc := s.npc + 4, ds := false, mem := t.mem, env := t.env } ∧
    ∀ x : Word, t.byteAt x = s.byteAt x) ∧
    (∀ p ∈ rs, t.fpr p.1 = p.2) ∧ ∀ q : FReg, (∀ p ∈ rs, q ≠ p.1) → t.fpr q = s.fpr q

/-- Paging, then a write of floating-point registers, is a load. -/
theorem State.OnlyPaging.loadedFprs {s u t : State} {rs : List (FReg × Word)} (h : s.OnlyPaging u)
    (hwrote : u.WroteFprs t rs) : s.LoadedFprs t rs := by
  obtain ⟨hframe, hself, hother⟩ := hwrote
  obtain ⟨hpaging, hbytes⟩ := h
  refine ⟨⟨?frame, fun x => ?byte⟩, hself, fun q hq => ?register⟩
  case frame => rw [hframe, hpaging]
  case byte => rw [hframe]; exact hbytes x
  case register => exact (hother q hq).trans (State.fpr_congr (by rw [hpaging]) q)

/-- Rule R236: an aligned load whose read only pages completes, and loads the registers that its write-back writes. -/
theorem State.load_loadsFprs {α : Type} {s : State} {a : Word} {n : Nat} (read : State → Access α) {x : α}
    (writeBack : α → State → State) {rs : List (FReg × Word)} (haligned : a.toNat % n = 0)
    (hread : ∃ u, read s = .done x u ∧ s.OnlyPaging u ∧ u.memWf)
    (hwrote : ∀ u : State, u.WroteFprs (writeBack x u).advance rs) :
    ∃ t, s.load a n read writeBack = .next t ∧ s.LoadedFprs t rs := by
  obtain ⟨u, hdone, hpaging, -⟩ := hread
  exact ⟨_, State.load_next.mpr (.inr ⟨haligned, .inr ⟨x, u, hdone, rfl⟩⟩), hpaging.loadedFprs (hwrote u)⟩

theorem DWord.low_append (hi lo : Word) : (hi ++ lo : DWord).extractLsb' 0 32 = lo :=
  (BitVec.extractLsb'_append_eq_of_add_le (by decide)).trans BitVec.extractLsb'_eq_self

theorem DWord.high_append (hi lo : Word) : (hi ++ lo : DWord).extractLsb' 32 32 = hi :=
  (BitVec.extractLsb'_append_eq_of_le (by decide)).trans BitVec.extractLsb'_eq_self

/-- Settles O25: the word, or the pair of words, is read and written to the register or the pair. -/
theorem floatingPointLoads : Obligations.FloatingPointLoads := by
  intro s base ft offset hwf a w frame hacc
  have hw0 : w 0 = s.wordAt a := congrArg s.wordAt (add_zero a)
  rw [hw0]
  refine ⟨fun h4 => ?lwc1, fun h8 hft => ?ldc1⟩
  case lwc1 =>
    obtain ⟨t, hload, hframe, hself, hother⟩ := State.load_loadsFprs (·.readWord a)
      (fun v u => u.setFpr ft v) h4 (State.readWord_of_accessible hwf hacc) fun u => u.wroteFpr ft (s.wordAt a)
    exact ⟨t, hload, hframe, hself (ft, s.wordAt a) List.mem_cons_self, fun q hq => hother q (by simpa using hq)⟩
  case ldc1 =>
    obtain ⟨t, hload, hframe, hself, hother⟩ := State.load_loadsFprs (·.readDouble a)
      (fun v u => u.setFd64 ft v) h8 (State.readDouble_of_accessible hwf h8 hacc)
      fun u => u.wroteFd64 ft (s.wordAt (a + 4) ++ s.wordAt a)
    rw [DWord.low_append, DWord.high_append] at hself hother
    exact ⟨t, (execLdc1_of_even base offset s hft).trans hload, hframe,
      hself (ft, s.wordAt a) List.mem_cons_self,
      hself (ft + 1, s.wordAt (a + 4)) (List.mem_cons_of_mem _ List.mem_cons_self),
      fun q hq hq' => hother q (by simpa using ⟨hq, hq'⟩)⟩

/-! ## Stores -/

/-- Settles O26: the bytes of the register, or of the pair with the even register first, are stored at the address. -/
theorem floatingPointStores : Obligations.FloatingPointStores := by
  intro s base ft offset hwf a b h hacc
  refine ⟨fun h4 => ?swc1, fun h8 hft => ?sdc1⟩
  case swc1 =>
    obtain ⟨u, hwrite⟩ := State.writeWord_of_accessible (s.fpr ft) hacc
    obtain ⟨hframe, hstored, -, -, -⟩ := State.writeWord_done hwf h4 hwrite
    exact State.store_stores h4 hwrite hframe hstored
  case sdc1 =>
    obtain ⟨u, hwrite⟩ := State.writeDouble_of_accessible (s.fd64 ft) hwf h8 hacc
    obtain ⟨hframe, hstored, -⟩ := State.writeDouble_done hwf h8 hwrite
    rw [State.fd64, DWord.low_append, DWord.high_append] at hstored
    obtain ⟨t, hstore, hbytes⟩ := State.store_stores (write := (·.writeDouble a (s.fd64 ft))) h8 hwrite hframe hstored
    exact ⟨t, (execSdc1_of_even base offset s hft).trans hstore, hbytes⟩

end Sys2Proof.Machine
end

