-- ==== Sys2Proof/Proofs/FloatingPointSigns.lean ====
section
/-! SUPPORT. The check of the registers of doubles (rule R257), the sign bit of a pattern (rules R271 to R274) and the
conversions to a word (rules R278, R279), and the proofs of O27, O31 and O33. -/

namespace Sys2Proof.Machine

/-! ## Odd registers -/

/-- Rule R257: the registers that the fields for doubles name. -/
def doublesOf : Instr → List FReg
  | .addD fd fs ft | .subD fd fs ft | .mulD fd fs ft | .divD fd fs ft => [fd, fs, ft]
  | .absD fd fs | .negD fd fs => [fd, fs]
  | .cvtDS fd _ => [fd]
  | .cvtSD _ fs | .cvtWD _ fs => [fs]
  | .cCondD _ fs ft => [fs, ft]
  | .ldc1 ft _ _ | .sdc1 ft _ _ => [ft]
  | _ => []

/-- An instruction with a field for a double is `whenEven` of these registers. -/
theorem exec_eq_whenEven {i : Instr} (hdoubles : doublesOf i ≠ []) (s : State) :
    ∃ run, exec i s = s.whenEven i (doublesOf i) run := by
  cases i
  case addD | subD | mulD | divD | absD | negD | cvtDS | cvtSD | cvtWD | cCondD | ldc1 | sdc1 =>
    simp only [exec, execAddD, execSubD, execMulD, execDivD, execAbsD, execNegD, execCvtDS, execCvtSD, execCvtWD,
      execCCondD, execLdc1, execSdc1, State.arithD]
    exact ⟨_, rfl⟩
  all_goals exact absurd rfl hdoubles

/-- Rule R257: with an odd register among those checked, the check raises. -/
theorem exec_of_odd {i : Instr} {r : FReg} (hr : r ∈ doublesOf i) (hodd : r.val % 2 = 1) (s : State) :
    ∃ t, exec i s = .next t ∧ s.Raised t .reservedInstruction (encode i) := by
  obtain ⟨run, hexec⟩ := exec_eq_whenEven (List.ne_nil_of_mem hr) s
  have hfails : ¬(doublesOf i).all evenReg = true := fun hall => by
    have heven : r.val % 2 = 0 := beq_iff_eq.mp (List.all_eq_true.mp hall r hr)
    omega
  exact ⟨_, hexec.trans (if_neg hfails), s.raise_raised _ _⟩

/-- Settles O27: each instruction checks the registers that its fields for doubles name, before anything else. -/
theorem oddDoubleRegisterIsReserved : Obligations.OddDoubleRegisterIsReserved := by
  intro s fd fs ft cond base offset raises odd
  have raises_of {i : Instr} (h : ∃ r ∈ doublesOf i, odd r) : raises i := by
    obtain ⟨r, hr, hodd⟩ := h
    exact exec_of_odd hr hodd s
  refine ⟨fun h => ?_, fun h => ?_, fun h => ?_, fun h => ?_, fun h => ?_, fun h => ?_⟩
  · have hodd : ∃ r ∈ [fd, fs, ft], odd r := by simpa using h
    exact ⟨raises_of hodd, raises_of hodd, raises_of hodd, raises_of hodd⟩
  · have hodd : ∃ r ∈ [fd, fs], odd r := by simpa using h
    exact ⟨raises_of hodd, raises_of hodd⟩
  · have hodd : ∃ r ∈ [fs], odd r := by simpa using h
    exact ⟨raises_of hodd, raises_of hodd⟩
  · have hodd : ∃ r ∈ [fd], odd r := by simpa using h
    exact raises_of hodd
  · have hodd : ∃ r ∈ [fs, ft], odd r := by simpa using h
    exact raises_of hodd
  · have hodd : ∃ r ∈ [ft], odd r := by simpa using h
    exact ⟨raises_of hodd, raises_of hodd⟩

/-! ## The sign bit -/

/-- Clear the sign bit of a word. -/
def clearSign (w : Word) : Word := w &&& 0x7FFFFFFF

/-- Flip the sign bit of a word. -/
def flipSign (w : Word) : Word := w ^^^ 0x80000000

theorem clearSign_getLsbD (w : Word) {k : Nat} (hk : k < 31) : (clearSign w).getLsbD k = w.getLsbD k := by
  have hmask : ∀ k < 31, (0x7FFFFFFF : Word).getLsbD k = true := by decide
  rw [clearSign, BitVec.getLsbD_and, hmask k hk, Bool.and_true]

theorem clearSign_msb (w : Word) : (clearSign w).msb = false := by
  have hmask : (0x7FFFFFFF : Word).msb = false := by decide
  rw [clearSign, BitVec.msb_and, hmask, Bool.and_false]

theorem flipSign_getLsbD (w : Word) {k : Nat} (hk : k < 31) : (flipSign w).getLsbD k = w.getLsbD k := by
  have hmask : ∀ k < 31, (0x80000000 : Word).getLsbD k = false := by decide
  rw [flipSign, BitVec.getLsbD_xor, hmask k hk, Bool.xor_false]

theorem flipSign_msb (w : Word) : (flipSign w).msb = !w.msb := by
  have hmask : (0x80000000 : Word).msb = true := by decide
  rw [flipSign, BitVec.msb_xor, hmask, Bool.xor_true]

/-- Clearing the sign bit of a double clears that of its high word. -/
theorem DWord.halves_clearSign (hi lo : Word) :
    ((hi ++ lo : DWord) &&& 0x7FFFFFFFFFFFFFFF).extractLsb' 0 32 = lo ∧
      ((hi ++ lo : DWord) &&& 0x7FFFFFFFFFFFFFFF).extractLsb' 32 32 = clearSign hi := by
  rw [BitVec.extractLsb'_and, BitVec.extractLsb'_and, DWord.low_append, DWord.high_append]
  exact ⟨BitVec.and_allOnes, rfl⟩

/-- Flipping the sign bit of a double flips that of its high word. -/
theorem DWord.halves_flipSign (hi lo : Word) :
    ((hi ++ lo : DWord) ^^^ 0x8000000000000000).extractLsb' 0 32 = lo ∧
      ((hi ++ lo : DWord) ^^^ 0x8000000000000000).extractLsb' 32 32 = flipSign hi := by
  rw [BitVec.extractLsb'_xor, BitVec.extractLsb'_xor, DWord.low_append, DWord.high_append]
  exact ⟨BitVec.xor_zero, rfl⟩

theorem execAbsD_of_even {fd fs : FReg} (s : State) (hfd : fd.val % 2 = 0) (hfs : fs.val % 2 = 0) :
    execAbsD fd fs s = s.putDouble fd (s.fd64 fs &&& 0x7FFFFFFFFFFFFFFF) :=
  State.whenEven_of_even (by simp [hfd, hfs])

theorem execNegD_of_even {fd fs : FReg} (s : State) (hfd : fd.val % 2 = 0) (hfs : fs.val % 2 = 0) :
    execNegD fd fs s = s.putDouble fd (s.fd64 fs ^^^ 0x8000000000000000) :=
  State.whenEven_of_even (by simp [hfd, hfs])

/-- Settles O31: each instruction puts its pattern with the sign bit cleared or flipped. -/
theorem signOperations : Obligations.SignOperations := by
  intro s fd fs
  obtain ⟨t, habs, ha⟩ := s.putSingle_writes fd (clearSign (s.fpr fs))
  obtain ⟨u, hneg, hn⟩ := s.putSingle_writes fd (flipSign (s.fpr fs))
  refine ⟨_, _, clearSign (s.fpr (fs + 1)), flipSign (s.fpr (fs + 1)), t, u, habs, ha, hneg, hn,
    fun hfd hfs => ?doubles,
    fun k hk =>
      ⟨clearSign_getLsbD _ hk, flipSign_getLsbD _ hk, clearSign_getLsbD _ hk, flipSign_getLsbD _ hk⟩,
    clearSign_msb _, flipSign_msb _, clearSign_msb _, flipSign_msb _⟩
  obtain ⟨v, habsD, hv⟩ := s.putDouble_writes fd (s.fd64 fs &&& 0x7FFFFFFFFFFFFFFF)
  obtain ⟨w, hnegD, hw⟩ := s.putDouble_writes fd (s.fd64 fs ^^^ 0x8000000000000000)
  obtain ⟨habsLow, habsHigh⟩ := DWord.halves_clearSign (s.fpr (fs + 1)) (s.fpr fs)
  obtain ⟨hnegLow, hnegHigh⟩ := DWord.halves_flipSign (s.fpr (fs + 1)) (s.fpr fs)
  rw [State.fd64, habsLow, habsHigh] at hv
  rw [State.fd64, hnegLow, hnegHigh] at hw
  exact ⟨v, w, (execAbsD_of_even s hfd hfs).trans habsD, hv, (execNegD_of_even s hfd hfs).trans hnegD, hw⟩

/-! ## Conversions to a word -/

theorem execCvtWD_of_even {fs : FReg} (fd : FReg) (s : State) (hfs : fs.val % 2 = 0) :
    execCvtWD fd fs s = s.putSingle fd (toWord .D s.rm (s.fd64 fs).toNat) :=
  State.whenEven_of_even (by simpa using hfs)

/-- Settles O33: each conversion puts the word that `toWord` gives. -/
theorem conversionsToInteger : Obligations.ConversionsToInteger := by
  intro s fd fs
  refine ⟨?cvtWS, fun hfs => ?cvtWD⟩
  case cvtWS =>
    obtain ⟨t, hput, hwrote⟩ := s.putSingle_writes fd (toWord .S s.rm (s.fpr fs).toNat)
    exact ⟨t, _, hput, hwrote, toWord_is .S s.rm _⟩
  case cvtWD =>
    obtain ⟨t, hput, hwrote⟩ := s.putSingle_writes fd (toWord .D s.rm (s.fd64 fs).toNat)
    exact ⟨t, _, (execCvtWD_of_even fd s hfs).trans hput, hwrote, toWord_is .D s.rm _⟩

end Sys2Proof.Machine
end

