-- ==== Sys2Proof/Proofs/Services.lean ====
section
/-! SUPPORT. SYSCALL as the performance of its service (rules R310, R320 to R335), and the proofs of O36, O37
and O38. -/

namespace Sys2Proof.Machine

/-- Settles O36: BREAK is one raise, whose payload is the code zero-extended. -/
theorem breakRaisesBreakpoint : Obligations.BreakRaisesBreakpoint := fun s code =>
  ⟨_, code.setWidth 32, rfl, s.raise_raised _ _, BitVec.toNat_setWidth_of_le (by decide)⟩

/-! ## SYSCALL -/

/-- Rule R310: the state in which a service is performed, the reservation cleared. -/
def State.unreserved (s : State) : State := { s with llBit := false }

/-- A service that is done ends SYSCALL with the move of the PC. -/
theorem exec_syscall_of_done {s u : State} {v : Service} {n : Word} (code : BitVec 20) (hn : s.gpr 2 = n)
    (hv : Service.ofNumber n = some v) (hdone : v.perform s.unreserved = .done () u) :
    exec (.syscall code) s = .next u.advance :=
  execSyscall_next.mpr (.inr ⟨v, hn ▸ hv, .inr ⟨u, hdone, rfl⟩⟩)

/-- Settles O37: the service of each number is done at once. -/
theorem servicesWithoutInput : Obligations.ServicesWithoutInput := by
  intro s code done
  refine ⟨fun h => ?_, fun h => ?_, fun h => ?_, fun h => ?_, fun h => ?_, fun h => ?_⟩
  · exact exec_syscall_of_done (v := .printInt) code h rfl rfl
  · exact exec_syscall_of_done (v := .printFloat) code h rfl rfl
  · exact exec_syscall_of_done (v := .printDouble) code h rfl rfl
  · exact exec_syscall_of_done (v := .fileClose) code h rfl rfl
  · exact ⟨_, exec_syscall_of_done (v := .sbrk) code h rfl rfl, s.unreserved.wroteGpr 2 0⟩
  · exact exec_syscall_of_done (v := .exit) code h rfl rfl

/-! ## The host's answers -/

theorem Env.drawWord_of_word {e : Env} {a : Word} {rest : List HostAnswer} (h : e.answers = .word a :: rest) :
    e.drawWord = (a, { e with answers := rest }) := by
  rw [Env.drawWord, h]

theorem Env.drawDouble_of_double {e : Env} {a : DWord} {rest : List HostAnswer} (h : e.answers = .double a :: rest) :
    e.drawDouble = (a, { e with answers := rest }) := by
  rw [Env.drawDouble, h]

theorem Env.drawBytes_of_bytes {e : Env} {a : List Byte} {rest : List HostAnswer} (h : e.answers = .bytes a :: rest)
    (bound : Nat) : e.drawBytes bound = (a.take bound, { e with answers := rest }) := by
  rw [Env.drawBytes, h]

/-- Settles O38: each service writes what it draws from the answers. -/
theorem inputServices : Obligations.InputServices := by
  intro s code
  refine ⟨fun h => ?word, fun h => ?float, fun h => ?double⟩
  case word =>
    obtain ⟨hframe, hself, hother⟩ :=
      State.wroteGpr { s.unreserved.call .readInteger with env := s.env.drawWord.2 } 2 s.env.drawWord.1
    refine ⟨_, s.env.drawWord.1, exec_syscall_of_done (v := .readInt) code h rfl rfl, hframe, hself, hother,
      fun a rest hanswers => ?_⟩
    have hdraw := Env.drawWord_of_word hanswers
    exact ⟨congrArg Prod.fst hdraw, by
      rw [State.advance_env, State.setGpr_env]
      exact congrArg (fun x => x.2.answers) hdraw⟩
  case float =>
    obtain ⟨hframe, hself, hother⟩ :=
      State.wroteFpr { s.unreserved.call .readFloat with env := s.env.drawWord.2 } 0 s.env.drawWord.1
    refine ⟨_, s.env.drawWord.1, exec_syscall_of_done (v := .readFloat) code h rfl rfl, hframe,
      hself (0, _) List.mem_cons_self, fun q hq => hother q (by simpa using hq), fun a rest hanswers => ?_⟩
    have hdraw := Env.drawWord_of_word hanswers
    exact ⟨congrArg Prod.fst hdraw, congrArg (fun x => x.2.answers) hdraw⟩
  case double =>
    obtain ⟨hframe, -, hother⟩ :=
      State.wroteFd64 { s.unreserved.call .readDouble with env := s.env.drawDouble.2 } 0 s.env.drawDouble.1
    refine ⟨_, s.env.drawDouble.1, exec_syscall_of_done (v := .readDouble) code h rfl rfl, hframe,
      State.fd64_setFd64 _ 0 _, fun q hq hq' => hother q (by simpa using ⟨hq, hq'⟩), fun a rest hanswers => ?_⟩
    have hdraw := Env.drawDouble_of_double hanswers
    exact ⟨congrArg Prod.fst hdraw, congrArg (fun x => x.2.answers) hdraw⟩

end Sys2Proof.Machine
end

