-- ==== Sys2Proof/Proofs/MemoryServices.lean ====
section
/-! SUPPORT. The services that read C strings and move buffers (rules R321, R325, R329, R332 to R334), and the proofs of
O39 and O40. -/

namespace Sys2Proof.Machine

/-! ## The call made, before R2 is written and the PC moves on -/

/-- `u` is the state in SYSCALL from `s` once the call `c` is made: paging, stores and draws may have happened. -/
def State.Called (s u : State) (c : HostCall) : Prop :=
  u = { s with llBit := false, calls := s.calls ++ [c], mem := u.mem, env := u.env }

/-- Rule R337: the call made by `s`, and the free inputs it leaves. -/
def State.answered (s : State) (c : HostCall) (e : Env) : State := { s.call c with env := e }

theorem State.OnlyPaging.called {s u : State} (h : s.unreserved.OnlyPaging u) (c : HostCall) :
    s.Called (u.call c) c := by
  rw [State.Called, h.1]
  rfl

theorem State.OnlyPaging.called_answered {s u : State} (h : s.unreserved.OnlyPaging u) (c : HostCall) (e : Env) :
    s.Called (u.answered c e) c := by
  rw [State.Called, h.1]
  rfl

theorem State.Called.gpr {s u : State} {c : HostCall} (h : s.Called u c) (q : Reg) : u.gpr q = s.gpr q :=
  State.gpr_congr (by rw [h]) q

/-- What O39 and O40 say of the fields when no register is written. -/
theorem State.Called.advance {s u : State} {c : HostCall} (h : s.Called u c) :
    u.advance =
      { s.advanced with llBit := false, calls := s.calls ++ [c], mem := u.advance.mem, env := u.advance.env } := by
  rw [h]
  rfl

/-- What O39 and O40 say of the fields when R2 is written. -/
theorem State.Called.wroteR2 {s u : State} {c : HostCall} (h : s.Called u c) (w : Word) :
    ∃ t, (u.setGpr 2 w).advance = t ∧
      t = { s.advanced with gprs := t.gprs, llBit := false, calls := s.calls ++ [c], mem := t.mem, env := t.env } ∧
      t.gpr 2 = w ∧ (∀ q : Reg, q ≠ 2 → t.gpr q = s.gpr q) ∧ ∀ x : Word, t.byteAt x = u.byteAt x := by
  obtain ⟨hframe, hself, hother⟩ := u.wroteGpr 2 w
  refine ⟨_, rfl, ?_, hself, fun q hq => (hother q hq).trans (h.gpr q), fun x => ?_⟩
  · rw [hframe, h]
    rfl
  · rw [hframe]
    rfl

/-! ## Strings -/

theorem State.unreserved_stringAt (s : State) (a : Word) (n : Nat) : s.unreserved.stringAt a n = s.stringAt a n :=
  State.stringAt_congr (s := s) (t := s.unreserved) (fun _ => rfl) a n

theorem State.readable.unreserved {s : State} {as : List Word} (h : s.readable as) : s.unreserved.readable as :=
  h.congr rfl rfl rfl rfl

/-- Rule R325: when the string is readable, service 4 is done, after paging only. -/
theorem servePrintString_of_readable {s : State} (hwf : s.memWf)
    (hread : s.readable (addressesFrom (s.gpr 4) ((s.stringAt (s.gpr 4) s.params.strMax).length + 1))) :
    ∃ u, servePrintString s = .done () (u.call (.printString (s.stringAt (s.gpr 4) s.params.strMax))) ∧
      s.OnlyPaging u := by
  obtain ⟨u, hstring, hpaging, -, -, -⟩ := State.cstring_readable (as := []) hwf (by rwa [List.append_nil])
  exact ⟨u, by rw [servePrintString, hstring]; rfl, hpaging⟩

/-- Rule R332: when both strings are readable, service 13 is done: it pages, makes the call, and writes the host's word
to R2. -/
theorem serveFileOpen_of_readable {s : State} (hwf : s.memWf)
    (hread : s.readable (addressesFrom (s.gpr 4) ((s.stringAt (s.gpr 4) s.params.strMax).length + 1) ++
      addressesFrom (s.gpr 5) ((s.stringAt (s.gpr 5) s.params.strMax).length + 1))) :
    ∃ u, serveFileOpen s = .done () ((u.answered
        (.openFile (s.stringAt (s.gpr 4) s.params.strMax) (s.stringAt (s.gpr 5) s.params.strMax))
        u.env.drawWord.2).setGpr 2 u.env.drawWord.1) ∧
      s.OnlyPaging u ∧ u.env.answers = s.env.answers := by
  obtain ⟨t, hname, hpaging, htwf, htread, hanswers⟩ := State.cstring_readable hwf hread
  have hgpr : t.gpr 5 = s.gpr 5 := State.gpr_congr (by rw [hpaging.1]) 5
  have hparams : t.params = s.params := by rw [hpaging.1]
  rw [← hpaging.stringAt] at htread
  obtain ⟨u, hflags, hpaging', -, -, hanswers'⟩ :=
    State.cstring_readable (as := []) htwf (by rwa [List.append_nil])
  rw [hpaging.stringAt] at hflags
  refine ⟨u, ?_, hpaging.trans hpaging', hanswers'.trans hanswers⟩
  rw [serveFileOpen, hname, Access.andThen, hgpr, hparams, hflags]
  rfl

/-- Settles O39: the strings are read, after paging only, and given to the host. -/
theorem stringServices : Obligations.StringServices := by
  intro s code hwf string bytes
  refine ⟨fun h hread => ?print, fun h hread => ?fileOpen⟩
  case print =>
    obtain ⟨u, hdone, hpaging⟩ := servePrintString_of_readable (s := s.unreserved) hwf
      (by rw [State.unreserved_stringAt]; exact hread.unreserved)
    rw [State.unreserved_stringAt] at hdone
    exact ⟨_, exec_syscall_of_done (v := .printString) code h rfl hdone, (hpaging.called _).advance, hpaging.2⟩
  case fileOpen =>
    obtain ⟨u, hdone, hpaging, hanswers⟩ := serveFileOpen_of_readable (s := s.unreserved) hwf
      (by rw [State.unreserved_stringAt, State.unreserved_stringAt]; exact hread.unreserved)
    rw [State.unreserved_stringAt, State.unreserved_stringAt] at hdone
    obtain ⟨t, ht, hframe, hself, hother, hbytes⟩ := (hpaging.called_answered _ _).wroteR2 u.env.drawWord.1
    exact ⟨t, _, ht ▸ exec_syscall_of_done (v := .fileOpen) code h rfl hdone, hframe, hself, hother,
      fun x => (hbytes x).trans (hpaging.2 x),
      fun a rest ha => congrArg Prod.fst (Env.drawWord_of_word (hanswers.trans ha))⟩

/-! ## Buffers -/

/-- Rules R329, R333: when a buffer of `bound` bytes is writable, the bytes drawn for it can be put there after the
call. -/
theorem State.putDrawn_of_writable {s : State} (hwf : s.memWf) (a bound : Word) (c : HostCall)
    (hw : s.writable (addressesFrom a bound.toNat)) :
    ∃ u, (s.unreserved.answered c (s.env.drawBytes bound.toNat).2).putBytes a (s.env.drawBytes bound.toNat).1 =
        .done () u ∧
      s.Called u c ∧ s.Stored u a (s.env.drawBytes bound.toNat).1 := by
  have hlen := Env.drawBytes_length s.env bound.toNat
  obtain ⟨u, hu⟩ := State.putBytes_writable (s := s.unreserved.answered c (s.env.drawBytes bound.toNat).2) hwf
    ((hw.sublist (addressesFrom_sublist a hlen)).congr rfl rfl rfl (Env.drawBytes_swapOutcomes s.env _))
  obtain ⟨hframe, hstored, -⟩ := State.putBytes_done (s := s.unreserved.answered c _) hwf (hlen.trans bound.isLt.le) hu
  exact ⟨u, hu, hframe, hstored⟩

theorem Env.drawBytes_eq_take {e : Env} {a : List Byte} {rest : List HostAnswer} (h : e.answers = .bytes a :: rest)
    (bound : Nat) : (e.drawBytes bound).1 = a.take bound :=
  congrArg Prod.fst (Env.drawBytes_of_bytes h bound)

/-- Rule R334: when the buffer is readable, service 15 is done: it pages, makes the call with the bytes, and writes the
host's word to R2. -/
theorem serveFileWrite_of_readable {s : State} (hwf : s.memWf)
    (hread : s.readable (addressesFrom (s.gpr 5) (s.gpr 6).toNat)) :
    ∃ u, serveFileWrite s = .done () ((u.answered
        (.writeFile (s.gpr 4) ((List.range (s.gpr 6).toNat).map fun i => s.byteAt (s.gpr 5 + BitVec.ofNat 32 i))
          (s.gpr 6)) u.env.drawWord.2).setGpr 2 u.env.drawWord.1) ∧
      s.OnlyPaging u ∧ u.env.answers = s.env.answers := by
  obtain ⟨u, hbytes, hpaging, -, -, hanswers⟩ := State.readBytes_readable (as := []) hwf (by rwa [List.append_nil])
  have hgpr (q : Reg) : u.gpr q = s.gpr q := State.gpr_congr (by rw [hpaging.1]) q
  refine ⟨u, ?_, hpaging, hanswers⟩
  rw [serveFileWrite, hbytes, Access.andThen, hgpr, hgpr]
  rfl

/-- Settles O40: what is stored is what is drawn for the buffer, and what is handed over is what it holds. -/
theorem bufferServices : Obligations.BufferServices := by
  intro s code hwf buffer
  refine ⟨fun h hw => ?readString, fun h hw => ?fileRead, fun h hread => ?fileWrite⟩
  case readString =>
    obtain ⟨u, hdone, hcalled, hstored⟩ := State.putDrawn_of_writable hwf _ _ (.readString (s.gpr 5)) hw
    exact ⟨_, _, exec_syscall_of_done (v := .readString) code h rfl hdone, hcalled.advance, hstored,
      Env.drawBytes_length _ _, fun a rest ha => Env.drawBytes_eq_take ha _⟩
  case fileRead =>
    obtain ⟨u, hput, hcalled, hstored⟩ := State.putDrawn_of_writable hwf _ _ (.readFile (s.gpr 4) (s.gpr 6)) hw
    have hlen := Env.drawBytes_length s.env (s.gpr 6).toNat
    obtain ⟨t, ht, hframe, hself, hother, hbytes⟩ :=
      hcalled.wroteR2 (BitVec.ofNat 32 (s.env.drawBytes (s.gpr 6).toNat).1.length)
    have hdone : serveFileRead s.unreserved = Access.andThen (.done () u) fun _ u =>
        .done () (u.setGpr 2 (BitVec.ofNat 32 (s.env.drawBytes (s.gpr 6).toNat).1.length)) := by
      rw [← hput]
      rfl
    refine ⟨t, _, ht ▸ exec_syscall_of_done (v := .fileRead) code h rfl hdone, hframe, ?_, hother,
      fun x => (hbytes x).trans (hstored x), hlen, fun a rest ha => Env.drawBytes_eq_take ha _⟩
    rw [hself, BitVec.toNat_ofNat, Nat.mod_eq_of_lt (hlen.trans_lt (s.gpr 6).isLt)]
  case fileWrite =>
    obtain ⟨u, hdone, hpaging, hanswers⟩ := serveFileWrite_of_readable (s := s.unreserved) hwf hread.unreserved
    obtain ⟨t, ht, hframe, hself, hother, hbytes⟩ := (hpaging.called_answered _ _).wroteR2 u.env.drawWord.1
    refine ⟨t, _, _, ht ▸ exec_syscall_of_done (v := .fileWrite) code h rfl hdone, hframe, ?_, fun k hk => ?_, hself,
      hother, fun x => (hbytes x).trans (hpaging.2 x),
      fun a rest ha => congrArg Prod.fst (Env.drawWord_of_word (hanswers.trans ha))⟩
    · rw [List.length_map, List.length_range]
      rfl
    · rw [List.getElem?_map, List.getElem?_range (by simpa using hk)]
      rfl

end Sys2Proof.Machine
end
